-- ==== Sys2Proof/Word.lean ====
section
/-! DEFINITION. The word types of the engine (R18 to R20): bytes, 32- and 64-bit words, and the 82-bit word that holds a CRC value of any width. -/

namespace Sys2Proof

/-- A byte of DMEM or of a message (R20). -/
abbrev Byte := BitVec 8

/-- A word of the BMW small core (R191). -/
abbrev Word32 := BitVec 32

/-- A word of the BMW big core, Skein and Tiger (R14), and the contents of an operand register (R31). -/
abbrev Word64 := BitVec 64

/-- A CRC value of any width up to 82 bits (R51, R52), held in the low bits. -/
abbrev CrcWord := BitVec 82

end Sys2Proof
end

