-- ==== Sys2Proof/Syntax.lean ====
section
/-! DEFINITION. The sixteen commands of the opcode map (R108) with the raw fields of their one format C (R100), and the algorithms that INIT binds (R111). -/

namespace Sys2Proof

/-- The digest algorithms of R2, as R111 names them. -/
inductive Alg where
  | bmw224
  | bmw256
  | bmw384
  | bmw512
  | skein224
  | skein256
  | skein384
  | skein512
  | tiger
  | tiger2
deriving DecidableEq, Repr

/-- The three strategy families of R141. -/
inductive Family where
  | bmw
  | skein
  | tiger
deriving DecidableEq, Repr

/-- A command of R108. Every constructor carries the fields X, Y and IMM of R100 as they stand in the word: a legal OP with a
bad field is still that command, and raises INVALID_INPUT when it runs (R110). -/
inductive Instr where
  | nop (x y : BitVec 4) (imm : BitVec 16)
  | init (x y : BitVec 4) (imm : BitVec 16)
  | reset (x y : BitVec 4) (imm : BitVec 16)
  | update1 (x y : BitVec 4) (imm : BitVec 16)
  | update (x y : BitVec 4) (imm : BitVec 16)
  | digest (x y : BitVec 4) (imm : BitVec 16)
  | digestn (x y : BitVec 4) (imm : BitVec 16)
  | copy (x y : BitVec 4) (imm : BitVec 16)
  | getblk (x y : BitVec 4) (imm : BitVec 16)
  | getdlen (x y : BitVec 4) (imm : BitVec 16)
  | free (x y : BitVec 4) (imm : BitVec 16)
  | hmacinit (x y : BitVec 4) (imm : BitVec 16)
  | crccfg (x y : BitVec 4) (imm : BitVec 16)
  | crcinit (x y : BitVec 4) (imm : BitVec 16)
  | crcupd (x y : BitVec 4) (imm : BitVec 16)
  | crcfin (x y : BitVec 4) (imm : BitVec 16)
deriving DecidableEq, Repr

/-- The X field (R100). -/
def Instr.x : Instr → BitVec 4
  | .nop x _ _ | .init x _ _ | .reset x _ _ | .update1 x _ _ | .update x _ _ | .digest x _ _ | .digestn x _ _ | .copy x _ _
  | .getblk x _ _ | .getdlen x _ _ | .free x _ _ | .hmacinit x _ _ | .crccfg x _ _ | .crcinit x _ _ | .crcupd x _ _
  | .crcfin x _ _ => x

/-- The Y field (R100). -/
def Instr.y : Instr → BitVec 4
  | .nop _ y _ | .init _ y _ | .reset _ y _ | .update1 _ y _ | .update _ y _ | .digest _ y _ | .digestn _ y _ | .copy _ y _
  | .getblk _ y _ | .getdlen _ y _ | .free _ y _ | .hmacinit _ y _ | .crccfg _ y _ | .crcinit _ y _ | .crcupd _ y _
  | .crcfin _ y _ => y

/-- The IMM field (R100). -/
def Instr.imm : Instr → BitVec 16
  | .nop _ _ i | .init _ _ i | .reset _ _ i | .update1 _ _ i | .update _ _ i | .digest _ _ i | .digestn _ _ i | .copy _ _ i
  | .getblk _ _ i | .getdlen _ _ i | .free _ _ i | .hmacinit _ _ i | .crccfg _ _ i | .crcinit _ _ i | .crcupd _ _ i
  | .crcfin _ _ i => i

end Sys2Proof
end

