-- ==== Sys2Proof/Config.lean ====
section
/-! DEFINITION. What an implementation fixes (R12, R13, R81), and the free values: constants without a body that stand for what
the spec leaves unspecified. -/

namespace Sys2Proof

/-- The two layouts of the BMW big core's length field (R13, R197). -/
inductive LenField where
  | len64AtEnd
  | len128At112
deriving DecidableEq, Repr

/-- The range of NCTX (R10) and of NCRC (R11). -/
abbrev slotCountOk (n : Nat) : Prop := 1 ≤ n ∧ n ≤ 16

/-- A number of context slots (R10) or of CRC units (R11). -/
abbrev SlotCount := { n : Nat // slotCountOk n }

/-- The platform parameters of R12, R13 and R81. NCTX (R10) and NCRC (R11) are the lengths of the state's slot lists, each a
SlotCount at reset and in the invariant of Safety.lean. -/
structure Platform where
  /-- DMEM_SIZE (R12). -/
  dmemSize : Nat
  /-- BMW_BIG_LENFIELD (R13). -/
  lenField : LenField
  /-- REG_BASE, the bus address of the register block (R30, R81). -/
  regBase : Nat
  /-- DMEM_BASE, the bus address of DMEM (R76, R81). -/
  dmemBase : Nat
deriving DecidableEq, Repr

/-- The ranges of R12 and R81, and that the two bus windows do not overlap (log entry 3). -/
abbrev Platform.wf (p : Platform) : Prop :=
  64 ≤ p.dmemSize ∧ p.dmemSize ≤ 2 ^ 32 ∧ p.regBase % 256 = 0 ∧
    (p.regBase + 256 ≤ p.dmemBase ∨ p.dmemBase + p.dmemSize ≤ p.regBase)

/-- The values of the spec's test programs (R12, R13), with bus addresses of the model's own (log entries 2 and 3). -/
def Platform.test : Platform :=
  { dmemSize := 4096, lenField := .len64AtEnd, regBase := 0, dmemBase := 0x10000 }

/-- FREE VALUE (R61, R72, U1; log entry 4): the byte that DMEM holds at an address nothing has written, for each epoch of DMEM. -/
opaque Config.dmemDraw : Nat → Nat → BitVec 8

/-- FREE VALUE (R42, U4; log entry 8): the unspecified bytes of a block buffer. -/
opaque Config.bufTail : Nat → Nat → BitVec 8

/-- FREE VALUE (R59, R60, R145, R161, U2, U3, U5, U7; log entry 7): an unspecified natural number of draw `d`, component `i`. -/
opaque Config.freeNat (d i : Nat) : Nat

/-- FREE VALUE (as freeNat; log entry 7): an unspecified bit. -/
opaque Config.freeBit (d i : Nat) : Bool

/-- FREE VALUE (as freeNat; log entry 7): an unspecified 64-bit word. -/
opaque Config.freeWord (d i : Nat) : Word64

/-- FREE VALUE (as freeNat; log entry 7): an unspecified CRC value. -/
opaque Config.freeCrc (d i : Nat) : CrcWord

/-- FREE VALUE (as freeNat; log entry 7): an unspecified byte. -/
opaque Config.freeByte (d i : Nat) : Byte

/-- FREE VALUE (as freeNat; log entry 7): a free natural number picks the algorithm field of an unbound context. -/
def Config.freeAlg (d : Nat) : Alg :=
  match Config.freeNat d 3 % 10 with
  | 0 => .bmw224
  | 1 => .bmw256
  | 2 => .bmw384
  | 3 => .bmw512
  | 4 => .skein224
  | 5 => .skein256
  | 6 => .skein384
  | 7 => .skein512
  | 8 => .tiger
  | _ => .tiger2

end Sys2Proof
end

