-- ==== Sys2Proof/WellFormed.lean ====
section
/-! DEFINITION. Which commands obey the field rules R101 to R103, R110 to R112: those that pass the field checks of R374 on an
engine with `nctx` context slots and `ncrc` CRC units. -/

namespace Sys2Proof

/-- An ALG code of R111. -/
def knownAlgCode (a : BitVec 8) : Bool :=
  [0x01#8, 0x02#8, 0x03#8, 0x04#8, 0x11#8, 0x12#8, 0x13#8, 0x14#8, 0x21#8, 0x22#8].contains a

/-- The IMM view of INIT (R101, R111, R112): IMM[15:11] zero, a known ALG, TLEN not 3 for a Tiger code, IMM[10:8] zero for any other. -/
def initImmWellFormed (imm : BitVec 16) : Bool :=
  let alg := imm.extractLsb' 0 8
  imm.extractLsb' 11 5 == 0 && knownAlgCode alg &&
    (if alg == 0x21 || alg == 0x22 then imm.extractLsb' 8 2 != 3 else imm.extractLsb' 8 3 == 0)

/-- The field rules of R101 to R103 and R110 to R112 for each command. -/
def Instr.wellFormed (nctx ncrc : Nat) : Instr → Bool
  | .nop x y imm => x == 0 && y == 0 && imm == 0
  | .init x y imm => decide (x.toNat < nctx) && y == 0 && initImmWellFormed imm
  | .update1 x y imm => decide (x.toNat < nctx) && y == 0 && imm.extractLsb' 8 8 == 0
  | .copy x y imm => decide (x.toNat < nctx) && decide (y.toNat < nctx) && imm == 0
  | .reset x y imm | .update x y imm | .digest x y imm | .digestn x y imm | .getblk x y imm | .getdlen x y imm | .free x y imm
  | .hmacinit x y imm => decide (x.toNat < nctx) && y == 0 && imm == 0
  | .crcupd x y imm => decide (x.toNat < ncrc) && y == 0 && imm.extractLsb' 1 15 == 0
  | .crccfg x y imm | .crcinit x y imm | .crcfin x y imm => decide (x.toNat < ncrc) && y == 0 && imm == 0

end Sys2Proof
end

