-- ==== Sys2Proof/Decode.lean ====
section
/-! DEFINITION. The command word (R100, R108): its fields, the decoder, total on every 32-bit word and rejecting an unassigned OP
by name (R109), and the encoder. -/

namespace Sys2Proof

/-- OP, bits [31:24] (R100). -/
def wordOp (w : BitVec 32) : BitVec 8 := w.extractLsb' 24 8

/-- X, bits [23:20] (R100). -/
def wordX (w : BitVec 32) : BitVec 4 := w.extractLsb' 20 4

/-- Y, bits [19:16] (R100). -/
def wordY (w : BitVec 32) : BitVec 4 := w.extractLsb' 16 4

/-- IMM, bits [15:0] (R100). -/
def wordImm (w : BitVec 32) : BitVec 16 := w.extractLsb' 0 16

/-- Why a word is no command. -/
inductive DecodeReject where
  /-- OP is not in the opcode map (R109). The engine raises ILLEGAL_COMMAND for it (R373): safe. -/
  | illegalOp (op : BitVec 8)
deriving DecidableEq, Repr

/-- The opcode map of R108. -/
def decode (w : BitVec 32) : Except DecodeReject Instr :=
  let x := wordX w
  let y := wordY w
  let imm := wordImm w
  match (wordOp w).toNat with
  | 0x00 => .ok (.nop x y imm)
  | 0x01 => .ok (.init x y imm)
  | 0x02 => .ok (.reset x y imm)
  | 0x03 => .ok (.update1 x y imm)
  | 0x04 => .ok (.update x y imm)
  | 0x05 => .ok (.digest x y imm)
  | 0x06 => .ok (.digestn x y imm)
  | 0x07 => .ok (.copy x y imm)
  | 0x08 => .ok (.getblk x y imm)
  | 0x09 => .ok (.getdlen x y imm)
  | 0x0A => .ok (.free x y imm)
  | 0x10 => .ok (.hmacinit x y imm)
  | 0x20 => .ok (.crccfg x y imm)
  | 0x21 => .ok (.crcinit x y imm)
  | 0x22 => .ok (.crcupd x y imm)
  | 0x23 => .ok (.crcfin x y imm)
  | _ => .error (.illegalOp (wordOp w))

/-- The opcode of each command (R108). -/
def Instr.opcode : Instr → BitVec 8
  | .nop .. => 0x00
  | .init .. => 0x01
  | .reset .. => 0x02
  | .update1 .. => 0x03
  | .update .. => 0x04
  | .digest .. => 0x05
  | .digestn .. => 0x06
  | .copy .. => 0x07
  | .getblk .. => 0x08
  | .getdlen .. => 0x09
  | .free .. => 0x0A
  | .hmacinit .. => 0x10
  | .crccfg .. => 0x20
  | .crcinit .. => 0x21
  | .crcupd .. => 0x22
  | .crcfin .. => 0x23

/-- The word of a command: OP, X, Y and IMM from the most significant end (R100). -/
def encode (i : Instr) : BitVec 32 := i.opcode ++ i.x ++ i.y ++ i.imm

/-- The instruction the decoder reads from the `nbits` bits `w`, the bits above them zero. A command is one 32-bit word (R113),
written whole to CMD (R104). -/
def decodeTableWord (nbits w : Nat) : Option Instr :=
  match decode (BitVec.ofNat 32 (w % 2 ^ nbits)) with
  | .ok i => some i
  | .error _ => none

end Sys2Proof
end

