-- ==== Sys2Proof/Machine/Bytes.lean ====
section
/-! DEFINITION. The word operators, byte-sequence operators and bit reflection of R19 to R21. -/

namespace Sys2Proof.Machine

/-- rotlw(a, n) of R19, for 0 ≤ n < w. -/
def rotl {w : Nat} (a : BitVec w) (n : Nat) : BitVec w :=
  if n = 0 then a else (a <<< n) ^^^ (a >>> (w - n))

/-- zeros(n) of R20. -/
def zeros (n : Nat) : List Byte := List.replicate n 0

/-- le_dec of R20 over a whole byte sequence. -/
def leDecode : List Byte → Nat
  | [] => 0
  | b :: s => b.toNat + 256 * leDecode s

/-- be_dec of R20 over a whole byte sequence. -/
def beDecode (s : List Byte) : Nat := leDecode s.reverse

/-- le_enc(v, n) of R20. -/
def leEncode (v : Nat) : Nat → List Byte
  | 0 => []
  | n + 1 => BitVec.ofNat 8 v :: leEncode (v / 256) n

/-- be_enc(v, n) of R20. -/
def beEncode (v n : Nat) : List Byte := (leEncode v n).reverse

/-- The bytes s[off..off+n) of a byte sequence (R20). -/
def slice (s : List Byte) (off n : Nat) : List Byte := (s.drop off).take n

/-- The n little-endian words of w bits, `nb` bytes each, at the start of a block (R190, R230, R270). -/
def leWords (w nb : Nat) (blk : List Byte) (n : Nat) : List (BitVec w) :=
  (List.range n).map fun j => BitVec.ofNat w (leDecode (slice blk (j * nb) nb))

/-- The little-endian encoding of words, `nb` bytes each (R203, R230, R280). -/
def leBytes {w : Nat} (nb : Nat) (ws : List (BitVec w)) : List Byte :=
  ws.flatMap fun x => leEncode x.toNat nb

/-- The big-endian encoding of words, `nb` bytes each (R280). -/
def beBytes {w : Nat} (nb : Nat) (ws : List (BitVec w)) : List Byte :=
  ws.flatMap fun x => beEncode x.toNat nb

/-- reflect(v, n) of R21 on a value held in a word of m bits: bit i of the result is bit n-1-i of v for i < n. -/
def reflect {m : Nat} (v : BitVec m) (n : Nat) : BitVec m :=
  ((v.setWidth n).reverse).setWidth m

/-- Word i of a list of words. Every use in the model stays inside the list in every state a run can reach (log entry 17). -/
def wordAt {w : Nat} (l : List (BitVec w)) (i : Nat) : BitVec w := l.getD i 0

end Sys2Proof.Machine
end

