-- ==== Sys2Proof/Machine/State.lean ====
section
/-! DEFINITION. The state of the engine as plain data (spec/10_state.md), the host actions that drive it (R17, R23), the reasons a
step can stop, and the state after hardware reset (R58 to R61). -/

namespace Sys2Proof.Machine

/-- The error codes of R370; their numbers are in Flags.lean. -/
inductive ErrCode where
  | ok
  | invalidInput
  | bounds
  | notImplemented
  | crcWidth
  | contextUndefined
  | illegalCommand
deriving DecidableEq, Repr

/-- The lifecycle state of a context slot (R38). -/
inductive CtxSt where
  | unbound
  | ready
  | undef
deriving DecidableEq, Repr

/-- A chaining value (R44): words of 32 bits for the BMW small core, of 64 bits for every other algorithm. -/
inductive ChainVal where
  | w32 (h : List Word32)
  | w64 (h : List Word64)
deriving DecidableEq, Repr

/-- A context slot (R37 to R48). -/
structure Ctx where
  /-- R38. -/
  st : CtxSt
  /-- R39. -/
  alg : Alg
  /-- B, the block length in bytes (R40). -/
  blockLen : Nat
  /-- L, the digest length in bytes (R40). -/
  digestLen : Nat
  /-- The Tiger output byte order (R41): true is big-endian. -/
  tbe : Bool
  /-- Tiger extraPasses (R16, R41). -/
  passes : Word64
  /-- The valid bytes buf[0..ptr) of the block buffer (R42); ptr is their number, and the bytes from ptr up to B are
  unspecified (log entry 8). -/
  buf : List Byte
  /-- The block counter, modulo 2^64 (R15, R43). -/
  bcount : Word64
  /-- The chaining value (R44). -/
  cv : ChainVal
  /-- Whether the slot is in HMAC mode (R46). -/
  hmac : Bool
  /-- The inner pad (R47). -/
  kipad : List Byte
  /-- The outer pad (R47). -/
  kopad : List Byte
  /-- The HMAC output length in bytes (R48). -/
  hlen : Nat
deriving DecidableEq, Repr

/-- A CRC unit (R49 to R53). -/
structure CrcUnit where
  /-- R50. -/
  cfgd : Bool
  /-- R51. -/
  width : Nat
  /-- R51. -/
  poly : CrcWord
  /-- R51. -/
  init : CrcWord
  /-- R51. -/
  xorout : CrcWord
  /-- R51. -/
  refin : Bool
  /-- R51. -/
  refout : Bool
  /-- The CrcRegister in canonical form (R52, R333). -/
  reg : CrcWord
  /-- The CrcTable (R53, R335). -/
  table : List CrcWord
deriving DecidableEq, Repr

/-- What the host, or the platform, can do to the engine (R17, R75, R76, R400). -/
inductive HostAction where
  /-- A bus write of the low `size` bytes of `value` at bus address `addr`. -/
  | write (addr size : Nat) (value : Word64)
  /-- A bus read of `size` bytes at bus address `addr`. -/
  | read (addr size : Nat)
  /-- Hardware reset (R400). -/
  | hwReset
deriving DecidableEq, Repr

/-- DMEM as the list of the bytes that something has written, addresses strictly rising. An address that is not listed has not
been written since reset and reads as a free value (R61, R72; log entry 4). -/
abbrev Memory := List Host.Cell

/-- The machine's state. -/
structure State where
  /-- The parameters of the implementation; no step changes them (log entries 2 and 3). -/
  platform : Platform
  /-- STATUS.ERR (R34). -/
  err : ErrCode
  /-- STATUS.STICKY (R34). -/
  sticky : Bool
  /-- STATUS.BUSY (R34). -/
  busy : Bool
  /-- A0 (R31). -/
  a0 : Word64
  /-- A1 (R31). -/
  a1 : Word64
  /-- A2 (R31). -/
  a2 : Word64
  /-- A3 (R31). -/
  a3 : Word64
  /-- RESULT (R32). -/
  result : Word64
  /-- The context slots (R37); their number is NCTX (R10). -/
  ctxs : List Ctx
  /-- The CRC units (R49); their number is NCRC (R11). -/
  crcs : List CrcUnit
  /-- DMEM (R54). -/
  dmem : Memory
  /-- The model's own: which draw the unwritten bytes of DMEM take their values from (log entry 10). -/
  dmemEpoch : Nat
  /-- The model's own: how many draws of free values have been taken (log entry 10). -/
  draws : Nat
  /-- The model's own: what the last host read returned (log entry 9). -/
  busData : Word64
  /-- The host actions still to come (R23; log entry 1). -/
  program : List HostAction
deriving DecidableEq, Repr

/-- Why the machine stops with a fault. -/
inductive Fault where
  /-- Raised by a host access to a bus address that belongs neither to the register block nor to DMEM (log entry 13). Safe: the
  spec gives no agent that would answer it. -/
  | unmappedBusAddress (addr : Nat)
deriving DecidableEq, Repr

/-- Why the machine gives a host action no meaning. -/
inductive Refusal where
  /-- Raised by the dispatch arm of an instruction without a meaning. Safe. No arm raises it. -/
  | notModelled (mnemonic : String)
  /-- Raised by a host access to the register block of another width, misaligned, or spanning two registers: R75, 'A model refuses
  it'. Safe. -/
  | badRegisterAccess (offset size : Nat)
  /-- Raised by a host access to DMEM that is misaligned, of another size, or extends beyond DMEM: R76, 'a model refuses it'. Safe. -/
  | badDmemAccess (addr size : Nat)
  /-- Raised by a host access made while STATUS.BUSY is 1: R405, 'a model refuses it'. Safe. -/
  | accessWhileBusy (addr : Nat)
deriving DecidableEq, Repr

/-- A context slot at State.reset: UNBOUND (R59). DESIGN CHOICE for every other field, which the spec leaves unspecified
(log entry 5): unsafe. -/
def Ctx.atReset : Ctx :=
  { st := .unbound, alg := .bmw224, blockLen := 0, digestLen := 0, tbe := false, passes := 0, buf := [], bcount := 0,
    cv := .w64 [], hmac := false, kipad := [], kopad := [], hlen := 0 }

/-- A CRC unit at State.reset: cfgd = 0 (R60). DESIGN CHOICE for every other field, which the spec leaves unspecified
(log entry 6): unsafe. -/
def CrcUnit.atReset : CrcUnit :=
  { cfgd := false, width := 0, poly := 0, init := 0, xorout := 0, refin := false, refout := false, reg := 0, table := [] }

/-- The machine right after hardware reset (R58 to R61, R400) on a platform with `nctx` context slots (R10) and `ncrc` CRC units
(R11). -/
def State.resetOn (p : Platform) (nctx ncrc : SlotCount) : State :=
  { platform := p, err := .ok, sticky := false, busy := false, a0 := 0, a1 := 0, a2 := 0, a3 := 0, result := 0,
    ctxs := List.replicate nctx.val Ctx.atReset, crcs := List.replicate ncrc.val CrcUnit.atReset, dmem := [], dmemEpoch := 0,
    draws := 0, busData := 0, program := [] }

/-- The machine right after hardware reset, with the parameters of the spec's test programs (R10 to R13; log entry 2). -/
def State.reset : State := State.resetOn Platform.test ⟨4, by decide⟩ ⟨2, by decide⟩

end Sys2Proof.Machine
end

