-- ==== Sys2Proof/Machine/Crc.lean ====
section
/-! DEFINITION. The CRC core (spec/45_crc.md): the parameter record, the bit-serial and the table-driven byte step, the table and the
value. -/

namespace Sys2Proof.Machine

/-- 2^width - 1 (R336): the bits of a value of this width. -/
def crcMask (width : Nat) : CrcWord := BitVec.ofNat 82 (2 ^ width - 1)

/-- BitStep(reg, bit) of R334. -/
def crcBitStep (width : Nat) (poly : CrcWord) (reg : CrcWord) (bit : Bool) : CrcWord :=
  let shifted := (reg <<< 1) &&& crcMask width
  if Bool.xor (reg.getLsbD (width - 1)) bit then shifted ^^^ poly else shifted

/-- The bits of a byte, bit 7 first, as R334 takes them. -/
def byteBits (b : Byte) : List Bool :=
  [b.getLsbD 7, b.getLsbD 6, b.getLsbD 5, b.getLsbD 4, b.getLsbD 3, b.getLsbD 2, b.getLsbD 1, b.getLsbD 0]

/-- CrcByte(reg, b) of R334. -/
def crcByte (width : Nat) (poly : CrcWord) (refin : Bool) (reg : CrcWord) (b : Byte) : CrcWord :=
  (byteBits (if refin then reflect b 8 else b)).foldl (crcBitStep width poly) reg

/-- The table of R335, which depends only on width, poly and refin. -/
def crcTable (width : Nat) (poly : CrcWord) (refin : Bool) : List CrcWord :=
  (List.range 256).map fun i =>
    if refin then reflect (crcByte width poly false 0 (reflect (BitVec.ofNat 8 i) 8)) width
    else crcByte width poly false 0 (BitVec.ofNat 8 i)

/-- The table index of R336: the low eight bits of a value, as a number. -/
def crcIndex (v : CrcWord) : Nat := (v &&& 0xFF#82).toNat

/-- CrcByteT(reg, b) of R336, with the unit's table. -/
def crcByteT (width : Nat) (refin : Bool) (table : List CrcWord) (reg : CrcWord) (b : Byte) : CrcWord :=
  let b82 : CrcWord := b.setWidth 82
  if refin then
    let r := reflect reg width
    let r1 :=
      if 8 ≤ width then (r >>> 8) ^^^ wordAt table (crcIndex (r ^^^ b82)) else wordAt table (crcIndex (r ^^^ b82))
    reflect r1 width
  else if 8 ≤ width then
    ((reg <<< 8) &&& crcMask width) ^^^ wordAt table (crcIndex ((reg >>> (width - 8)) ^^^ b82))
  else wordAt table (crcIndex (b82 ^^^ (reg <<< (8 - width))))

/-- One byte folded into a unit's register, on the path that SERIAL selects (R339). -/
def CrcUnit.step (serial : Bool) (u : CrcUnit) (reg : CrcWord) (b : Byte) : CrcWord :=
  if serial then crcByte u.width u.poly u.refin reg b else crcByteT u.width u.refin u.table reg b

/-- The unit after folding a byte sequence into its register (R339). -/
def CrcUnit.feed (serial : Bool) (u : CrcUnit) (s : List Byte) : CrcUnit :=
  { u with reg := s.foldl (u.step serial) u.reg }

/-- CrcValue(reg) of R334. -/
def CrcUnit.value (u : CrcUnit) : CrcWord :=
  (if u.refout then reflect u.reg u.width else u.reg) ^^^ u.xorout

/-- The bytes CRCFIN writes: ceil(width/8) (R341). -/
def CrcUnit.outLen (u : CrcUnit) : Nat := (u.width + 7) / 8

/-- The unit with its register back at init (R338, R341). -/
def CrcUnit.restart (u : CrcUnit) : CrcUnit := { u with reg := u.init }

/-- The size of a parameter record in bytes (R330). -/
def crcRecordLen : Nat := 64

/-- Byte i of a parameter record. -/
def recByte (record : List Byte) (i : Nat) : Byte := record.getD i 0

/-- The error of a record that is not valid, CRC_WIDTH first (R331, R337). -/
def crcRecordError (record : List Byte) : Option ErrCode :=
  let w := (recByte record 0).toNat
  if w < 3 ∨ 82 < w then some .crcWidth
  else if (recByte record 1).extractLsb' 2 6 ≠ 0 ∨ slice record 2 14 ≠ zeros 14 then some .invalidInput
  else if 2 ^ w ≤ beDecode (slice record 16 16) ∨ 2 ^ w ≤ beDecode (slice record 32 16) ∨ 2 ^ w ≤ beDecode (slice record 48 16) then
    some .invalidInput
  else none

/-- The unit that a valid record configures (R330, R337). -/
def crcUnitOfRecord (record : List Byte) : CrcUnit :=
  let w := (recByte record 0).toNat
  let poly := BitVec.ofNat 82 (beDecode (slice record 16 16))
  let init := BitVec.ofNat 82 (beDecode (slice record 32 16))
  let refin := (recByte record 1).getLsbD 0
  { cfgd := true, width := w, poly := poly, init := init, xorout := BitVec.ofNat 82 (beDecode (slice record 48 16)),
    refin := refin, refout := (recByte record 1).getLsbD 1, reg := init, table := crcTable w poly refin }

end Sys2Proof.Machine
end

