-- ==== Sys2Proof/Machine/Flags.lean ====
section
/-! DEFINITION. STATUS (R34): the numbers of the error codes (R370), the status word, and the three ways a command writes STATUS
(R104, R372). -/

namespace Sys2Proof.Machine

/-- The codes of R370. -/
def errNumber : ErrCode → BitVec 8
  | .ok => 0x00
  | .invalidInput => 0x01
  | .bounds => 0x02
  | .notImplemented => 0x03
  | .crcWidth => 0x04
  | .contextUndefined => 0x05
  | .illegalCommand => 0x06

/-- STATUS as the host reads it (R34): ERR in [7:0], STICKY in [8], BUSY in [9], 0 above (U12). -/
def State.statusWord (s : State) : BitVec 32 :=
  (0 : BitVec 22) ++ BitVec.ofBool s.busy ++ BitVec.ofBool s.sticky ++ errNumber s.err

/-- STATUS when a command is issued: BUSY = 1 (R104). -/
def State.startCommand (s : State) : State := { s with busy := true }

/-- STATUS when a command completes without error: ERR = 0, BUSY = 0, STICKY kept (R34, R104, R160). -/
def State.finish (s : State) : State := { s with err := .ok, busy := false }

/-- STATUS when a command raises E: ERR = E, STICKY = 1, BUSY = 0 (R372). -/
def State.withError (e : ErrCode) (s : State) : State := { s with err := e, sticky := true, busy := false }

end Sys2Proof.Machine
end

