-- ==== Sys2Proof/Machine/Bmw.lean ====
section
/-! DEFINITION. The BMW compression core, padding and finalization (spec/41_bmw.md), once for both word widths. -/

namespace Sys2Proof.Machine

/-- The parameters in which the small and the big core differ (R191). -/
structure BmwCore (w : Nat) where
  /-- The word size in bytes, nb = w/8 (R190). -/
  nb : Nat
  /-- The amounts (a, b, c, d) of s0 to s3. -/
  sAmounts : List (Nat × Nat × Nat × Nat)
  /-- The rotations of r1 to r7. -/
  rAmounts : List Nat
  /-- The constant K. -/
  k : BitVec w
  /-- FINAL[0] (R199). -/
  final0 : BitVec w

/-- The small core of R191. -/
def bmwSmall : BmwCore 32 :=
  { nb := 4, sAmounts := [(1, 3, 4, 19), (1, 2, 8, 23), (2, 1, 12, 25), (2, 2, 15, 29)],
    rAmounts := [3, 7, 13, 16, 19, 23, 27], k := 0x05555555, final0 := 0xAAAAAAA0 }

/-- The big core of R191. -/
def bmwBig : BmwCore 64 :=
  { nb := 8, sAmounts := [(1, 3, 4, 37), (1, 2, 13, 43), (2, 1, 19, 53), (2, 2, 28, 59)],
    rAmounts := [5, 11, 27, 32, 37, 43, 53], k := 0x0555555555555555, final0 := 0xAAAAAAAAAAAAAAA0 }

/-- s_i of R192, i = 0 to 5. -/
def bmwS {w : Nat} (p : BmwCore w) (i : Nat) (x : BitVec w) : BitVec w :=
  match i with
  | 4 => (x >>> 1) ^^^ x
  | 5 => (x >>> 2) ^^^ x
  | _ =>
    let (a, b, c, d) := p.sAmounts.getD i (0, 0, 0, 0)
    (x >>> a) ^^^ (x <<< b) ^^^ rotl x c ^^^ rotl x d

/-- r_i of R193, i = 1 to 7. -/
def bmwR {w : Nat} (p : BmwCore w) (i : Nat) (x : BitVec w) : BitVec w :=
  rotl x (p.rAmounts.getD (i - 1) 0)

/-- The words W[0..15] of step f0 (R194) from D[j] = M[j] xor H[j]. -/
def bmwW {w : Nat} (d : Nat → BitVec w) : List (BitVec w) :=
  [ d 5 - d 7 + d 10 + d 13 + d 14,
    d 6 - d 8 + d 11 + d 14 - d 15,
    d 0 + d 7 + d 9 - d 12 + d 15,
    d 0 - d 1 + d 8 - d 10 + d 13,
    d 1 + d 2 + d 9 - d 11 - d 14,
    d 3 - d 2 + d 10 - d 12 + d 15,
    d 4 - d 0 - d 3 - d 11 + d 13,
    d 1 - d 4 - d 5 - d 12 - d 14,
    d 2 - d 5 - d 6 + d 13 - d 15,
    d 0 - d 3 + d 6 - d 7 + d 14,
    d 8 - d 1 - d 4 - d 7 + d 15,
    d 8 - d 0 - d 2 - d 5 + d 9,
    d 1 + d 3 - d 6 - d 9 + d 10,
    d 2 + d 4 + d 7 + d 10 + d 11,
    d 3 - d 5 + d 8 - d 11 - d 12,
    d 12 - d 4 - d 6 - d 9 + d 13 ]

/-- Step f0: Q[0..15] (R194). -/
def bmwF0 {w : Nat} (p : BmwCore w) (h m : List (BitVec w)) : List (BitVec w) :=
  let ws := bmwW fun j => wordAt m j ^^^ wordAt h j
  (List.range 16).map fun j => bmwS p (j % 5) (wordAt ws j) + wordAt h ((j + 1) % 16)

/-- AddElement(j) of R195, j = 16 to 31. -/
def bmwAddElement {w : Nat} (p : BmwCore w) (h m : List (BitVec w)) (j : Nat) : BitVec w :=
  let rm := fun i => rotl (wordAt m (i % 16)) (i % 16 + 1)
  (rm (j - 16) + rm (j - 13) - rm (j - 6) + BitVec.ofNat w j * p.k) ^^^ wordAt h ((j - 9) % 16)

/-- expand1(j) of R195. -/
def bmwExpand1 {w : Nat} (p : BmwCore w) (h m q : List (BitVec w)) (j : Nat) : BitVec w :=
  ((List.range 16).map fun k => bmwS p ((k + 1) % 4) (wordAt q (j - 16 + k))).foldl (· + ·) 0 + bmwAddElement p h m j

/-- expand2(j) of R195. -/
def bmwExpand2 {w : Nat} (p : BmwCore w) (h m q : List (BitVec w)) (j : Nat) : BitVec w :=
  let v := fun n => wordAt q (j - n)
  v 16 + bmwR p 1 (v 15) + v 14 + bmwR p 2 (v 13) + v 12 + bmwR p 3 (v 11) + v 10 + bmwR p 4 (v 9) + v 8 + bmwR p 5 (v 7)
    + v 6 + bmwR p 6 (v 5) + v 4 + bmwR p 7 (v 3) + bmwS p 4 (v 2) + bmwS p 5 (v 1) + bmwAddElement p h m j

/-- Step f1: Q[0..31] from Q[0..15] (R195). -/
def bmwF1 {w : Nat} (p : BmwCore w) (h m q : List (BitVec w)) : List (BitVec w) :=
  (List.range 16).foldl
    (fun q i => q ++ [if i < 2 then bmwExpand1 p h m q (i + 16) else bmwExpand2 p h m q (i + 16)]) q

/-- Step f2 (R196): the sixteen new chaining words from Q[0..31] and M. -/
def bmwF2 {w : Nat} (m q : List (BitVec w)) : List (BitVec w) :=
  let qa := wordAt q
  let ma := wordAt m
  let xl := qa 16 ^^^ qa 17 ^^^ qa 18 ^^^ qa 19 ^^^ qa 20 ^^^ qa 21 ^^^ qa 22 ^^^ qa 23
  let xh := xl ^^^ qa 24 ^^^ qa 25 ^^^ qa 26 ^^^ qa 27 ^^^ qa 28 ^^^ qa 29 ^^^ qa 30 ^^^ qa 31
  let h0 := ((xh <<< 5) ^^^ (qa 16 >>> 5) ^^^ ma 0) + (xl ^^^ qa 24 ^^^ qa 0)
  let h1 := ((xh >>> 7) ^^^ (qa 17 <<< 8) ^^^ ma 1) + (xl ^^^ qa 25 ^^^ qa 1)
  let h2 := ((xh >>> 5) ^^^ (qa 18 <<< 5) ^^^ ma 2) + (xl ^^^ qa 26 ^^^ qa 2)
  let h3 := ((xh >>> 1) ^^^ (qa 19 <<< 5) ^^^ ma 3) + (xl ^^^ qa 27 ^^^ qa 3)
  let h4 := ((xh >>> 3) ^^^ qa 20 ^^^ ma 4) + (xl ^^^ qa 28 ^^^ qa 4)
  let h5 := ((xh <<< 6) ^^^ (qa 21 >>> 6) ^^^ ma 5) + (xl ^^^ qa 29 ^^^ qa 5)
  let h6 := ((xh >>> 4) ^^^ (qa 22 <<< 6) ^^^ ma 6) + (xl ^^^ qa 30 ^^^ qa 6)
  let h7 := ((xh >>> 11) ^^^ (qa 23 <<< 2) ^^^ ma 7) + (xl ^^^ qa 31 ^^^ qa 7)
  let h8 := rotl h4 9 + (xh ^^^ qa 24 ^^^ ma 8) + ((xl <<< 8) ^^^ qa 23 ^^^ qa 8)
  let h9 := rotl h5 10 + (xh ^^^ qa 25 ^^^ ma 9) + ((xl >>> 6) ^^^ qa 16 ^^^ qa 9)
  let h10 := rotl h6 11 + (xh ^^^ qa 26 ^^^ ma 10) + ((xl <<< 6) ^^^ qa 17 ^^^ qa 10)
  let h11 := rotl h7 12 + (xh ^^^ qa 27 ^^^ ma 11) + ((xl <<< 4) ^^^ qa 18 ^^^ qa 11)
  let h12 := rotl h0 13 + (xh ^^^ qa 28 ^^^ ma 12) + ((xl >>> 3) ^^^ qa 19 ^^^ qa 12)
  let h13 := rotl h1 14 + (xh ^^^ qa 29 ^^^ ma 13) + ((xl >>> 4) ^^^ qa 20 ^^^ qa 13)
  let h14 := rotl h2 15 + (xh ^^^ qa 30 ^^^ ma 14) + ((xl >>> 7) ^^^ qa 21 ^^^ qa 14)
  let h15 := rotl h3 16 + (xh ^^^ qa 31 ^^^ ma 15) + ((xl >>> 2) ^^^ qa 22 ^^^ qa 15)
  [h0, h1, h2, h3, h4, h5, h6, h7, h8, h9, h10, h11, h12, h13, h14, h15]

/-- BmwF(H, M) of R196. -/
def bmwF {w : Nat} (p : BmwCore w) (h m : List (BitVec w)) : List (BitVec w) :=
  bmwF2 m (bmwF1 p h m (bmwF0 p h m))

/-- The message words of a block (R190). -/
def bmwWords {w : Nat} (p : BmwCore w) (blk : List Byte) : List (BitVec w) := leWords w p.nb blk 16

/-- The strategy's Compress (R196). It does not read bcount. -/
def bmwCompress {w : Nat} (p : BmwCore w) (h : List (BitVec w)) (blk : List Byte) : List (BitVec w) :=
  bmwF p h (bmwWords p blk)

/-- FINAL (R199). -/
def bmwFinalConst {w : Nat} (p : BmwCore w) : List (BitVec w) :=
  (List.range 16).map fun i => p.final0 + BitVec.ofNat w i

/-- The initial value with the given base (R200): word i is the big-endian reading of nb consecutive byte values. -/
def bmwIv {w : Nat} (p : BmwCore w) (base : Nat) : List (BitVec w) :=
  (List.range 16).map fun i =>
    BitVec.ofNat w (beDecode ((List.range p.nb).map fun k => BitVec.ofNat 8 (base + p.nb * i + k)))

/-- The length field's size in bytes (R197): 16 only for the big core under LEN128_AT_112. -/
def bmwLenBytes {w : Nat} (p : BmwCore w) (lf : LenField) : Nat :=
  if p.nb = 8 ∧ lf = .len128At112 then 16 else 8

/-- BmwPad (R197, R198): the chaining value after the last one or two blocks, for a block length of 16·nb bytes. `le_enc` of n
bytes takes its value modulo 2^(8n), as R197 takes bitlen. -/
def bmwPad {w : Nat} (p : BmwCore w) (lf : LenField) (h : List (BitVec w)) (buf : List Byte) (bcount : Nat) : List (BitVec w) :=
  let blockLen := 16 * p.nb
  let lenBytes := bmwLenBytes p lf
  let lenpos := blockLen - lenBytes
  let bitlen := (bcount * blockLen + buf.length) * 8
  let t := buf ++ [0x80]
  if lenpos < t.length then
    bmwCompress p (bmwCompress p h (t ++ zeros (blockLen - t.length))) (zeros lenpos ++ leEncode bitlen lenBytes)
  else
    bmwCompress p h (t ++ zeros (lenpos - t.length) ++ leEncode bitlen lenBytes)

/-- The strategy's Final (R202, R203): the last nout words of the second compression, little-endian. -/
def bmwFinal {w : Nat} (p : BmwCore w) (lf : LenField) (nout : Nat) (h : List (BitVec w)) (buf : List Byte) (bcount : Nat) :
    List Byte :=
  let h2 := bmwF p (bmwFinalConst p) (bmwPad p lf h buf bcount)
  leBytes p.nb (h2.drop (16 - nout))

end Sys2Proof.Machine
end

