-- ==== Sys2Proof/Machine/Skein.lean ====
section
/-! DEFINITION. The Skein compression core: UBI, Threefish, initial values and finalization (spec/42_skein.md), once for both state
widths. -/

namespace Sys2Proof.Machine

/-- The tables in which the two state widths differ (R230, R236, R237). -/
structure SkeinCore where
  /-- Nw, the number of state words. -/
  nw : Nat
  /-- R[d mod 8][j]. -/
  rot : List (List Nat)
  /-- P. -/
  perm : List Nat

/-- The small core: 256-bit state. -/
def skeinSmall : SkeinCore :=
  { nw := 4,
    rot := [[14, 16], [52, 57], [23, 40], [5, 37], [25, 33], [46, 12], [58, 22], [32, 32]],
    perm := [0, 3, 2, 1] }

/-- The big core: 512-bit state. -/
def skeinBig : SkeinCore :=
  { nw := 8,
    rot := [[46, 36, 19, 37], [33, 27, 14, 42], [17, 49, 36, 39], [44, 9, 54, 56],
      [39, 30, 34, 24], [13, 50, 10, 17], [25, 29, 39, 43], [8, 35, 56, 22]],
    perm := [2, 1, 4, 7, 6, 5, 0, 3] }

/-- The tweak words T0 and T1 of R231. -/
def skeinTweak (pos etype : Nat) : Word64 × Word64 :=
  (BitVec.ofNat 64 pos, BitVec.ofNat 64 (pos / 2 ^ 64 + etype * 2 ^ 55))

/-- The extended key k[0..Nw] of R234. -/
def threefishKey (h : List Word64) : List Word64 :=
  h ++ [h.foldl (· ^^^ ·) 0x1BD11BDAA9FC1A22]

/-- Subkey s of R234, from the extended key and the three tweak words. -/
def threefishSubkey (nw : Nat) (k : List Word64) (t : List Word64) (s : Nat) : List Word64 :=
  (List.range nw).map fun i =>
    let base := wordAt k ((s + i) % (nw + 1))
    if i = nw - 3 then base + wordAt t (s % 3)
    else if i = nw - 2 then base + wordAt t ((s + 1) % 3)
    else if i = nw - 1 then base + BitVec.ofNat 64 s
    else base

/-- The MIX of one round over the pairs of state words (R235). -/
def threefishMix : List Word64 → List Nat → List Word64
  | x0 :: x1 :: v, r :: rs =>
    let y0 := x0 + x1
    y0 :: (rotl x1 r ^^^ y0) :: threefishMix v rs
  | v, _ => v

/-- Round d of R235: the subkey when d mod 4 = 0, the MIX, the permutation. -/
def threefishRound (c : SkeinCore) (k t : List Word64) (v : List Word64) (d : Nat) : List Word64 :=
  let v1 := if d % 4 = 0 then v.zipWith (· + ·) (threefishSubkey c.nw k t (d / 4)) else v
  let v2 := threefishMix v1 (c.rot.getD (d % 8) [])
  c.perm.map fun i => wordAt v2 i

/-- Threefish (R234, R235): 72 rounds and the final subkey. -/
def threefish (c : SkeinCore) (key : List Word64) (t0 t1 : Word64) (m : List Word64) : List Word64 :=
  let k := threefishKey key
  let t := [t0, t1, t0 ^^^ t1]
  let v := (List.range 72).foldl (threefishRound c k t) m
  v.zipWith (· + ·) (threefishSubkey c.nw k t 18)

/-- UBI (R232). -/
def skeinUbi (c : SkeinCore) (h : List Word64) (blk : List Byte) (pos etype : Nat) : List Word64 :=
  let m := leWords 64 8 blk c.nw
  let tw := skeinTweak pos etype
  (threefish c h tw.1 tw.2 m).zipWith (· ^^^ ·) m

/-- The strategy's Compress (R232), for a message block that is not the last: `bcount` blocks came before it. -/
def skeinCompress (c : SkeinCore) (h : List Word64) (blk : List Byte) (bcount : Nat) : List Word64 :=
  skeinUbi c h blk ((bcount + 1) * (8 * c.nw)) (if bcount = 0 then 224 else 96)

/-- The configuration block of R238 for a digest of `digestLen` bytes. -/
def skeinConfig (c : SkeinCore) (digestLen : Nat) : List Byte :=
  [0x53, 0x48, 0x41, 0x33] ++ leEncode 1 2 ++ zeros 2 ++ leEncode (8 * digestLen) 8 ++ zeros (8 * c.nw - 16)

/-- The derivation of the initial value by R238; skeinIv224 to skeinIv512 are its results as R239 lists them. -/
def skeinIvDerived (c : SkeinCore) (digestLen : Nat) : List Word64 :=
  skeinUbi c (List.replicate c.nw 0) (skeinConfig c digestLen) 32 392

/-- R239, Skein-224. -/
def skeinIv224 : List Word64 :=
  [0xC6098A8C9AE5EA0B, 0x876D568608C5191C, 0x99CB88D7D7F53884, 0x384BDDB1AEDDB5DE]

/-- R239, Skein-256. -/
def skeinIv256 : List Word64 :=
  [0xFC9DA860D048B449, 0x2FCA66479FA7D833, 0xB33BC3896656840F, 0x6A54E920FDE8DA69]

/-- R239, Skein-384. -/
def skeinIv384 : List Word64 :=
  [0xA3F6C6BF3A75EF5F, 0xB0FEF9CCFD84FAA4, 0x9D77DD663D770CFE, 0xD798CBF3B468FDDA,
    0x1BC4A6668A0E4465, 0x7ED7D434E5807407, 0x548FC1ACD4EC44D6, 0x266E17546AA18FF8]

/-- R239, Skein-512. -/
def skeinIv512 : List Word64 :=
  [0x4903ADFF749C51CE, 0x0D95DE399746DF03, 0x8FD1934127C79BCE, 0x9A255629FF352CB1,
    0x5DB62599DF6CA7B0, 0xEABE394CA9D5C3F4, 0x991112C71A75B523, 0xAE18A40B660FCC33]

/-- The strategy's Final (R241, R242): the last message block, the output transform, the first `digestLen` bytes. -/
def skeinFinal (c : SkeinCore) (digestLen : Nat) (h : List Word64) (buf : List Byte) (bcount : Nat) : List Byte :=
  let blockLen := 8 * c.nw
  let h1 := skeinUbi c h (buf ++ zeros (blockLen - buf.length)) (bcount * blockLen + buf.length)
    (if bcount = 0 then 480 else 352)
  let h2 := skeinUbi c h1 (zeros blockLen) 8 510
  (leBytes 8 h2).take digestLen

end Sys2Proof.Machine
end

