-- ==== Sys2Proof/Machine/Tiger.lean ====
section
/-! DEFINITION. The Tiger and Tiger2 compression core, padding and output (spec/43_tiger.md). -/

namespace Sys2Proof.Machine

/-- Three Tiger state words, in the order of the roles they play (R270, R274). -/
abbrev Tri := Word64 × Word64 × Word64

/-- The four S-boxes t1, t2, t3, t4 (R272). -/
abbrev SBoxes := List (List Nat) × List (List Nat) × List (List Nat) × List (List Nat)

/-- The S-boxes of R286. -/
def tigerBoxes : SBoxes := (tigerT1, tigerT2, tigerT3, tigerT4)

/-- byte_i(v) of R272. -/
def byteOf (v : Word64) (i : Nat) : Nat := (v >>> (8 * i)).toNat % 256

/-- Round(a, b, c, x, mul) of R273. -/
def tigerRound (t : SBoxes) (mul : Word64) (s : Tri) (x : Word64) : Tri :=
  let (a, b, c) := s
  let c1 := c ^^^ x
  let a1 := a - (sboxEntry t.1 (byteOf c1 0) ^^^ sboxEntry t.2.1 (byteOf c1 2) ^^^ sboxEntry t.2.2.1 (byteOf c1 4)
    ^^^ sboxEntry t.2.2.2 (byteOf c1 6))
  let b1 := b + (sboxEntry t.2.2.2 (byteOf c1 1) ^^^ sboxEntry t.2.2.1 (byteOf c1 3) ^^^ sboxEntry t.2.1 (byteOf c1 5)
    ^^^ sboxEntry t.1 (byteOf c1 7))
  (a1, b1 * mul, c1)

/-- A round followed by the role rotation of R274: the next round takes (b, c, a). -/
def tigerRoundRot (t : SBoxes) (mul : Word64) (s : Tri) (x : Word64) : Tri :=
  let (a, b, c) := tigerRound t mul s x
  (b, c, a)

/-- Pass(a, b, c, mul) of R274. Eight role rotations leave (c, a, b); the last step names them (a, b, c) again. -/
def tigerPass (t : SBoxes) (mul : Word64) (x : List Word64) (s : Tri) : Tri :=
  let (c, a, b) := (List.range 8).foldl (fun s i => tigerRoundRot t mul s (wordAt x i)) s
  (a, b, c)

/-- KeySchedule(x) of R275. -/
def tigerKeySchedule (x : List Word64) : List Word64 :=
  let x0 := wordAt x 0 - (wordAt x 7 ^^^ 0xA5A5A5A5A5A5A5A5)
  let x1 := wordAt x 1 ^^^ x0
  let x2 := wordAt x 2 + x1
  let x3 := wordAt x 3 - (x2 ^^^ ((~~~ x1) <<< 19))
  let x4 := wordAt x 4 ^^^ x3
  let x5 := wordAt x 5 + x4
  let x6 := wordAt x 6 - (x5 ^^^ ((~~~ x4) >>> 23))
  let x7 := wordAt x 7 ^^^ x6
  let y0 := x0 + x7
  let y1 := x1 - (y0 ^^^ ((~~~ x7) <<< 19))
  let y2 := x2 ^^^ y1
  let y3 := x3 + y2
  let y4 := x4 - (y3 ^^^ ((~~~ y2) >>> 23))
  let y5 := x5 ^^^ y4
  let y6 := x6 + y5
  let y7 := x7 - (y6 ^^^ 0x0123456789ABCDEF)
  [y0, y1, y2, y3, y4, y5, y6, y7]

/-- The multiplier of pass p (R276, R277). -/
def tigerMul (p : Nat) : Word64 := if p = 0 then 5 else if p = 1 then 7 else 9

/-- Pass p of the loop of R276 on the message words and the state words: the key schedule but for p = 0, the pass, the renaming
(a, b, c) to (c, a, b). -/
def tigerLoopStep (t : SBoxes) (p : Nat) (xs : List Word64 × Tri) : List Word64 × Tri :=
  let x := if p = 0 then xs.1 else tigerKeySchedule xs.1
  let (a, b, c) := tigerPass t (tigerMul p) x xs.2
  (x, (c, a, b))

/-- Passes 0 to n-1 of the loop of R276. -/
def tigerLoop (t : SBoxes) (x : List Word64) (s : Tri) : Nat → List Word64 × Tri
  | 0 => (x, s)
  | n + 1 => tigerLoopStep t n (tigerLoop t x s n)

/-- The compression of R276 on the state words and the eight message words, with `passes` extra passes (R277). -/
def tigerCompressWords (t : SBoxes) (passes : Nat) (s : Tri) (x : List Word64) : Tri :=
  let (aa, bb, cc) := s
  let (a, b, c) := (tigerLoop t x s (3 + passes)).2
  (a ^^^ aa, b - bb, c + cc)

/-- The state words of a chaining value (R44). -/
def tigerTri (h : List Word64) : Tri := (wordAt h 0, wordAt h 1, wordAt h 2)

/-- The strategy's Compress (R276). It does not read bcount. -/
def tigerCompress (passes : Nat) (h : List Word64) (blk : List Byte) : List Word64 :=
  let (a, b, c) := tigerCompressWords tigerBoxes passes (tigerTri h) (leWords 64 8 blk 8)
  [a, b, c]

/-- The strategy's IV (R271). -/
def tigerIv : List Word64 := [0x0123456789ABCDEF, 0xFEDCBA9876543210, 0xF096A5B4C3B2E187]

/-- TigerOut (R280). -/
def tigerOut (tbe : Bool) (digestLen : Nat) (h : List Word64) : List Byte :=
  (if tbe then beBytes 8 h else leBytes 8 h).take digestLen

/-- The strategy's Final (R278) with the padding byte of R279. `le_enc` of 8 bytes takes bitlen modulo 2^64. -/
def tigerFinal (pad : Byte) (passes : Nat) (tbe : Bool) (digestLen : Nat) (h : List Word64) (buf : List Byte) (bcount : Nat) :
    List Byte :=
  let bitlen := (bcount * 64 + buf.length) * 8
  let t := buf ++ [pad]
  let h1 :=
    if 56 < t.length then
      tigerCompress passes (tigerCompress passes h (t ++ zeros (64 - t.length))) (zeros 56 ++ leEncode bitlen 8)
    else
      tigerCompress passes h (t ++ zeros (56 - t.length) ++ leEncode bitlen 8)
  tigerOut tbe digestLen h1

end Sys2Proof.Machine
end

