-- ==== Sys2Proof/Machine/Strategy.lean ====
section
/-! DEFINITION. The strategy interface (R140, R141) and the block buffer and padding controller (R142 to R146, R302, R304, R306). -/

namespace Sys2Proof.Machine

/-- The family of an algorithm (R141). -/
def algFamily : Alg → Family
  | .bmw224 | .bmw256 | .bmw384 | .bmw512 => .bmw
  | .skein224 | .skein256 | .skein384 | .skein512 => .skein
  | .tiger | .tiger2 => .tiger

/-- Defer (R140, R141): only Skein defers the compression of a full buffer. -/
def algDefer (a : Alg) : Bool := algFamily a == .skein

/-- The ALG codes of R111. -/
def algOfCode (c : BitVec 8) : Option Alg :=
  match c.toNat with
  | 0x01 => some .bmw224
  | 0x02 => some .bmw256
  | 0x03 => some .bmw384
  | 0x04 => some .bmw512
  | 0x11 => some .skein224
  | 0x12 => some .skein256
  | 0x13 => some .skein384
  | 0x14 => some .skein512
  | 0x21 => some .tiger
  | 0x22 => some .tiger2
  | _ => none

/-- B of R111. -/
def algBlockLen : Alg → Nat
  | .bmw224 | .bmw256 => 64
  | .bmw384 | .bmw512 => 128
  | .skein224 | .skein256 => 32
  | .skein384 | .skein512 => 64
  | .tiger | .tiger2 => 64

/-- L of R111, with TLEN for the Tiger codes (R112). -/
def algDigestLen (a : Alg) (tlen : BitVec 2) : Nat :=
  match a with
  | .bmw224 | .skein224 => 28
  | .bmw256 | .skein256 => 32
  | .bmw384 | .skein384 => 48
  | .bmw512 | .skein512 => 64
  | .tiger | .tiger2 => if tlen = 0 then 24 else if tlen = 1 then 20 else 16

/-- The number of words of the chaining value (R44, R111). -/
def algWords : Alg → Nat
  | .bmw224 | .bmw256 | .bmw384 | .bmw512 => 16
  | .skein224 | .skein256 => 4
  | .skein384 | .skein512 => 8
  | .tiger | .tiger2 => 3

/-- Whether the words have 32 bits (R14, R111): the BMW small core's only. -/
def algSmallWords (a : Alg) : Bool := a == .bmw224 || a == .bmw256

/-- The words of a chaining value as 32-bit words (R44); it holds such words in every state a run can reach when the algorithm's
words have 32 bits (log entry 17). -/
def ChainVal.words32 : ChainVal → List Word32
  | .w32 h => h
  | .w64 _ => []

/-- The words of a chaining value as 64-bit words (R44; log entry 17). -/
def ChainVal.words64 : ChainVal → List Word64
  | .w32 _ => []
  | .w64 h => h

/-- IV of R140: R200 and R201 for BMW, R239 for Skein, R271 for Tiger. -/
def algIv : Alg → ChainVal
  | .bmw224 => .w32 (bmwIv bmwSmall 0x00)
  | .bmw256 => .w32 (bmwIv bmwSmall 0x40)
  | .bmw384 => .w64 (bmwIv bmwBig 0x00)
  | .bmw512 => .w64 (bmwIv bmwBig 0x80)
  | .skein224 => .w64 skeinIv224
  | .skein256 => .w64 skeinIv256
  | .skein384 => .w64 skeinIv384
  | .skein512 => .w64 skeinIv512
  | .tiger | .tiger2 => .w64 tigerIv

/-- ptr, the count of valid bytes in the block buffer (R42). -/
def Ctx.ptr (c : Ctx) : Nat := c.buf.length

/-- Byte i of the B-byte block buffer: a valid byte for i < ptr, else the free value of draw `d` (R42, U4; log entry 8). No rule
reads an unspecified byte, and no meaning calls this. -/
def Ctx.bufByte (d : Nat) (c : Ctx) (i : Nat) : Byte := if i < c.ptr then c.buf.getD i 0 else Config.bufTail d i

/-- Compress of R140 on a block: R196 for BMW, R232 for Skein, R276 for Tiger. -/
def Ctx.compress (c : Ctx) (blk : List Byte) : ChainVal :=
  match c.alg with
  | .bmw224 | .bmw256 => .w32 (bmwCompress bmwSmall c.cv.words32 blk)
  | .bmw384 | .bmw512 => .w64 (bmwCompress bmwBig c.cv.words64 blk)
  | .skein224 | .skein256 => .w64 (skeinCompress skeinSmall c.cv.words64 blk c.bcount.toNat)
  | .skein384 | .skein512 => .w64 (skeinCompress skeinBig c.cv.words64 blk c.bcount.toNat)
  | .tiger | .tiger2 => .w64 (tigerCompress c.passes.toNat c.cv.words64 blk)

/-- Final of R140, the natural output: R202 for BMW, R241 for Skein, R278 for Tiger. -/
def Ctx.final (lf : LenField) (c : Ctx) : List Byte :=
  let n := c.bcount.toNat
  match c.alg with
  | .bmw224 => bmwFinal bmwSmall lf 7 c.cv.words32 c.buf n
  | .bmw256 => bmwFinal bmwSmall lf 8 c.cv.words32 c.buf n
  | .bmw384 => bmwFinal bmwBig lf 6 c.cv.words64 c.buf n
  | .bmw512 => bmwFinal bmwBig lf 8 c.cv.words64 c.buf n
  | .skein224 | .skein256 => skeinFinal skeinSmall c.digestLen c.cv.words64 c.buf n
  | .skein384 | .skein512 => skeinFinal skeinBig c.digestLen c.cv.words64 c.buf n
  | .tiger => tigerFinal 0x01 c.passes.toNat c.tbe c.digestLen c.cv.words64 c.buf n
  | .tiger2 => tigerFinal 0x80 c.passes.toNat c.tbe c.digestLen c.cv.words64 c.buf n

/-- The full block of the buffer compressed, the counter advanced modulo 2^64, ptr back at 0 (R143). -/
def Ctx.flush (c : Ctx) : Ctx :=
  { c with cv := c.compress c.buf, bcount := c.bcount + 1, buf := [] }

/-- The deferred compression that a Skein context makes before it takes a byte (R143, R233). -/
def Ctx.flushDeferred (c : Ctx) : Ctx :=
  if algDefer c.alg = true ∧ c.ptr = c.blockLen then c.flush else c

/-- The compression that a BMW or Tiger context makes as soon as its buffer is full (R143). -/
def Ctx.flushFull (c : Ctx) : Ctx :=
  if algDefer c.alg = false ∧ c.ptr = c.blockLen then c.flush else c

/-- buf[ptr] <- b; ptr <- ptr + 1 (R143). -/
def Ctx.push (c : Ctx) (b : Byte) : Ctx := { c with buf := c.buf ++ [b] }

/-- Absorb(c, b) of R143. -/
def Ctx.absorb (c : Ctx) (b : Byte) : Ctx := (c.flushDeferred.push b).flushFull

/-- Absorb of a byte sequence, in order (R143, R149). -/
def Ctx.absorbAll (c : Ctx) (s : List Byte) : Ctx := s.foldl Ctx.absorb c

/-- The initial state of the digest itself, without HMAC: the first three lines of CtxReset (R146; R306 'plain reset'). -/
def Ctx.plainReset (c : Ctx) : Ctx := { c with cv := algIv c.alg, buf := [], bcount := 0 }

/-- CtxReset of R146; in HMAC mode it absorbs kipad (R304). -/
def Ctx.reset (c : Ctx) : Ctx := if c.hmac then c.plainReset.absorbAll c.kipad else c.plainReset

/-- NatLen of R142. -/
def Ctx.natLen (c : Ctx) : Nat := if c.hmac then c.hlen else c.digestLen

/-- PlainDigest(c, s) of R302: the natural output over s of a fresh context with c's configuration and hmac = 0. -/
def Ctx.plainDigest (lf : LenField) (c : Ctx) (s : List Byte) : List Byte :=
  (({ c with hmac := false }.plainReset).absorbAll s).final lf

/-- HmacFinal of R306. -/
def Ctx.hmacFinal (lf : LenField) (c : Ctx) : List Byte :=
  let inner := c.final lf
  (((c.plainReset.absorbAll c.kopad).absorbAll inner).final lf).take c.hlen

/-- Finalize of R144. -/
def Ctx.finalize (lf : LenField) (c : Ctx) : List Byte := if c.hmac then c.hmacFinal lf else c.final lf

/-- The key block K0 of R300: a key longer than B is replaced by its plain digest (R302), then zeros fill it to B bytes. -/
def Ctx.keyBlock (lf : LenField) (c : Ctx) (key : List Byte) : List Byte :=
  let k := if c.blockLen < key.length then c.plainDigest lf key else key
  k ++ zeros (c.blockLen - k.length)

/-- The requested HMAC output length brought into 1 to L (R301). -/
def Ctx.hmacOutLen (c : Ctx) (requested : Nat) : Nat :=
  if 0 < requested ∧ requested < c.digestLen then requested else c.digestLen

/-- The context that HMACINIT leaves (R300, R303, R309, R313). -/
def Ctx.hmacKeyed (lf : LenField) (c : Ctx) (key : List Byte) (requested : Nat) : Ctx :=
  let k0 := c.keyBlock lf key
  { c with kipad := k0.map (· ^^^ 0x36), kopad := k0.map (· ^^^ 0x5C), hlen := c.hmacOutLen requested, hmac := true }.reset

end Sys2Proof.Machine
end

