-- ==== Sys2Proof/Machine/Ops.lean ====
section
/-! DEFINITION. The named operations over the state: DMEM, context slots, CRC units, the free values of unspecified fields, raising
an error (R372), hardware reset (R400). -/

namespace Sys2Proof.Machine

/-- The byte listed at an address, if any. -/
def Memory.get : Memory → Nat → Option Byte
  | [], _ => none
  | (k, v) :: m, a => if k = a then some v else Memory.get m a

/-- The list with the byte at an address set, addresses kept in rising order. -/
def Memory.set : Memory → Nat → Byte → Memory
  | [], a, b => [(a, b)]
  | (k, v) :: m, a, b => if a < k then (a, b) :: (k, v) :: m else if a = k then (a, b) :: m else (k, v) :: Memory.set m a b

/-- A byte sequence set at ascending addresses (R71). -/
def Memory.setBytes : Memory → Nat → List Byte → Memory
  | m, _, [] => m
  | m, a, b :: s => Memory.setBytes (Memory.set m a b) (a + 1) s

/-- The canonical form: addresses strictly rising. Every listed byte is a written one, so no entry equals what an unlisted address
reads as. -/
abbrev Memory.wf (m : Memory) : Prop := m.Pairwise fun x y => x.1 < y.1

/-- A byte of DMEM. One that nothing has written since reset is a free value (R61, R72; log entry 4). -/
def State.readByte (s : State) (a : Nat) : Byte := (s.dmem.get a).getD (Config.dmemDraw s.dmemEpoch a)

/-- MemRead(addr, n) of R22. -/
def State.memRead (s : State) (a n : Nat) : List Byte := (List.range n).map fun i => s.readByte (a + i)

/-- MemWrite(addr, |bytes|, bytes) of R22. -/
def State.memWrite (s : State) (a : Nat) (bytes : List Byte) : State := { s with dmem := s.dmem.setBytes a bytes }

/-- NCTX (R10). -/
def State.nctx (s : State) : Nat := s.ctxs.length

/-- NCRC (R11). -/
def State.ncrc (s : State) : Nat := s.crcs.length

/-- ctx[k] (R22, R37). Every command checks k < NCTX before it reads ctx[k] (R102). -/
def State.ctx (s : State) (k : Nat) : Ctx := s.ctxs.getD k Ctx.atReset

/-- ctx[k] <- c (R22). -/
def State.setCtx (s : State) (k : Nat) (c : Ctx) : State := { s with ctxs := s.ctxs.set k c }

/-- crc[u] (R22, R49). Every command checks u < NCRC before it reads crc[u] (R102). -/
def State.crc (s : State) (u : Nat) : CrcUnit := s.crcs.getD u CrcUnit.atReset

/-- crc[u] <- c (R22). -/
def State.setCrc (s : State) (u : Nat) (c : CrcUnit) : State := { s with crcs := s.crcs.set u c }

/-- RESULT <- v (R22, R32). -/
def State.setResult (s : State) (v : Word64) : State := { s with result := v }

/-- One draw of free values taken (log entry 10). -/
def State.draw (s : State) : State := { s with draws := s.draws + 1 }

/-- `n` free bytes of draw `d`, components from `i` on (log entry 7). -/
def freeBytes (d i n : Nat) : List Byte := (List.range n).map fun j => Config.freeByte d (i + 3 * j)

/-- An UNBOUND context whose other fields are all unspecified: free values of draw `d` (R59, R161, U2, U7; log entry 7). -/
def Ctx.unspecified (d : Nat) : Ctx :=
  { st := .unbound, alg := Config.freeAlg d, blockLen := Config.freeNat d 0, digestLen := Config.freeNat d 1,
    tbe := Config.freeBit d 0, passes := Config.freeWord d 0, buf := freeBytes d 2 (Config.freeNat d 2),
    bcount := Config.freeWord d 1,
    cv := if Config.freeBit d 1 then .w32 ((List.range 16).map fun i => (Config.freeWord d (2 + i)).setWidth 32)
      else .w64 ((List.range (Config.freeNat d 4)).map fun i => Config.freeWord d (2 + i)),
    hmac := Config.freeBit d 2, kipad := freeBytes d 0 (Config.freeNat d 5), kopad := freeBytes d 1 (Config.freeNat d 6),
    hlen := Config.freeNat d 7 }

/-- The HMAC fields after INIT: hmac = 0, the keys and hlen unspecified, free values of draw `d` (R46, R145, U5; log entry 7). -/
def Ctx.withoutHmac (d : Nat) (c : Ctx) : Ctx :=
  { c with hmac := false, kipad := freeBytes d 0 c.blockLen, kopad := freeBytes d 1 c.blockLen, hlen := Config.freeNat d 7 }

/-- A CRC unit with cfgd = 0 whose other fields are all unspecified: free values of draw `d` (R60, U3; log entry 7). -/
def CrcUnit.unspecified (d : Nat) : CrcUnit :=
  { cfgd := false, width := Config.freeNat d 0, poly := Config.freeCrc d 0, init := Config.freeCrc d 1,
    xorout := Config.freeCrc d 2, refin := Config.freeBit d 0, refout := Config.freeBit d 1, reg := Config.freeCrc d 3,
    table := (List.range (Config.freeNat d 1)).map fun i => Config.freeCrc d (4 + i) }

/-- `raise E` (R22, R372): the command ends, STATUS takes the error, and nothing else changes. The engine's only exception; it
saves no state and transfers no control (R383), and there is no return from it (R384): the next command runs as usual. -/
def State.raise (e : ErrCode) (s : State) : State := s.withError e

/-- Hardware reset (R400): STATUS, A0 to A3 and RESULT 0, every context UNBOUND, every CRC unit unconfigured, and every other field
and DMEM unspecified, each taking free values of a draw of its own (R58 to R61; log entries 7 and 20). -/
def State.hwReset (s : State) : State :=
  { s with
    err := .ok, sticky := false, busy := false, a0 := 0, a1 := 0, a2 := 0, a3 := 0, result := 0,
    ctxs := (List.range s.nctx).map fun k => Ctx.unspecified (s.draws + 1 + k),
    crcs := (List.range s.ncrc).map fun u => CrcUnit.unspecified (s.draws + 1 + s.nctx + u),
    dmem := [], dmemEpoch := s.draws + 1, draws := s.draws + 1 + s.nctx + s.ncrc }

end Sys2Proof.Machine
end

