-- ==== Sys2Proof/Machine/Operands.lean ====
section
/-! DEFINITION. The operands of a command: its index and immediate fields with their checks (R102, R103, R105, R374), the state checks
(R162, R375, R377), the windows (R73, R106, R107), and their priority (R371). -/

namespace Sys2Proof.Machine

/-- InBounds(off, n) of R22, on unbounded integers. -/
def State.inBounds (s : State) (off n : Nat) : Bool :=
  decide (off ≤ s.platform.dmemSize) && decide (n ≤ s.platform.dmemSize - off)

/-- The field check of a context command: X < NCTX and Y = 0 (R102, R103). -/
def State.ctxField (s : State) (x y : BitVec 4) : Bool := decide (x.toNat < s.nctx) && y == 0

/-- The field check of a CRC command: X < NCRC and Y = 0 (R102, R103). -/
def State.crcField (s : State) (x y : BitVec 4) : Bool := decide (x.toNat < s.ncrc) && y == 0

/-- ALG, IMM[7:0] (R101). -/
def immAlg (imm : BitVec 16) : BitVec 8 := imm.extractLsb' 0 8

/-- TLEN, IMM[9:8] (R101, R112). -/
def immTlen (imm : BitVec 16) : BitVec 2 := imm.extractLsb' 8 2

/-- TBE, IMM[10] (R101, R112). -/
def immTbe (imm : BitVec 16) : Bool := imm.getLsbD 10

/-- BYTE, IMM[7:0] (R101). -/
def immByte (imm : BitVec 16) : Byte := imm.extractLsb' 0 8

/-- SERIAL, IMM[0] (R101). -/
def immSerial (imm : BitVec 16) : Bool := imm.getLsbD 0

/-- The algorithm an INIT immediate names, if the immediate passes the checks of R145: IMM[15:11] = 0, a known ALG, IMM[10:8] = 0
for a code that is not Tiger's, TLEN not 3 for a Tiger code. -/
def initAlg (imm : BitVec 16) : Option Alg :=
  if imm.extractLsb' 11 5 ≠ 0 then none
  else
    match algOfCode (immAlg imm) with
    | none => none
    | some a =>
      if algFamily a = .tiger then (if immTlen imm = 3 then none else some a)
      else if imm.extractLsb' 8 3 ≠ 0 then none
      else some a

/-- CheckCtx(k) of R162. -/
def State.ctxError (s : State) (k : Nat) : Option ErrCode :=
  match (s.ctx k).st with
  | .unbound => some .notImplemented
  | .undef => some .contextUndefined
  | .ready => none

/-- The state check of CRCINIT, CRCUPD and CRCFIN (R375). -/
def State.crcError (s : State) (u : Nat) : Option ErrCode :=
  if (s.crc u).cfgd then none else some .notImplemented

/-- The priority of R371: the field check, then the state check, then the command goes on with `body`, whose own first check is its
window. -/
def State.checked (s : State) (fields : Bool) (stateError : Option ErrCode) (body : State) : State :=
  if fields then
    match stateError with
    | some e => s.raise e
    | none => body
  else s.raise .invalidInput

/-- The window check of R73 and R376: BOUNDS, or the command goes on with `body`. -/
def State.windowed (s : State) (off n : Nat) (body : State) : State :=
  if s.inBounds off n then body else s.raise .bounds

end Sys2Proof.Machine
end

