-- ==== Sys2Proof/Machine/CrcCommands.lean ====
section
/-! DEFINITION. The CRC commands (spec/45_crc.md section 3): CRCCFG, CRCINIT, CRCUPD, CRCFIN. -/

namespace Sys2Proof.Machine

/-- CRCCFG (R337). A failing one leaves the unit as it was. -/
def execCrccfg (x y : BitVec 4) (imm : BitVec 16) (s : State) : Host.Outcome State Fault Refusal :=
  .next (s.checked (s.crcField x y && imm == 0) none
    (s.windowed s.a0.toNat crcRecordLen
      (let record := s.memRead s.a0.toNat crcRecordLen
       match crcRecordError record with
       | some e => s.raise e
       | none => (s.setCrc x.toNat (crcUnitOfRecord record)).finish)))

/-- CRCINIT (R338). -/
def execCrcinit (x y : BitVec 4) (imm : BitVec 16) (s : State) : Host.Outcome State Fault Refusal :=
  let u := x.toNat
  .next (s.checked (s.crcField x y && imm == 0) (s.crcError u)
    (s.setCrc u (s.crc u).restart).finish)

/-- CRCUPD (R339): SERIAL selects the bit-serial or the table-driven path. -/
def execCrcupd (x y : BitVec 4) (imm : BitVec 16) (s : State) : Host.Outcome State Fault Refusal :=
  let u := x.toNat
  .next (s.checked (s.crcField x y && imm.extractLsb' 1 15 == 0) (s.crcError u)
    (s.windowed s.a0.toNat s.a1.toNat
      (s.setCrc u ((s.crc u).feed (immSerial imm) (s.memRead s.a0.toNat s.a1.toNat))).finish))

/-- CRCFIN (R341): the value in ceil(width/8) big-endian bytes, its low 64 bits in RESULT, the register back at init. -/
def execCrcfin (x y : BitVec 4) (imm : BitVec 16) (s : State) : Host.Outcome State Fault Refusal :=
  let u := x.toNat
  let c := s.crc u
  .next (s.checked (s.crcField x y && imm == 0) (s.crcError u)
    (s.windowed s.a2.toNat c.outLen
      (((s.memWrite s.a2.toNat (beEncode c.value.toNat c.outLen)).setResult (c.value.setWidth 64)).setCrc u c.restart).finish))

end Sys2Proof.Machine
end

