-- ==== Sys2Proof/Machine/EngineCommands.lean ====
section
/-! DEFINITION. The streaming digest engine's commands (spec/40_engine.md section 3): NOP, INIT, RESET, UPDATE1, UPDATE, DIGEST,
DIGESTN, COPY, GETBLK, GETDLEN, FREE. -/

namespace Sys2Proof.Machine

/-- NOP (R160). -/
def execNop (x y : BitVec 4) (imm : BitVec 16) (s : State) : Host.Outcome State Fault Refusal :=
  .next (if x == 0 && y == 0 && imm == 0 then s.finish else s.raise .invalidInput)

/-- The context that INIT leaves (R145): READY with the algorithm, its lengths and the Tiger options, hmac = 0, freshly reset; the
HMAC keys and hlen unspecified, free values of draw `d`. -/
def initCtx (d : Nat) (a : Alg) (imm : BitVec 16) (a0 : Word64) : Ctx :=
  let isTiger := algFamily a == .tiger
  Ctx.reset (Ctx.withoutHmac d
    { st := .ready, alg := a, blockLen := algBlockLen a, digestLen := algDigestLen a (immTlen imm),
      tbe := isTiger && immTbe imm, passes := if isTiger then a0 else 0, buf := [], bcount := 0, cv := algIv a,
      hmac := false, kipad := [], kopad := [], hlen := 0 })

/-- INIT (R145). -/
def execInit (x y : BitVec 4) (imm : BitVec 16) (s : State) : Host.Outcome State Fault Refusal :=
  .next (
    match initAlg imm with
    | some a =>
      if s.ctxField x y then (s.draw.setCtx x.toNat (initCtx s.draws a imm s.a0)).finish else s.raise .invalidInput
    | none => s.raise .invalidInput)

/-- RESET (R147). -/
def execReset (x y : BitVec 4) (imm : BitVec 16) (s : State) : Host.Outcome State Fault Refusal :=
  let k := x.toNat
  .next (s.checked (s.ctxField x y && imm == 0) (s.ctxError k)
    (s.setCtx k (s.ctx k).reset).finish)

/-- UPDATE1 (R148). -/
def execUpdate1 (x y : BitVec 4) (imm : BitVec 16) (s : State) : Host.Outcome State Fault Refusal :=
  let k := x.toNat
  .next (s.checked (s.ctxField x y && imm.extractLsb' 8 8 == 0) (s.ctxError k)
    (s.setCtx k ((s.ctx k).absorb (immByte imm))).finish)

/-- UPDATE (R149). -/
def execUpdate (x y : BitVec 4) (imm : BitVec 16) (s : State) : Host.Outcome State Fault Refusal :=
  let k := x.toNat
  .next (s.checked (s.ctxField x y && imm == 0) (s.ctxError k)
    (s.windowed s.a0.toNat s.a1.toNat
      (s.setCtx k ((s.ctx k).absorbAll (s.memRead s.a0.toNat s.a1.toNat))).finish))

/-- The effect DIGEST and DIGESTN share once their fields and their context are checked (R150 to R152): with `n` bytes to write, a
destination out of bounds makes the context UNDEF and raises BOUNDS (R151); else the output is finalized, the context reset, the
first n bytes of the output written and RESULT set to n. -/
def State.digestInto (s : State) (k n : Nat) : State :=
  let c := s.ctx k
  if s.inBounds s.a2.toNat n then
    (((s.setCtx k c.reset).memWrite s.a2.toNat ((c.finalize s.platform.lenField).take n)).setResult (BitVec.ofNat 64 n)).finish
  else (s.setCtx k { c with st := .undef }).raise .bounds

/-- DIGEST (R150, R151). -/
def execDigest (x y : BitVec 4) (imm : BitVec 16) (s : State) : Host.Outcome State Fault Refusal :=
  let k := x.toNat
  .next (s.checked (s.ctxField x y && imm == 0) (s.ctxError k)
    (s.digestInto k (s.ctx k).natLen))

/-- DIGESTN (R151, R152). -/
def execDigestn (x y : BitVec 4) (imm : BitVec 16) (s : State) : Host.Outcome State Fault Refusal :=
  let k := x.toNat
  .next (s.checked (s.ctxField x y && imm == 0) (s.ctxError k)
    (s.digestInto k (min s.a3.toNat (s.ctx k).natLen)))

/-- COPY (R156): X is the source and Y the destination; only the source is checked. -/
def execCopy (x y : BitVec 4) (imm : BitVec 16) (s : State) : Host.Outcome State Fault Refusal :=
  .next (s.checked (decide (x.toNat < s.nctx) && decide (y.toNat < s.nctx) && imm == 0) (s.ctxError x.toNat)
    (s.setCtx y.toNat (s.ctx x.toNat)).finish)

/-- GETBLK (R157). -/
def execGetblk (x y : BitVec 4) (imm : BitVec 16) (s : State) : Host.Outcome State Fault Refusal :=
  let k := x.toNat
  .next (s.checked (s.ctxField x y && imm == 0) (s.ctxError k)
    (s.setResult (BitVec.ofNat 64 (s.ctx k).blockLen)).finish)

/-- GETDLEN (R158). -/
def execGetdlen (x y : BitVec 4) (imm : BitVec 16) (s : State) : Host.Outcome State Fault Refusal :=
  let k := x.toNat
  .next (s.checked (s.ctxField x y && imm == 0) (s.ctxError k)
    (s.setResult (BitVec.ofNat 64 (s.ctx k).natLen)).finish)

/-- FREE (R161): the slot becomes UNBOUND, every other field of it unspecified. It checks no context state. -/
def execFree (x y : BitVec 4) (imm : BitVec 16) (s : State) : Host.Outcome State Fault Refusal :=
  .next (if s.ctxField x y && imm == 0 then (s.draw.setCtx x.toNat (Ctx.unspecified s.draws)).finish else s.raise .invalidInput)

end Sys2Proof.Machine
end

