-- ==== Sys2Proof/Machine/HmacCommands.lean ====
section
/-! DEFINITION. HMACINIT (spec/44_hmac.md). -/

namespace Sys2Proof.Machine

/-- HMACINIT (R300). -/
def execHmacinit (x y : BitVec 4) (imm : BitVec 16) (s : State) : Host.Outcome State Fault Refusal :=
  let k := x.toNat
  .next (s.checked (s.ctxField x y && imm == 0) (s.ctxError k)
    (s.windowed s.a0.toNat s.a1.toNat
      (s.setCtx k ((s.ctx k).hmacKeyed s.platform.lenField (s.memRead s.a0.toNat s.a1.toNat) s.a3.toNat)).finish))

end Sys2Proof.Machine
end

