-- ==== Sys2Proof/Machine/Dispatch.lean ====
section
/-! DEFINITION. exec: one arm per command of R108. -/

namespace Sys2Proof.Machine

def exec (i : Instr) (s : State) : Host.Outcome State Fault Refusal :=
  match i with
  | .nop x y imm => Sys2Proof.Machine.execNop x y imm s
  | .init x y imm => Sys2Proof.Machine.execInit x y imm s
  | .reset x y imm => Sys2Proof.Machine.execReset x y imm s
  | .update1 x y imm => Sys2Proof.Machine.execUpdate1 x y imm s
  | .update x y imm => Sys2Proof.Machine.execUpdate x y imm s
  | .digest x y imm => Sys2Proof.Machine.execDigest x y imm s
  | .digestn x y imm => Sys2Proof.Machine.execDigestn x y imm s
  | .copy x y imm => Sys2Proof.Machine.execCopy x y imm s
  | .getblk x y imm => Sys2Proof.Machine.execGetblk x y imm s
  | .getdlen x y imm => Sys2Proof.Machine.execGetdlen x y imm s
  | .free x y imm => Sys2Proof.Machine.execFree x y imm s
  | .hmacinit x y imm => Sys2Proof.Machine.execHmacinit x y imm s
  | .crccfg x y imm => Sys2Proof.Machine.execCrccfg x y imm s
  | .crcinit x y imm => Sys2Proof.Machine.execCrcinit x y imm s
  | .crcupd x y imm => Sys2Proof.Machine.execCrcupd x y imm s
  | .crcfin x y imm => Sys2Proof.Machine.execCrcfin x y imm s

end Sys2Proof.Machine
end

