-- ==== Sys2Proof/Machine/HostBus.lean ====
section
/-! DEFINITION. The host's bus accesses but for a command's issue: the register block (R30 to R34, R75), DMEM (R76, R77), and the
refusals of R75, R76 and R405. -/

namespace Sys2Proof.Machine

/-- The part of a 64-bit register that an access reaches (R75). -/
inductive WordPart where
  | whole
  | low
  | high
deriving DecidableEq, Repr

/-- The operand registers (R31). -/
inductive OperandReg where
  | a0
  | a1
  | a2
  | a3
deriving DecidableEq, Repr

/-- What a legal access to the register block reaches (R30, R75). -/
inductive RegTarget where
  | cmd
  | status
  | operand (r : OperandReg) (part : WordPart)
  | result (part : WordPart)
  | reserved
deriving DecidableEq, Repr

/-- The part that an access of `size` bytes at `rel` bytes from a 64-bit register's offset reaches (R75). -/
def wordPart (rel size : Nat) : Option WordPart :=
  if rel = 0 ∧ size = 8 then some .whole
  else if rel = 0 ∧ size = 4 then some .low
  else if rel = 4 ∧ size = 4 then some .high
  else none

/-- What an access of `size` bytes at an offset of the register block reaches, if it has a meaning (R30, R75). A reserved offset
takes aligned accesses of 4 and 8 bytes (log entry 11). -/
def regTarget (off size : Nat) : Option RegTarget :=
  if off < 0x04 then (if off = 0x00 ∧ size = 4 then some .cmd else none)
  else if off < 0x08 then (if off = 0x04 ∧ size = 4 then some .status else none)
  else if off < 0x10 then (wordPart (off - 0x08) size).map (.operand .a0)
  else if off < 0x18 then (wordPart (off - 0x10) size).map (.operand .a1)
  else if off < 0x20 then (wordPart (off - 0x18) size).map (.operand .a2)
  else if off < 0x28 then (wordPart (off - 0x20) size).map (.operand .a3)
  else if off < 0x30 then (wordPart (off - 0x28) size).map .result
  else if (size = 4 ∨ size = 8) ∧ off % size = 0 ∧ off + size ≤ 0x100 then some .reserved
  else none

/-- Whether an access must not be made while BUSY = 1: CMD, A0 to A3 and RESULT (R405, U17), not STATUS (log entry 12). -/
def RegTarget.guarded : RegTarget → Bool
  | .cmd | .operand .. | .result .. => true
  | .status | .reserved => false

/-- An operand register (R31). -/
def State.operand (s : State) : OperandReg → Word64
  | .a0 => s.a0
  | .a1 => s.a1
  | .a2 => s.a2
  | .a3 => s.a3

/-- An operand register written by the host (R31). -/
def State.setOperand (s : State) (r : OperandReg) (v : Word64) : State :=
  match r with
  | .a0 => { s with a0 := v }
  | .a1 => { s with a1 := v }
  | .a2 => { s with a2 := v }
  | .a3 => { s with a3 := v }

/-- What a read of a part of a 64-bit register returns (R75, R77). -/
def readPart (p : WordPart) (v : Word64) : Word64 :=
  match p with
  | .whole => v
  | .low => v &&& 0xFFFFFFFF
  | .high => v >>> 32

/-- A 64-bit register after a write of a part: a write of one half leaves the other half (R75). -/
def writePart (p : WordPart) (old v : Word64) : Word64 :=
  match p with
  | .whole => v
  | .low => old.extractLsb' 32 32 ++ v.extractLsb' 0 32
  | .high => v.extractLsb' 0 32 ++ old.extractLsb' 0 32

/-- What a host read of the register block returns (R32 to R34, R75): CMD and reserved offsets read 0. -/
def State.regValue (s : State) : RegTarget → Word64
  | .cmd => 0
  | .status => s.statusWord.setWidth 64
  | .operand r p => readPart p (s.operand r)
  | .result p => readPart p s.result
  | .reserved => 0

/-- A host write to the register block that issues no command: only A0 to A3 take it; STATUS, RESULT and reserved offsets ignore it
(R32, R34, R75). -/
def State.regStore (s : State) (v : Word64) : RegTarget → State
  | .operand r p => s.setOperand r (writePart p (s.operand r) v)
  | .cmd | .status | .result _ | .reserved => s

/-- Whether a bus address lies in the register block (R30, R81). -/
def State.inRegBlock (s : State) (addr : Nat) : Bool :=
  decide (s.platform.regBase ≤ addr) && decide (addr < s.platform.regBase + 256)

/-- Whether a bus address lies in DMEM (R76). -/
def State.inDmem (s : State) (addr : Nat) : Bool :=
  decide (s.platform.dmemBase ≤ addr) && decide (addr < s.platform.dmemBase + s.platform.dmemSize)

/-- Whether an access that starts in DMEM has a meaning (R76): 1, 2, 4 or 8 bytes, aligned to their size (log entry 14), within
DMEM. -/
def State.dmemAccessOk (s : State) (addr size : Nat) : Bool :=
  [1, 2, 4, 8].contains size && addr % size == 0 && decide (addr + size ≤ s.platform.dmemBase + s.platform.dmemSize)

/-- An access to DMEM: refused by R76 or R405, else `body` at the DMEM address. -/
def State.dmemAccess (s : State) (addr size : Nat) (body : Nat → State) : Host.Outcome State Fault Refusal :=
  if s.dmemAccessOk addr size then
    if s.busy then .refused (.accessWhileBusy addr) else .next (body (addr - s.platform.dmemBase))
  else .refused (.badDmemAccess addr size)

/-- A host read of the register block. -/
def State.regRead (s : State) (off size : Nat) : Host.Outcome State Fault Refusal :=
  match regTarget off size with
  | none => .refused (.badRegisterAccess off size)
  | some t =>
    if s.busy && t.guarded then .refused (.accessWhileBusy (s.platform.regBase + off))
    else .next { s with busData := s.regValue t }

/-- A host read (R75 to R77): its value goes to busData. -/
def State.hostRead (s : State) (addr size : Nat) : Host.Outcome State Fault Refusal :=
  if s.inRegBlock addr then s.regRead (addr - s.platform.regBase) size
  else if s.inDmem addr then
    s.dmemAccess addr size fun a => { s with busData := BitVec.ofNat 64 (leDecode (s.memRead a size)) }
  else .fault (.unmappedBusAddress addr)

end Sys2Proof.Machine
end

