-- ==== Sys2Proof/Machine/Issue.lean ====
section
/-! DEFINITION. The issue of a command by a write to CMD (R104, R109), and what each host action does. -/

namespace Sys2Proof.Machine

/-- A word c written to CMD issues the command c (R104): BUSY = 1, then the command runs to completion as one atomic step. A word
whose OP is not in the opcode map raises ILLEGAL_COMMAND and has no other effect (R109, R373). -/
def State.issue (s : State) (c : BitVec 32) : Host.Outcome State Fault Refusal :=
  match decode c with
  | .ok i => exec i s.startCommand
  | .error _ => .next (s.startCommand.raise .illegalCommand)

/-- A host write to the register block (R32 to R34, R75). -/
def State.regWrite (s : State) (off size : Nat) (v : Word64) : Host.Outcome State Fault Refusal :=
  match regTarget off size with
  | none => .refused (.badRegisterAccess off size)
  | some t =>
    if s.busy && t.guarded then .refused (.accessWhileBusy (s.platform.regBase + off))
    else if t = .cmd then s.issue (v.setWidth 32)
    else .next (s.regStore v t)

/-- A host write (R75 to R77): DMEM takes the low `size` bytes, the least significant at the lowest address. -/
def State.hostWrite (s : State) (addr size : Nat) (v : Word64) : Host.Outcome State Fault Refusal :=
  if s.inRegBlock addr then s.regWrite (addr - s.platform.regBase) size v
  else if s.inDmem addr then s.dmemAccess addr size fun a => s.memWrite a (leEncode v.toNat size)
  else .fault (.unmappedBusAddress addr)

/-- One host action (R17, R75, R76, R400). -/
def State.perform (s : State) : HostAction → Host.Outcome State Fault Refusal
  | .write addr size v => s.hostWrite addr size v
  | .read addr size => s.hostRead addr size
  | .hwReset => .next s.hwReset

/-- The action that writes a command word to CMD (R30, R33, R114). -/
def State.cmdWrite (s : State) (c : BitVec 32) : HostAction := .write s.platform.regBase 4 (c.setWidth 64)

end Sys2Proof.Machine
end

