-- ==== Sys2Proof/Machine/Step.lean ====
section
/-! DEFINITION. One step: the next host action of the host program (R17, R23, R83). -/

namespace Sys2Proof.Machine

/-- The machine takes the next action of the host program. With none left it is idle and keeps all state (R391, R401;
log entry 15). -/
def step (s : State) : Host.Outcome State Fault Refusal :=
  match s.program with
  | [] => .next s
  | a :: rest => State.perform { s with program := rest } a

/-- The state whose next host action writes the `nbits` bits `w`, zeros above them, to CMD, with BUSY = 0 as a write to CMD needs
(R405): the very next step issues that word (log entry 1). -/
def State.withFetchWord (s : State) (nbits w : Nat) : State :=
  { s with busy := false, program := s.cmdWrite (BitVec.ofNat 32 (w % 2 ^ nbits)) :: s.program }

end Sys2Proof.Machine
end

