-- ==== Sys2Proof/Machine/HostProgram.lean ====
section
/-! DEFINITION. The host actions and pseudo-instructions of the assembler (R114, R115) as the bus accesses they stand for on a
platform. -/

namespace Sys2Proof.Machine

/-- The register-block offset of an operand register (R30). -/
def operandOffset : OperandReg → Nat
  | .a0 => 0x08
  | .a1 => 0x10
  | .a2 => 0x18
  | .a3 => 0x20

/-- `SET An, v` (R114): a 64-bit write of v to An. -/
def hostSet (p : Platform) (r : OperandReg) (v : Word64) : List HostAction := [.write (p.regBase + operandOffset r) 8 v]

/-- `STORE a, bytes` (R114): the bytes written to DMEM from address a upward, one by one. -/
def hostStore (p : Platform) (a : Nat) (bytes : List Byte) : List HostAction :=
  (List.range bytes.length).map fun i => .write (p.dmemBase + a + i) 1 ((bytes.getD i 0).setWidth 64)

/-- `LOAD a, n` (R114): DMEM[a..a+n) read byte by byte. -/
def hostLoad (p : Platform) (a n : Nat) : List HostAction := (List.range n).map fun i => .read (p.dmemBase + a + i) 1

/-- `READ STATUS` (R114). -/
def hostReadStatus (p : Platform) : List HostAction := [.read (p.regBase + 0x04) 4]

/-- `READ RESULT` (R114). -/
def hostReadResult (p : Platform) : List HostAction := [.read (p.regBase + 0x28) 8]

/-- A command line (R114): the word written to CMD, then STATUS read until BUSY = 0, which one read finds (R405). -/
def hostCommand (p : Platform) (i : Instr) : List HostAction :=
  .write p.regBase 4 ((encode i).setWidth 64) :: hostReadStatus p

/-- The INIT immediate of a Tiger algorithm (R101, R112). -/
def tigerImm (tiger2 : Bool) (tlen : BitVec 2) (be : Bool) : BitVec 16 :=
  (0 : BitVec 5) ++ BitVec.ofBool be ++ tlen ++ (if tiger2 then (0x22 : BitVec 8) else 0x21)

/-- `INITP cX, TIGER|TIGER2, passes[, len=N][, be]` (R115). -/
def hostInitp (p : Platform) (x : BitVec 4) (imm : BitVec 16) (passes : Word64) : List HostAction :=
  hostSet p .a0 passes ++ hostCommand p (.init x 0 imm)

/-- `UPDATEW cX, off, n` (R115). -/
def hostUpdatew (p : Platform) (x : BitVec 4) (off n : Word64) : List HostAction :=
  hostSet p .a0 off ++ hostSet p .a1 n ++ hostCommand p (.update x 0 0)

/-- `DIGESTTO cX, dst` (R115). -/
def hostDigestto (p : Platform) (x : BitVec 4) (dst : Word64) : List HostAction :=
  hostSet p .a2 dst ++ hostCommand p (.digest x 0 0)

/-- `DIGESTNTO cX, dst, n` (R115). -/
def hostDigestnto (p : Platform) (x : BitVec 4) (dst n : Word64) : List HostAction :=
  hostSet p .a2 dst ++ hostSet p .a3 n ++ hostCommand p (.digestn x 0 0)

/-- `HMACKEY cX, koff, klen, outlen` (R115). -/
def hostHmackey (p : Platform) (x : BitVec 4) (koff klen outlen : Word64) : List HostAction :=
  hostSet p .a0 koff ++ hostSet p .a1 klen ++ hostSet p .a3 outlen ++ hostCommand p (.hmacinit x 0 0)

/-- `CRCCFGAT uX, off` (R115). -/
def hostCrccfgat (p : Platform) (x : BitVec 4) (off : Word64) : List HostAction :=
  hostSet p .a0 off ++ hostCommand p (.crccfg x 0 0)

/-- `CRCUPDW uX, off, n[, serial]` (R115). -/
def hostCrcupdw (p : Platform) (x : BitVec 4) (off n : Word64) (serial : Bool) : List HostAction :=
  hostSet p .a0 off ++ hostSet p .a1 n ++ hostCommand p (.crcupd x 0 (if serial then 1 else 0))

/-- `CRCFINTO uX, dst` (R115). -/
def hostCrcfinto (p : Platform) (x : BitVec 4) (dst : Word64) : List HostAction :=
  hostSet p .a2 dst ++ hostCommand p (.crcfin x 0 0)

/-- The machine with a host program placed before what it still had to do (R114; log entry 1). -/
def State.withProgram (s : State) (p : List HostAction) : State := { s with program := p ++ s.program }

end Sys2Proof.Machine
end

