-- ==== Sys2Proof/Safety.lean ====
section
/-! DEFINITION. What counts as a well-formed state and a legal host action, and the terms in which the statements speak of a command's
outcome and of what it leaves unchanged. -/

namespace Sys2Proof.Machine

/-- The shape of a chaining value that an algorithm needs (R44, R111). -/
def ChainVal.fits (a : Alg) : ChainVal → Bool
  | .w32 h => algSmallWords a && h.length == algWords a
  | .w64 h => !algSmallWords a && h.length == algWords a

/-- The bounds of ptr (R42, R164): below B for BMW and Tiger; at most B for Skein, and 0 only before the first byte. -/
def Ctx.bufferOk (c : Ctx) : Prop :=
  if algDefer c.alg then c.ptr ≤ c.blockLen ∧ (c.ptr = 0 → c.bcount = 0) else c.ptr < c.blockLen

/-- What a READY context satisfies between commands (R40, R41, R42, R44, R47, R48, R164). -/
structure Ctx.wf (c : Ctx) : Prop where
  blockLen_eq : c.blockLen = algBlockLen c.alg
  digestLen_eq : ∃ tlen : BitVec 2, tlen ≠ 3 ∧ c.digestLen = algDigestLen c.alg tlen
  plain_options : algFamily c.alg ≠ .tiger → c.tbe = false ∧ c.passes = 0
  cv_fits : c.cv.fits c.alg = true
  buffer_ok : c.bufferOk
  hmac_ok : c.hmac = true → 1 ≤ c.hlen ∧ c.hlen ≤ c.digestLen ∧ c.kipad.length = c.blockLen ∧ c.kopad.length = c.blockLen

/-- What a configured CRC unit satisfies (R51, R52, R53, R335). -/
structure CrcUnit.wf (u : CrcUnit) : Prop where
  width_ge : 3 ≤ u.width
  width_le : u.width ≤ 82
  poly_lt : u.poly.toNat < 2 ^ u.width
  init_lt : u.init.toNat < 2 ^ u.width
  xorout_lt : u.xorout.toNat < 2 ^ u.width
  reg_lt : u.reg.toNat < 2 ^ u.width
  table_eq : u.table = crcTable u.width u.poly u.refin

/-- The parameters are in their ranges: NCTX (R10), NCRC (R11), DMEM_SIZE (R12), REG_BASE (R81) and the two bus windows. -/
abbrev State.paramsOk (s : State) : Prop := slotCountOk s.nctx ∧ slotCountOk s.ncrc ∧ s.platform.wf

/-- The invariant of the machine between host actions. -/
structure State.Inv (s : State) : Prop where
  /-- The parameters are in their ranges (R10, R11, R12, R81). -/
  params_ok : s.paramsOk
  /-- DMEM keeps its canonical form. -/
  dmem_wf : s.dmem.wf
  /-- DMEM has no byte outside its address space (R70). -/
  dmem_inside : ∀ cell ∈ s.dmem, cell.1 < s.platform.dmemSize
  /-- No command is under way (R406). -/
  idle : s.busy = false
  /-- An error code is never without STICKY (R34). -/
  sticky_of_error : s.err ≠ .ok → s.sticky = true
  /-- Every READY context is well formed (R164). -/
  ctxs_wf : ∀ c ∈ s.ctxs, c.st = .ready → c.wf
  /-- Every configured CRC unit is well formed (R378). -/
  crcs_wf : ∀ u ∈ s.crcs, u.cfgd = true → u.wf

/-- Whether a bus access has a meaning (R75, R76). -/
def State.accessLegal (s : State) (addr size : Nat) : Bool :=
  if s.inRegBlock addr then (regTarget (addr - s.platform.regBase) size).isSome
  else s.inDmem addr && s.dmemAccessOk addr size

/-- Whether a host action has a meaning (R75, R76, R400). -/
def State.legal (s : State) : HostAction → Bool
  | .write addr size _ => s.accessLegal addr size
  | .read addr size => s.accessLegal addr size
  | .hwReset => true

/-- STATUS after a command without error (R34, R104): ERR = 0, STICKY as before, BUSY = 0. -/
def State.completedOk (s t : State) : Prop := t.err = .ok ∧ t.sticky = s.sticky ∧ t.busy = false

/-- STATUS after a command that raised `e` (R372). -/
def State.completedWith (e : ErrCode) (t : State) : Prop := t.err = e ∧ t.sticky = true ∧ t.busy = false

/-- A0 to A3 unchanged (R31). -/
def State.sameOperands (s t : State) : Prop := t.a0 = s.a0 ∧ t.a1 = s.a1 ∧ t.a2 = s.a2 ∧ t.a3 = s.a3

/-- The parameters, the host's program and the last value it read unchanged. -/
def State.sameHostSide (s t : State) : Prop := t.platform = s.platform ∧ t.program = s.program ∧ t.busData = s.busData

/-- Every byte of DMEM unchanged. -/
def State.sameDmem (s t : State) : Prop := ∀ a, t.readByte a = s.readByte a

/-- Every byte of DMEM unchanged but those of the window (off, n). -/
def State.sameDmemOutside (off n : Nat) (s t : State) : Prop :=
  ∀ a, a < off ∨ off + n ≤ a → t.readByte a = s.readByte a

/-- Every context slot unchanged. -/
def State.sameCtxs (s t : State) : Prop := t.nctx = s.nctx ∧ ∀ j, t.ctx j = s.ctx j

/-- Every context slot unchanged but slot k. -/
def State.sameCtxsBut (k : Nat) (s t : State) : Prop := t.nctx = s.nctx ∧ ∀ j, j ≠ k → t.ctx j = s.ctx j

/-- Every CRC unit unchanged. -/
def State.sameCrcs (s t : State) : Prop := t.ncrc = s.ncrc ∧ ∀ j, t.crc j = s.crc j

/-- Every CRC unit unchanged but unit u. -/
def State.sameCrcsBut (u : Nat) (s t : State) : Prop := t.ncrc = s.ncrc ∧ ∀ j, j ≠ u → t.crc j = s.crc j

/-- The configuration of a context, which CtxReset keeps (R146): its lifecycle state, algorithm, lengths, Tiger options and HMAC
fields. -/
def Ctx.sameConfig (c d : Ctx) : Prop :=
  d.st = c.st ∧ d.alg = c.alg ∧ d.blockLen = c.blockLen ∧ d.digestLen = c.digestLen ∧ d.tbe = c.tbe ∧ d.passes = c.passes ∧
    d.hmac = c.hmac ∧ d.kipad = c.kipad ∧ d.kopad = c.kopad ∧ d.hlen = c.hlen

/-- A digest state freshly at its initial value (R145, R146): cv the algorithm's IV, ptr = 0, bcount = 0. -/
def Ctx.fresh (c : Ctx) : Prop := c.cv = algIv c.alg ∧ c.ptr = 0 ∧ c.bcount = 0

/-- The number of bytes absorbed since the last reset that buffer and counter show, modulo 2^64 (R164). -/
def Ctx.absorbed (c : Ctx) : Nat := (c.bcount.toNat * c.blockLen + c.ptr) % 2 ^ 64

/-- One piece of a message: a DMEM window for UPDATE, or a byte for UPDATE1 (R159). -/
inductive Chunk where
  | window (off len : Word64)
  | byte (b : Byte)
deriving DecidableEq, Repr

/-- The bytes of a piece, read from DMEM for a window. -/
def State.chunkBytes (s : State) : Chunk → List Byte
  | .window off len => s.memRead off.toNat len.toNat
  | .byte b => [b]

/-- Whether a piece can be read: a window must be in bounds (R73). -/
def State.chunkOk (s : State) : Chunk → Bool
  | .window off len => s.inBounds off.toNat len.toNat
  | .byte _ => true

/-- The outcome of one piece absorbed into context x by its own command, the operand registers set for it as the host does
(R148, R149). -/
def State.absorbChunk (s : State) (x : BitVec 4) : Chunk → Host.Outcome State Fault Refusal
  | .window off len => exec (.update x 0 0) { s with a0 := off, a1 := len }
  | .byte b => exec (.update1 x 0 ((0 : BitVec 8) ++ b)) s

/-- The outcome of a message absorbed piece by piece (R159). -/
def State.absorbChunks (x : BitVec 4) : List Chunk → State → Host.Outcome State Fault Refusal
  | [], s => .next s
  | c :: cs, s =>
    match s.absorbChunk x c with
    | .next t => State.absorbChunks x cs t
    | .fault f => .fault f
    | .refused r => .refused r

/-- The error codes each command can complete with, 0 included (R381). -/
def allowedErrors : Instr → List ErrCode
  | .nop .. | .init .. | .free .. => [.ok, .invalidInput]
  | .reset .. | .update1 .. | .getblk .. | .getdlen .. | .copy .. => [.ok, .invalidInput, .notImplemented, .contextUndefined]
  | .update .. | .digest .. | .digestn .. | .hmacinit .. => [.ok, .invalidInput, .notImplemented, .contextUndefined, .bounds]
  | .crccfg .. => [.ok, .invalidInput, .bounds, .crcWidth]
  | .crcinit .. => [.ok, .invalidInput, .notImplemented]
  | .crcupd .. | .crcfin .. => [.ok, .invalidInput, .notImplemented, .bounds]

/-- The context slot a command may write (R88, R102, R103). -/
def ctxTarget : Instr → Option Nat
  | .init x _ _ | .reset x _ _ | .update1 x _ _ | .update x _ _ | .digest x _ _ | .digestn x _ _ | .free x _ _
  | .hmacinit x _ _ => some x.toNat
  | .copy _ y _ => some y.toNat
  | .nop .. | .getblk .. | .getdlen .. | .crccfg .. | .crcinit .. | .crcupd .. | .crcfin .. => none

/-- The CRC unit a command may write (R102, R342). -/
def crcTarget : Instr → Option Nat
  | .crccfg x _ _ | .crcinit x _ _ | .crcupd x _ _ | .crcfin x _ _ => some x.toNat
  | .nop .. | .init .. | .reset .. | .update1 .. | .update .. | .digest .. | .digestn .. | .copy .. | .getblk .. | .getdlen ..
  | .free .. | .hmacinit .. => none

/-- The DMEM window of a command (R376), if it has one. -/
def dmemWindow (s : State) : Instr → Option (Nat × Nat)
  | .update .. | .hmacinit .. | .crcupd .. => some (s.a0.toNat, s.a1.toNat)
  | .digest x _ _ => some (s.a2.toNat, (s.ctx x.toNat).natLen)
  | .digestn x _ _ => some (s.a2.toNat, min s.a3.toNat (s.ctx x.toNat).natLen)
  | .crccfg .. => some (s.a0.toNat, crcRecordLen)
  | .crcfin x _ _ => some (s.a2.toNat, (s.crc x.toNat).outLen)
  | .nop .. | .init .. | .reset .. | .update1 .. | .copy .. | .getblk .. | .getdlen .. | .free .. | .crcinit .. => none

/-- The state check of a command (R371 point 3): the error of the context or CRC unit it names. -/
def stateCheck (s : State) : Instr → Option ErrCode
  | .reset x _ _ | .update1 x _ _ | .update x _ _ | .digest x _ _ | .digestn x _ _ | .copy x _ _ | .getblk x _ _
  | .getdlen x _ _ | .hmacinit x _ _ => s.ctxError x.toNat
  | .crcinit x _ _ | .crcupd x _ _ | .crcfin x _ _ => s.crcError x.toNat
  | .nop .. | .init .. | .free .. | .crccfg .. => none

/-- Whether a command writes RESULT when it completes without error (R32, R107). -/
def writesResult : Instr → Bool
  | .digest .. | .digestn .. | .getblk .. | .getdlen .. | .crcfin .. => true
  | .nop .. | .init .. | .reset .. | .update1 .. | .update .. | .copy .. | .free .. | .hmacinit .. | .crccfg .. | .crcinit ..
  | .crcupd .. => false

/-- Whether a command writes its DMEM window when it completes without error (R71, R107). -/
def writesDmem : Instr → Bool
  | .digest .. | .digestn .. | .crcfin .. => true
  | .nop .. | .init .. | .reset .. | .update1 .. | .update .. | .copy .. | .getblk .. | .getdlen .. | .free .. | .hmacinit ..
  | .crccfg .. | .crcinit .. | .crcupd .. => false

/-- Whether a command is DIGEST or DIGESTN, the only ones whose BOUNDS error changes a context (R151). -/
def isDigest : Instr → Bool
  | .digest .. | .digestn .. => true
  | .nop .. | .init .. | .reset .. | .update1 .. | .update .. | .copy .. | .getblk .. | .getdlen .. | .free .. | .hmacinit ..
  | .crccfg .. | .crcinit .. | .crcupd .. | .crcfin .. => false

/-- Command i completes in s without error and leaves t; the operand registers and the host side are as before (R31, R104). -/
def State.runsOk (s : State) (i : Instr) (t : State) : Prop :=
  exec i s = .next t ∧ s.completedOk t ∧ s.sameOperands t ∧ s.sameHostSide t

/-- The opcodes of the context commands (R102, R108). -/
def contextOps : List (BitVec 8) := [0x01, 0x02, 0x03, 0x04, 0x05, 0x06, 0x07, 0x08, 0x09, 0x0A, 0x10]

/-- The opcodes of the CRC commands (R102, R108). -/
def crcOps : List (BitVec 8) := [0x20, 0x21, 0x22, 0x23]

/-- The opcodes of the context commands that check their context's state: all but INIT and FREE (R162, R375, R377). -/
def checkingOps : List (BitVec 8) := [0x02, 0x03, 0x04, 0x05, 0x06, 0x07, 0x08, 0x09, 0x10]

/-- Whether an ALG code is one of Tiger's (R101). -/
def isTigerCode (a : BitVec 8) : Bool := a == 0x21 || a == 0x22

/-- The reserved bits of IMM by command (R101). -/
def reservedImm (i : Instr) : BitVec 16 :=
  if i.opcode = 0x01 then (if isTigerCode (i.imm.extractLsb' 0 8) then 0xF800 else 0xFF00)
  else if i.opcode = 0x03 then 0xFF00
  else if i.opcode = 0x22 then 0xFFFE
  else 0xFFFF

/-- The field violations that R374 lists. -/
def fieldViolation (nctx ncrc : Nat) (i : Instr) : Prop :=
  (i.opcode ∈ contextOps ∧ nctx ≤ i.x.toNat) ∨ (i.opcode ∈ crcOps ∧ ncrc ≤ i.x.toNat) ∨
    (i.opcode = 0x00 ∧ (i.x ≠ 0 ∨ i.y ≠ 0 ∨ i.imm ≠ 0)) ∨
    (i.opcode ≠ 0x07 ∧ i.y ≠ 0) ∨ (i.opcode = 0x07 ∧ nctx ≤ i.y.toNat) ∨
    i.imm &&& reservedImm i ≠ 0 ∨
    (i.opcode = 0x01 ∧ ((i.imm.extractLsb' 0 8) ∉ [0x01#8, 0x02, 0x03, 0x04, 0x11, 0x12, 0x13, 0x14, 0x21, 0x22] ∨
      (isTigerCode (i.imm.extractLsb' 0 8) = true ∧ i.imm.extractLsb' 8 2 = 3)))

/-- The error of a command's record content, after every other check (R371 point 5): CRCCFG's alone. -/
def State.recordError (s : State) : Instr → ErrCode
  | .crccfg .. => (crcRecordError (s.memRead s.a0.toNat crcRecordLen)).getD .ok
  | .nop .. | .init .. | .reset .. | .update1 .. | .update .. | .digest .. | .digestn .. | .copy .. | .getblk .. | .getdlen ..
  | .free .. | .hmacinit .. | .crcinit .. | .crcupd .. | .crcfin .. => .ok

/-- The content conditions of R331 on the record at A0, its width apart: no reserved bit or byte set, poly, init and xorout below
2^width. -/
def State.recordContentOk (s : State) : Prop :=
  let byte := fun j => s.readByte (s.a0.toNat + j)
  let value := fun off => beDecode (s.memRead (s.a0.toNat + off) 16)
  let bound := 2 ^ (byte 0).toNat
  (byte 1).toNat / 4 = 0 ∧ (∀ j, 2 ≤ j → j < 16 → byte j = 0) ∧ value 16 < bound ∧ value 32 < bound ∧ value 48 < bound

/-- The first error of a command in the order of R371, OK if there is none: the fields, the state, the window, the record. -/
def State.firstError (s : State) (i : Instr) : ErrCode :=
  if i.wellFormed s.nctx s.ncrc = false then .invalidInput
  else
    match stateCheck s i, dmemWindow s i with
    | some e, _ => e
    | none, none => .ok
    | none, some (off, n) => if s.platform.dmemSize < off + n then .bounds else s.recordError i

/-- The lifecycle state of slot k after command i takes s to t (R151, R156, R163, R377). -/
def stAfter (s t : State) (i : Instr) (k : Nat) : CtxSt :=
  match i with
  | .init x _ _ => if t.err = .ok ∧ k = x.toNat then .ready else (s.ctx k).st
  | .free x _ _ => if t.err = .ok ∧ k = x.toNat then .unbound else (s.ctx k).st
  | .digest x _ _ | .digestn x _ _ => if t.err = .bounds ∧ k = x.toNat then .undef else (s.ctx k).st
  | .copy x y _ => if t.err = .ok ∧ k = y.toNat then (s.ctx x.toNat).st else (s.ctx k).st
  | .nop .. | .reset .. | .update1 .. | .update .. | .getblk .. | .getdlen .. | .hmacinit .. | .crccfg .. | .crcinit ..
  | .crcupd .. | .crcfin .. => (s.ctx k).st

/-- The host action a issues command i (R33, R104): a 32-bit write to CMD of a word that decodes to i. -/
def State.issues (s : State) (a : HostAction) (i : Instr) : Prop :=
  ∃ v, a = .write s.platform.regBase 4 v ∧ decode (v.setWidth 32) = .ok i

/-- The state after the host has set A2 (R31). -/
def State.withA2 (s : State) (d : Word64) : State := { s with a2 := d }

end Sys2Proof.Machine
end

