-- ==== Sys2Proof/Certificates/Slice0/Obligations.lean ====
section
/-! DEFINITION. The statements for the provers. Numbers in parentheses are the rules of spec/ that a statement formalises or rests on. -/

section

open Sys2Proof Sys2Proof.Machine

/-- The word of a command decodes to that command, and a word that decodes to a command is that command's word (R100, R113). -/
def Obligations.DecodeEncodeRoundTrip : Prop :=
  (∀ i : Instr, decode (encode i) = .ok i) ∧ ∀ (w : BitVec 32) (i : Instr), decode w = .ok i → encode i = w

/-- The opcode map, with OP, X, Y and IMM in their places (R100, R108). -/
def Obligations.OpcodeMap : Prop :=
  ∀ (x y : BitVec 4) (imm : BitVec 16),
    decode (0x00#8 ++ x ++ y ++ imm) = .ok (.nop x y imm) ∧
    decode (0x01#8 ++ x ++ y ++ imm) = .ok (.init x y imm) ∧
    decode (0x02#8 ++ x ++ y ++ imm) = .ok (.reset x y imm) ∧
    decode (0x03#8 ++ x ++ y ++ imm) = .ok (.update1 x y imm) ∧
    decode (0x04#8 ++ x ++ y ++ imm) = .ok (.update x y imm) ∧
    decode (0x05#8 ++ x ++ y ++ imm) = .ok (.digest x y imm) ∧
    decode (0x06#8 ++ x ++ y ++ imm) = .ok (.digestn x y imm) ∧
    decode (0x07#8 ++ x ++ y ++ imm) = .ok (.copy x y imm) ∧
    decode (0x08#8 ++ x ++ y ++ imm) = .ok (.getblk x y imm) ∧
    decode (0x09#8 ++ x ++ y ++ imm) = .ok (.getdlen x y imm) ∧
    decode (0x0A#8 ++ x ++ y ++ imm) = .ok (.free x y imm) ∧
    decode (0x10#8 ++ x ++ y ++ imm) = .ok (.hmacinit x y imm) ∧
    decode (0x20#8 ++ x ++ y ++ imm) = .ok (.crccfg x y imm) ∧
    decode (0x21#8 ++ x ++ y ++ imm) = .ok (.crcinit x y imm) ∧
    decode (0x22#8 ++ x ++ y ++ imm) = .ok (.crcupd x y imm) ∧
    decode (0x23#8 ++ x ++ y ++ imm) = .ok (.crcfin x y imm)

/-- The encoding examples of R116, both ways. -/
def Obligations.EncodingExamples : Prop :=
  ∀ p ∈ ([(.nop 0 0 0, 0x00000000), (.init 1 0 0x0002, 0x01100002), (.init 2 0 (tigerImm false 2 true), 0x01200621),
      (.update1 0 0 0x61, 0x03000061), (.update 3 0 0, 0x04300000), (.digest 1 0 0, 0x05100000), (.digestn 1 0 0, 0x06100000),
      (.copy 0 2 0, 0x07020000), (.hmacinit 1 0 0, 0x10100000), (.crccfg 1 0 0, 0x20100000), (.crcupd 0 0 1, 0x22000001),
      (.crcfin 0 0 0, 0x23000000)] : List (Instr × BitVec 32)),
    encode p.1 = p.2 ∧ decode p.2 = .ok p.1

/-- A word whose OP is unassigned raises ILLEGAL_COMMAND whatever X, Y and IMM hold, and changes nothing but STATUS; a word with any
other OP is a command (R109, R373). -/
def Obligations.IllegalOpcodeRaises : Prop :=
  ∀ (w : BitVec 32) (s : State) (rest : List HostAction),
    s.busy = false → s.program = s.cmdWrite w :: rest →
    if (0x0B ≤ (wordOp w).toNat ∧ (wordOp w).toNat ≤ 0x0F) ∨ (0x11 ≤ (wordOp w).toNat ∧ (wordOp w).toNat ≤ 0x1F) ∨
        0x24 ≤ (wordOp w).toNat then
      decode w = .error (.illegalOp (wordOp w)) ∧
        step s = .next { s with program := rest, err := .illegalCommand, sticky := true, busy := false }
    else ∃ i, decode w = .ok i

/-- When the next host action writes to CMD a word that decodes to command i, the step is exec of i in that state, with that action
gone from the host's program and BUSY = 1 (R33, R104). With no action left the machine keeps all state (R391, log entry 15). -/
def Obligations.StepRunsDecodedCommand : Prop :=
  (∀ (s : State) (w : BitVec 32) (i : Instr) (rest : List HostAction),
    s.busy = false → s.program = s.cmdWrite w :: rest → decode w = .ok i →
    step s = exec i { s with program := rest, busy := true }) ∧
  (∀ (s : State) (w : BitVec 32) (i : Instr), decode w = .ok i →
    step (s.withFetchWord 32 w.toNat) = exec i { s with busy := true }) ∧
  ∀ s : State, s.program = [] → step s = .next s

/-- A step performs the next host action (log entry 1); an action goes through exactly when it has a meaning (R75, R76, R400); a host
read changes nothing but the model's record of what it returned (R80, log entry 9). The model's choices in this: that a reserved
offset takes aligned accesses of 4 and 8 bytes (log entry 11), that DMEM alignment is judged on the bus address (log entry 14), and
that an address in neither window faults (log entry 13). -/
def Obligations.LegalActionsProgress : Prop :=
  ∀ (s : State) (a : HostAction) (rest : List HostAction), s.busy = false →
    (s.program = a :: rest → step s = ({ s with program := rest } : State).perform a) ∧
    ((∃ t, s.perform a = .next t) ↔ s.legal a = true) ∧
    (∀ f, s.perform a = .fault f → ∃ addr, f = .unmappedBusAddress addr ∧ s.inRegBlock addr = false ∧ s.inDmem addr = false) ∧
    (∀ addr size t, a = .read addr size → s.perform a = .next t → t = { s with busData := t.busData })

/-- The register block as the host reads and writes it: CMD, STATUS, the operand registers whole or by halves, RESULT, and the reserved
offsets (R30, R32, R33, R34, R75). The widths at reserved offsets are the model's choice (log entry 11). -/
def Obligations.RegisterAccesses : Prop :=
  ∀ s : State, s.busy = false →
    s.perform (.read s.platform.regBase 4) = .next { s with busData := 0 } ∧
    s.perform (.read (s.platform.regBase + 0x04) 4) = .next { s with busData := s.statusWord.setWidth 64 } ∧
    (∀ r, s.perform (.read (s.platform.regBase + operandOffset r) 8) = .next { s with busData := s.operand r } ∧
      s.perform (.read (s.platform.regBase + operandOffset r) 4) =
        .next { s with busData := ((s.operand r).extractLsb' 0 32).setWidth 64 } ∧
      s.perform (.read (s.platform.regBase + operandOffset r + 4) 4) =
        .next { s with busData := ((s.operand r).extractLsb' 32 32).setWidth 64 }) ∧
    s.perform (.read (s.platform.regBase + 0x28) 8) = .next { s with busData := s.result } ∧
    s.perform (.read (s.platform.regBase + 0x28) 4) = .next { s with busData := (s.result.extractLsb' 0 32).setWidth 64 } ∧
    s.perform (.read (s.platform.regBase + 0x2C) 4) = .next { s with busData := (s.result.extractLsb' 32 32).setWidth 64 } ∧
    (∀ v, s.perform (.write (s.platform.regBase + 0x04) 4 v) = .next s) ∧
    (∀ v r, s.perform (.write (s.platform.regBase + operandOffset r) 8 v) = .next (s.setOperand r v) ∧
      s.perform (.write (s.platform.regBase + operandOffset r) 4 v) =
        .next (s.setOperand r ((s.operand r).extractLsb' 32 32 ++ v.extractLsb' 0 32)) ∧
      s.perform (.write (s.platform.regBase + operandOffset r + 4) 4 v) =
        .next (s.setOperand r (v.extractLsb' 0 32 ++ (s.operand r).extractLsb' 0 32))) ∧
    (∀ v, s.perform (.write (s.platform.regBase + 0x28) 8 v) = .next s ∧
      s.perform (.write (s.platform.regBase + 0x28) 4 v) = .next s ∧
      s.perform (.write (s.platform.regBase + 0x2C) 4 v) = .next s) ∧
    ∀ off size v, 0x30 ≤ off → off + size ≤ 0x100 → off % size = 0 → (size = 4 ∨ size = 8) →
      s.perform (.read (s.platform.regBase + off) size) = .next { s with busData := 0 } ∧
      s.perform (.write (s.platform.regBase + off) size v) = .next s

/-- The accesses without a meaning are refused by name: of a register at another width or place, of DMEM misaligned, of another size or
beyond its end, and, while BUSY = 1, of CMD, A0 to A3, RESULT and DMEM (R75, R76, R405). The model's choices in this: which accesses
BUSY = 1 refuses (log entry 12) and that alignment is judged on the bus address (log entry 14). -/
def Obligations.MeaninglessAccessesRefused : Prop :=
  ∀ (s : State) (size : Nat) (v : Word64), s.platform.wf →
    (∀ off, off < 0x30 →
      (off, size) ∉ [(0x00, 4), (0x04, 4), (0x08, 8), (0x08, 4), (0x0C, 4), (0x10, 8), (0x10, 4), (0x14, 4), (0x18, 8), (0x18, 4),
        (0x1C, 4), (0x20, 8), (0x20, 4), (0x24, 4), (0x28, 8), (0x28, 4), (0x2C, 4)] →
      s.perform (.read (s.platform.regBase + off) size) = .refused (.badRegisterAccess off size) ∧
      s.perform (.write (s.platform.regBase + off) size v) = .refused (.badRegisterAccess off size)) ∧
    (∀ a, a < s.platform.dmemSize →
      (size ∉ [1, 2, 4, 8] ∨ (s.platform.dmemBase + a) % size ≠ 0 ∨ s.platform.dmemSize < a + size) →
      s.perform (.read (s.platform.dmemBase + a) size) = .refused (.badDmemAccess (s.platform.dmemBase + a) size) ∧
      s.perform (.write (s.platform.dmemBase + a) size v) = .refused (.badDmemAccess (s.platform.dmemBase + a) size)) ∧
    (s.busy = true →
      (∀ off, (off, size) ∈ [(0x00, 4), (0x08, 8), (0x08, 4), (0x0C, 4), (0x10, 8), (0x10, 4), (0x14, 4), (0x18, 8), (0x18, 4),
        (0x1C, 4), (0x20, 8), (0x20, 4), (0x24, 4), (0x28, 8), (0x28, 4), (0x2C, 4)] →
        s.perform (.read (s.platform.regBase + off) size) = .refused (.accessWhileBusy (s.platform.regBase + off)) ∧
        s.perform (.write (s.platform.regBase + off) size v) = .refused (.accessWhileBusy (s.platform.regBase + off))) ∧
      ∀ a, size ∈ [1, 2, 4, 8] → (s.platform.dmemBase + a) % size = 0 → a + size ≤ s.platform.dmemSize →
        s.perform (.read (s.platform.dmemBase + a) size) = .refused (.accessWhileBusy (s.platform.dmemBase + a)) ∧
        s.perform (.write (s.platform.dmemBase + a) size v) = .refused (.accessWhileBusy (s.platform.dmemBase + a)))

/-- A legal host access to DMEM moves byte a as the least significant byte and touches nothing else (R76, R77). That
alignment is judged on the bus address is the model's choice (log entry 14). -/
def Obligations.HostDmemAccess : Prop :=
  ∀ (s : State) (a size : Nat) (v : Word64), s.platform.wf → s.busy = false → size ∈ [1, 2, 4, 8] →
    (s.platform.dmemBase + a) % size = 0 → a + size ≤ s.platform.dmemSize →
    (∃ t, s.perform (.write (s.platform.dmemBase + a) size v) = .next t ∧
      (∀ i, i < size → t.readByte (a + i) = v.extractLsb' (8 * i) 8) ∧ s.sameDmemOutside a size t ∧
      t = { s with dmem := t.dmem }) ∧
    ∃ d : Word64, s.perform (.read (s.platform.dmemBase + a) size) = .next { s with busData := d } ∧
      (∀ i, i < size → d.extractLsb' (8 * i) 8 = s.readByte (a + i)) ∧ d >>> (8 * size) = 0

/-- STATUS as the host reads it, and the numbers of the error codes (R34, R370). -/
def Obligations.StatusWordFields : Prop :=
  ∀ s : State,
    s.statusWord.extractLsb' 0 8 = errNumber s.err ∧ s.statusWord.getLsbD 8 = s.sticky ∧ s.statusWord.getLsbD 9 = s.busy ∧
    s.statusWord.extractLsb' 10 22 = 0 ∧
    errNumber .ok = 0x00 ∧ errNumber .invalidInput = 0x01 ∧ errNumber .bounds = 0x02 ∧ errNumber .notImplemented = 0x03 ∧
    errNumber .crcWidth = 0x04 ∧ errNumber .contextUndefined = 0x05 ∧ errNumber .illegalCommand = 0x06

/-- The machine at reset, on any platform with any number of contexts and CRC units: STATUS, A0 to A3 and RESULT are 0 (R58), and every
context is UNBOUND and every CRC unit unconfigured. -/
def Obligations.ResetState : Prop :=
  ∀ s : State, (s = State.reset ∨ ∃ p nctx ncrc, s = State.resetOn p nctx ncrc) →
    s.statusWord = 0 ∧ s.err = .ok ∧ s.sticky = false ∧ s.busy = false ∧ s.a0 = 0 ∧ s.a1 = 0 ∧ s.a2 = 0 ∧ s.a3 = 0 ∧
    s.result = 0 ∧ (∀ k, (s.ctx k).st = .unbound) ∧ ∀ u, (s.crc u).cfgd = false

/-- Hardware reset (R400): STATUS, A0 to A3 and RESULT 0, every context UNBOUND, every CRC unit unconfigured, every DMEM byte a draw,
and nothing of their earlier contents left. That the host's program, the parameters and the last value read stay is the model's
choice (log entry 20). -/
def Obligations.HardwareReset : Prop :=
  ∀ s : State,
    (∃ t, s.perform .hwReset = .next t ∧ t.statusWord = 0 ∧ t.a0 = 0 ∧ t.a1 = 0 ∧ t.a2 = 0 ∧ t.a3 = 0 ∧ t.result = 0 ∧
      t.nctx = s.nctx ∧ t.ncrc = s.ncrc ∧ (∀ k, (t.ctx k).st = .unbound) ∧ (∀ u, (t.crc u).cfgd = false) ∧
      (∀ a, t.readByte a = Config.dmemDraw t.dmemEpoch a) ∧ s.sameHostSide t) ∧
    ∀ s' : State, s'.nctx = s.nctx → s'.ncrc = s.ncrc → s'.draws = s.draws → s.sameHostSide s' → s'.hwReset = s.hwReset

/-- The invariant holds right after reset, for any number of contexts and CRC units from 1 to 16 (R10, R11) on any platform whose
parameters are in their ranges (R12, R81). -/
def Obligations.ResetMeetsInv : Prop := ∀ (p : Platform) (nctx ncrc : SlotCount), p.wf → (State.resetOn p nctx ncrc).Inv

/-- Every step keeps the invariant: the parameters in their ranges (R10, R11, R12, R81), DMEM in canonical form and inside its address space (R70), BUSY = 0 between host actions (R406), no
error code without STICKY (R34), every READY context within the bounds of its algorithm (R40, R42, R44, R48, R164), every configured
CRC unit valid and its table the one R335 gives (R51, R52, R378). -/
def Obligations.StepKeepsInv : Prop := ∀ s t : State, s.Inv → step s = .next t → t.Inv

/-- Every command, whatever its fields, completes in every state: BUSY = 0, STICKY set exactly when ERR is not 0 or it was set, the
operand registers untouched (R31, R34, R104, R383). -/
def Obligations.CommandCompletes : Prop :=
  ∀ (i : Instr) (s : State), ∃ t, exec i s = .next t ∧ t.busy = false ∧ t.sticky = (s.sticky || decide (t.err ≠ .ok)) ∧
    s.sameOperands t ∧ s.sameHostSide t

/-- INVALID_INPUT is raised by each of the field checks of R374, before any other effect, and otherwise only by CRCCFG for a record in
bounds whose width is valid and whose content is not (R331). -/
def Obligations.FieldChecks : Prop :=
  ∀ (i : Instr) (s : State),
    (i.wellFormed s.nctx s.ncrc = false ↔ fieldViolation s.nctx s.ncrc i) ∧
    (fieldViolation s.nctx s.ncrc i → exec i s = .next (s.raise .invalidInput)) ∧
    ∀ t, exec i s = .next t → t.err = .invalidInput → ¬ fieldViolation s.nctx s.ncrc i →
      i.opcode = 0x20 ∧ s.a0.toNat + 64 ≤ s.platform.dmemSize ∧ 3 ≤ (s.readByte s.a0.toNat).toNat ∧
        (s.readByte s.a0.toNat).toNat ≤ 82 ∧ ¬ s.recordContentOk

/-- The state checks: NOT_IMPLEMENTED for an UNBOUND context or an unconfigured CRC unit, CONTEXT_UNDEFINED for an UNDEF context, each by
exactly the commands that R375 and R377 name, and after the field checks. -/
def Obligations.StateErrors : Prop :=
  ∀ (i : Instr) (s t : State), exec i s = .next t →
    (t.err = .notImplemented ↔ ¬ fieldViolation s.nctx s.ncrc i ∧
      ((i.opcode ∈ checkingOps ∧ (s.ctx i.x.toNat).st = .unbound) ∨
        (i.opcode ∈ [0x21#8, 0x22, 0x23] ∧ (s.crc i.x.toNat).cfgd = false))) ∧
    (t.err = .contextUndefined ↔ ¬ fieldViolation s.nctx s.ncrc i ∧ i.opcode ∈ checkingOps ∧ (s.ctx i.x.toNat).st = .undef)

/-- The error a command completes with is the first that applies, in the order of R371, and OK when none does; its window is the one
that R376 gives it. -/
def Obligations.ErrorPriority : Prop :=
  ∀ (i : Instr) (s : State), ∃ t, exec i s = .next t ∧ t.err = s.firstError i

/-- What CRCCFG answers to a record that is not valid (R331, R378): CRC_WIDTH for a width outside 3 to 82, else INVALID_INPUT for a
reserved bit, a reserved byte or a value of 2^width or more. Nothing but STATUS changes. -/
def Obligations.CrccfgRejectsRecords : Prop :=
  ∀ (s : State) (x y : BitVec 4) (imm : BitVec 16), (Instr.crccfg x y imm).wellFormed s.nctx s.ncrc = true →
    s.a0.toNat + 64 ≤ s.platform.dmemSize →
    let byte := fun j => s.readByte (s.a0.toNat + j)
    let width := (byte 0).toNat
    let value := fun off => beDecode (s.memRead (s.a0.toNat + off) 16)
    let valid := (byte 1).toNat / 4 = 0 ∧ (∀ j, 2 ≤ j → j < 16 → byte j = 0) ∧ value 16 < 2 ^ width ∧ value 32 < 2 ^ width ∧
      value 48 < 2 ^ width
    (width < 3 ∨ 82 < width → exec (.crccfg x y imm) s = .next (s.raise .crcWidth)) ∧
    (3 ≤ width → width ≤ 82 → ¬ valid → exec (.crccfg x y imm) s = .next (s.raise .invalidInput)) ∧
    (3 ≤ width → width ≤ 82 → valid → ∃ t, exec (.crccfg x y imm) s = .next t ∧ t.err = .ok)

/-- Every error is precise (R372): the state after a failed command is the state before it but for STATUS and, after a DIGEST or DIGESTN
whose window is out of bounds, the context's st (R151). -/
def Obligations.PreciseErrors : Prop :=
  ∀ (i : Instr) (s t : State), exec i s = .next t → t.err ≠ .ok →
    t = if isDigest i = true ∧ t.err = .bounds then
          { s.setCtx i.x.toNat { s.ctx i.x.toNat with st := .undef } with err := .bounds, sticky := true, busy := false }
        else { s with err := t.err, sticky := true, busy := false }

/-- The errors of each command are those of R381, and each of them does occur. -/
def Obligations.AllowedErrorsExact : Prop :=
  (∀ (i : Instr) (s t : State), exec i s = .next t → t.err ∈ allowedErrors i) ∧
  ∀ (i : Instr), ∀ e ∈ allowedErrors i, ∃ (j : Instr) (s t : State), j.opcode = i.opcode ∧ exec j s = .next t ∧ t.err = e

/-- The lifecycle of a context slot (R151, R156, R163, R377). Where R38 and R163 leave COPY out, the model follows R156 and R377
(log entry 18). -/
def Obligations.ContextLifecycle : Prop :=
  ∀ (i : Instr) (s t : State) (k : Nat), k < s.nctx → exec i s = .next t → (t.ctx k).st = stAfter s t i k

/-- Only a command changes a context or a CRC unit, but for hardware reset, and only the context and the unit it names (COPY: its
destination): R88, R342. -/
def Obligations.ContextAndUnitWriters : Prop :=
  ∀ (s t : State) (a : HostAction), s.perform a = .next t → a ≠ .hwReset →
    t.nctx = s.nctx ∧ t.ncrc = s.ncrc ∧
    (∀ k, t.ctx k ≠ s.ctx k → ∃ i, s.issues a i ∧ ctxTarget i = some k) ∧
    ∀ u, t.crc u ≠ s.crc u → ∃ i, s.issues a i ∧ crcTarget i = some u

/-- RESULT is written only by hardware reset and by the successful completion of DIGEST, DIGESTN, GETBLK, GETDLEN and CRCFIN (R32). -/
def Obligations.ResultWriters : Prop :=
  ∀ (s t : State) (a : HostAction), s.perform a = .next t → t.result ≠ s.result →
    a = .hwReset ∨ ∃ i, s.issues a i ∧ i.opcode ∈ [0x05#8, 0x06, 0x08, 0x09, 0x23] ∧ t.err = .ok

/-- A byte of DMEM changes only by hardware reset, by a host write that covers it, or by a DIGEST, DIGESTN or CRCFIN that completes
without error and whose window covers it (R71, R107, R152). -/
def Obligations.DmemWriters : Prop :=
  ∀ (s t : State) (a : HostAction) (b : Nat), s.perform a = .next t → t.readByte b ≠ s.readByte b →
    a = .hwReset ∨
    (∃ addr size v, a = .write addr size v ∧ s.inRegBlock addr = false ∧ addr ≤ s.platform.dmemBase + b ∧
      s.platform.dmemBase + b < addr + size) ∨
    ∃ i off n, s.issues a i ∧ i.opcode ∈ [0x05#8, 0x06, 0x23] ∧ t.err = .ok ∧ dmemWindow s i = some (off, n) ∧ off ≤ b ∧ b < off + n

/-- Only hardware reset and a write to CMD change ERR, STICKY and BUSY (R35); only hardware reset clears STICKY, and a write to CMD sets
it exactly when the command ends in an error (R34, R384); only the host writes A0 to A3 (R31). -/
def Obligations.StatusAndOperandWriters : Prop :=
  ∀ (s t : State) (a : HostAction), s.perform a = .next t →
    ((t.err ≠ s.err ∨ t.sticky ≠ s.sticky ∨ t.busy ≠ s.busy) → a = .hwReset ∨ ∃ v, a = .write s.platform.regBase 4 v) ∧
    (s.sticky = true → t.sticky = false → a = .hwReset) ∧
    (∀ v, a = .write s.platform.regBase 4 v → t.busy = false ∧ t.sticky = (s.sticky || decide (t.err ≠ .ok))) ∧
    ∀ r, t.operand r ≠ s.operand r → a = .hwReset ∨
      ∃ addr size v part, a = .write addr size v ∧ s.inRegBlock addr = true ∧
        regTarget (addr - s.platform.regBase) size = some (.operand r part)

/-- NOP with zero fields completes and does nothing but clear ERR; with any other field it raises INVALID_INPUT (R160). -/
def Obligations.NopCompletes : Prop :=
  ∀ (s : State) (x y : BitVec 4) (imm : BitVec 16),
    exec (.nop x y imm) s =
      if x = 0 ∧ y = 0 ∧ imm = 0 then .next { s with err := .ok, busy := false } else .next (s.raise .invalidInput)

/-- INIT completes: the slot is READY with the algorithm of the immediate, its lengths and, for Tiger, the byte order and the passes of
A0; HMAC mode is off and the digest state fresh. Nothing else changes (R145). -/
def Obligations.InitCompletes : Prop :=
  ∀ (s : State) (x y : BitVec 4) (imm : BitVec 16), (Instr.init x y imm).wellFormed s.nctx s.ncrc = true →
    ∃ (t : State) (a : Alg), s.runsOk (.init x y imm) t ∧ algOfCode (immAlg imm) = some a ∧
      (t.ctx x.toNat).st = .ready ∧ (t.ctx x.toNat).alg = a ∧ (t.ctx x.toNat).blockLen = algBlockLen a ∧
      (t.ctx x.toNat).digestLen = algDigestLen a (immTlen imm) ∧
      (if algFamily a = .tiger then (t.ctx x.toNat).tbe = immTbe imm ∧ (t.ctx x.toNat).passes = s.a0
        else (t.ctx x.toNat).tbe = false ∧ (t.ctx x.toNat).passes = 0) ∧
      (t.ctx x.toNat).hmac = false ∧ (t.ctx x.toNat).fresh ∧
      s.sameCtxsBut x.toNat t ∧ s.sameCrcs t ∧ s.sameDmem t ∧ t.result = s.result

/-- The algorithm codes with their block lengths, digest lengths and chaining-value shapes; every other code names no algorithm
(R111, R112). -/
def Obligations.AlgorithmCodes : Prop :=
  (∀ p ∈ ([(0x01, .bmw224, 64, 28), (0x02, .bmw256, 64, 32), (0x03, .bmw384, 128, 48), (0x04, .bmw512, 128, 64),
      (0x11, .skein224, 32, 28), (0x12, .skein256, 32, 32), (0x13, .skein384, 64, 48), (0x14, .skein512, 64, 64)] :
        List (BitVec 8 × Alg × Nat × Nat)),
    algOfCode p.1 = some p.2.1 ∧ algBlockLen p.2.1 = p.2.2.1 ∧ ∀ t, algDigestLen p.2.1 t = p.2.2.2) ∧
  (∀ p ∈ ([(0x21, .tiger), (0x22, .tiger2)] : List (BitVec 8 × Alg)),
    algOfCode p.1 = some p.2 ∧ algBlockLen p.2 = 64 ∧ algDigestLen p.2 0 = 24 ∧ algDigestLen p.2 1 = 20 ∧
      algDigestLen p.2 2 = 16) ∧
  (∀ c : BitVec 8, c ∉ [0x01#8, 0x02, 0x03, 0x04, 0x11, 0x12, 0x13, 0x14, 0x21, 0x22] → algOfCode c = none) ∧
  ∀ a : Alg, ∃ h, algIv a = h ∧
    match a with
    | .bmw224 | .bmw256 => ∃ ws, h = .w32 ws ∧ ws.length = 16
    | .bmw384 | .bmw512 => ∃ ws, h = .w64 ws ∧ ws.length = 16
    | .skein224 | .skein256 => ∃ ws, h = .w64 ws ∧ ws.length = 4
    | .skein384 | .skein512 => ∃ ws, h = .w64 ws ∧ ws.length = 8
    | .tiger | .tiger2 => ∃ ws, h = .w64 ws ∧ ws.length = 3

/-- RESET completes: the configuration, the HMAC keys among it, stays; the digest state is fresh, or, in HMAC mode, fresh and then fed the
inner pad (R146, R147, R304). -/
def Obligations.ResetCompletes : Prop :=
  ∀ (s : State) (x y : BitVec 4) (imm : BitVec 16), (Instr.reset x y imm).wellFormed s.nctx s.ncrc = true →
    (s.ctx x.toNat).st = .ready →
    ∃ t, s.runsOk (.reset x y imm) t ∧ (s.ctx x.toNat).sameConfig (t.ctx x.toNat) ∧
      (if (s.ctx x.toNat).hmac = false then (t.ctx x.toNat).fresh
        else t.ctx x.toNat = (s.ctx x.toNat).kipad.foldl Ctx.absorb
          { s.ctx x.toNat with cv := algIv (s.ctx x.toNat).alg, buf := [], bcount := 0 }) ∧
      s.sameCtxsBut x.toNat t ∧ s.sameCrcs t ∧ s.sameDmem t ∧ t.result = s.result

/-- UPDATE1 completes and absorbs its byte: BMW and Tiger compress the block that the byte fills at once, Skein compresses a full block
only when the next byte arrives (R143, R148, R233). -/
def Obligations.Update1Completes : Prop :=
  ∀ (s : State) (x y : BitVec 4) (imm : BitVec 16), (Instr.update1 x y imm).wellFormed s.nctx s.ncrc = true →
    (s.ctx x.toNat).st = .ready → (s.ctx x.toNat).wf →
    ∃ t, s.runsOk (.update1 x y imm) t ∧ (s.ctx x.toNat).sameConfig (t.ctx x.toNat) ∧
      (let c := s.ctx x.toNat
       let d := t.ctx x.toNat
       let b := immByte imm
       if algFamily c.alg = .skein then
         if c.ptr = c.blockLen then d.cv = c.compress c.buf ∧ d.bcount = c.bcount + 1 ∧ d.buf = [b]
         else d.cv = c.cv ∧ d.bcount = c.bcount ∧ d.buf = c.buf ++ [b]
       else
         if c.ptr + 1 = c.blockLen then d.cv = c.compress (c.buf ++ [b]) ∧ d.bcount = c.bcount + 1 ∧ d.buf = []
         else d.cv = c.cv ∧ d.bcount = c.bcount ∧ d.buf = c.buf ++ [b]) ∧
      (t.ctx x.toNat).wf ∧ s.sameCtxsBut x.toNat t ∧ s.sameCrcs t ∧ s.sameDmem t ∧ t.result = s.result

/-- UPDATE completes on a window in bounds and absorbs the window's bytes in order; a window of length 0 changes nothing but STATUS
(R149). -/
def Obligations.UpdateCompletes : Prop :=
  ∀ (s : State) (x y : BitVec 4) (imm : BitVec 16), (Instr.update x y imm).wellFormed s.nctx s.ncrc = true →
    (s.ctx x.toNat).st = .ready → s.a0.toNat + s.a1.toNat ≤ s.platform.dmemSize →
    ∃ t, s.runsOk (.update x y imm) t ∧
      t.ctx x.toNat = ((List.range s.a1.toNat).map fun j => s.readByte (s.a0.toNat + j)).foldl Ctx.absorb (s.ctx x.toNat) ∧
      (s.ctx x.toNat).sameConfig (t.ctx x.toNat) ∧
      (s.a1 = 0 → t = { s with err := .ok, busy := false }) ∧
      s.sameCtxsBut x.toNat t ∧ s.sameCrcs t ∧ s.sameDmem t ∧ t.result = s.result

/-- DIGEST completes on a destination in bounds: the natural output stands at A2, RESULT holds its length, the context is reset, and no
byte outside the window changes (R142, R150). -/
def Obligations.DigestCompletes : Prop :=
  ∀ (s : State) (x y : BitVec 4) (imm : BitVec 16), (Instr.digest x y imm).wellFormed s.nctx s.ncrc = true →
    (s.ctx x.toNat).st = .ready → (s.ctx x.toNat).wf →
    s.a2.toNat + (s.ctx x.toNat).natLen ≤ s.platform.dmemSize →
    ∃ t, s.runsOk (.digest x y imm) t ∧
      ((s.ctx x.toNat).finalize s.platform.lenField).length = (s.ctx x.toNat).natLen ∧
      (∀ j, j < (s.ctx x.toNat).natLen →
        t.readByte (s.a2.toNat + j) = ((s.ctx x.toNat).finalize s.platform.lenField).getD j 0) ∧
      s.sameDmemOutside s.a2.toNat (s.ctx x.toNat).natLen t ∧
      t.result = BitVec.ofNat 64 (s.ctx x.toNat).natLen ∧ t.ctx x.toNat = (s.ctx x.toNat).reset ∧
      s.sameCtxsBut x.toNat t ∧ s.sameCrcs t

/-- DIGESTN completes when the bytes it writes are in bounds: the first min(A3, NatLen) bytes of the output stand at A2, RESULT holds their
number, the context is reset, and no byte beyond them changes (R152). -/
def Obligations.DigestnCompletes : Prop :=
  ∀ (s : State) (x y : BitVec 4) (imm : BitVec 16), (Instr.digestn x y imm).wellFormed s.nctx s.ncrc = true →
    (s.ctx x.toNat).st = .ready → (s.ctx x.toNat).wf →
    s.a2.toNat + min s.a3.toNat (s.ctx x.toNat).natLen ≤ s.platform.dmemSize →
    ∃ t, s.runsOk (.digestn x y imm) t ∧
      (∀ j, j < min s.a3.toNat (s.ctx x.toNat).natLen →
        t.readByte (s.a2.toNat + j) = ((s.ctx x.toNat).finalize s.platform.lenField).getD j 0) ∧
      s.sameDmemOutside s.a2.toNat (min s.a3.toNat (s.ctx x.toNat).natLen) t ∧
      t.result = BitVec.ofNat 64 (min s.a3.toNat (s.ctx x.toNat).natLen) ∧ t.ctx x.toNat = (s.ctx x.toNat).reset ∧
      s.sameCtxsBut x.toNat t ∧ s.sameCrcs t

/-- DIGESTN with a requested length n below the natural length writes exactly the first n bytes that DIGEST writes from the same context
state, and leaves the same context (R153). -/
def Obligations.DigestnTruncatesDigest : Prop :=
  ∀ (s : State) (x : BitVec 4) (n : Word64), x.toNat < s.nctx → (s.ctx x.toNat).st = .ready → (s.ctx x.toNat).wf →
    n.toNat < (s.ctx x.toNat).natLen → s.a2.toNat + (s.ctx x.toNat).natLen ≤ s.platform.dmemSize →
    ∃ t t' : State, exec (.digest x 0 0) s = .next t ∧ exec (.digestn x 0 0) { s with a3 := n } = .next t' ∧
      t.err = .ok ∧ t'.err = .ok ∧ t'.result = n ∧ t'.ctxs = t.ctxs ∧
      (∀ j, j < n.toNat → t'.readByte (s.a2.toNat + j) = t.readByte (s.a2.toNat + j)) ∧
      s.sameDmemOutside s.a2.toNat n.toNat t'

/-- A DIGEST or DIGESTN whose destination is out of bounds raises BOUNDS, sets the context UNDEF and changes nothing else (R151). -/
def Obligations.DigestOutOfBounds : Prop :=
  ∀ (s : State) (x y : BitVec 4) (imm : BitVec 16),
    (Instr.digest x y imm).wellFormed s.nctx s.ncrc = true → (s.ctx x.toNat).st = .ready →
    (s.platform.dmemSize < s.a2.toNat + (s.ctx x.toNat).natLen →
      exec (.digest x y imm) s = .next { s.setCtx x.toNat { s.ctx x.toNat with st := .undef } with
        err := .bounds, sticky := true, busy := false }) ∧
    (s.platform.dmemSize < s.a2.toNat + min s.a3.toNat (s.ctx x.toNat).natLen →
      exec (.digestn x y imm) s = .next { s.setCtx x.toNat { s.ctx x.toNat with st := .undef } with
        err := .bounds, sticky := true, busy := false })

/-- After a DIGEST or DIGESTN the context is what it was after INIT, or after INIT and HMACINIT in HMAC mode, whatever was absorbed in
between (R154). -/
def Obligations.DigestLeavesInitState : Prop :=
  ∀ (s t1 t2 t3 u2 u3 : State) (x : BitVec 4) (imm : BitVec 16) (cs : List Chunk) (koff klen d n req : Word64),
    exec (.init x 0 imm) s = .next t1 → t1.err = .ok →
    (State.absorbChunks x cs t1 = .next t2 →
      exec (.digest x 0 0) (t2.withA2 d) = .next t3 ∨ exec (.digestn x 0 0) { t2 with a2 := d, a3 := n } = .next t3 →
      t3.err = .ok → t3.ctx x.toNat = t1.ctx x.toNat) ∧
    ∀ t0, exec (.hmacinit x 0 0) { t1 with a0 := koff, a1 := klen, a3 := req } = .next t0 → t0.err = .ok →
      State.absorbChunks x cs t0 = .next u2 →
      exec (.digest x 0 0) (u2.withA2 d) = .next u3 ∨ exec (.digestn x 0 0) { u2 with a2 := d, a3 := n } = .next u3 →
      u3.err = .ok → u3.ctx x.toNat = t0.ctx x.toNat

/-- COPY completes from a READY source to a destination in any state: the destination equals the source in every field, and nothing else
changes (R156, R310). -/
def Obligations.CopyCompletes : Prop :=
  ∀ (s : State) (x y : BitVec 4) (imm : BitVec 16), (Instr.copy x y imm).wellFormed s.nctx s.ncrc = true →
    (s.ctx x.toNat).st = .ready →
    ∃ t, s.runsOk (.copy x y imm) t ∧ t.ctx y.toNat = s.ctx x.toNat ∧ t.ctx x.toNat = s.ctx x.toNat ∧
      (x = y → t = { s with err := .ok, busy := false }) ∧
      s.sameCtxsBut y.toNat t ∧ s.sameCrcs t ∧ s.sameDmem t ∧ t.result = s.result

/-- Copy independence (R88, R156): after a COPY, what is absorbed into the source and what is absorbed into the copy go their own ways. -/
def Obligations.CopyIndependence : Prop :=
  ∀ (s : State) (x y : BitVec 4) (xs ys : List Chunk), x.toNat < s.nctx → y.toNat < s.nctx → x ≠ y →
    (s.ctx x.toNat).st = .ready → (∀ c ∈ xs ++ ys, s.chunkOk c = true) →
    ∃ t1 t2 t3 : State, exec (.copy x y 0) s = .next t1 ∧ State.absorbChunks x xs t1 = .next t2 ∧
      State.absorbChunks y ys t2 = .next t3 ∧
      t3.ctx x.toNat = (s.ctx x.toNat).absorbAll (xs.flatMap s.chunkBytes) ∧
      t3.ctx y.toNat = (s.ctx x.toNat).absorbAll (ys.flatMap s.chunkBytes)

/-- GETBLK and GETDLEN complete: RESULT holds the block length, or the natural output length, which in HMAC mode is hlen (R142, R157, R158,
R308). Nothing else changes but STATUS. -/
def Obligations.GetblkAndGetdlenComplete : Prop :=
  ∀ (s : State) (x y : BitVec 4) (imm : BitVec 16), (Instr.getblk x y imm).wellFormed s.nctx s.ncrc = true →
    (s.ctx x.toNat).st = .ready →
    exec (.getblk x y imm) s =
      .next { s with result := BitVec.ofNat 64 (s.ctx x.toNat).blockLen, err := .ok, busy := false } ∧
    exec (.getdlen x y imm) s =
      .next { s with
        result := BitVec.ofNat 64 (if (s.ctx x.toNat).hmac = true then (s.ctx x.toNat).hlen else (s.ctx x.toNat).digestLen)
        err := .ok
        busy := false }

/-- FREE completes on a slot in any state: the slot is UNBOUND and nothing else changes but the slot's other fields (R161). -/
def Obligations.FreeCompletes : Prop :=
  ∀ (s : State) (x y : BitVec 4) (imm : BitVec 16), (Instr.free x y imm).wellFormed s.nctx s.ncrc = true →
    ∃ t, s.runsOk (.free x y imm) t ∧ (t.ctx x.toNat).st = .unbound ∧
      s.sameCtxsBut x.toNat t ∧ s.sameCrcs t ∧ s.sameDmem t ∧ t.result = s.result

/-- Chunk invariance (R159): a message absorbed in any split into UPDATE and UPDATE1 commands leaves the context that one UPDATE of the whole
message leaves, and a DIGEST after either writes the same output. -/
def Obligations.ChunkInvariance : Prop :=
  ∀ (s : State) (x : BitVec 4) (cs : List Chunk) (off len d : Word64), x.toNat < s.nctx → (s.ctx x.toNat).st = .ready →
    (∀ c ∈ cs, s.chunkOk c = true) → off.toNat + len.toNat ≤ s.platform.dmemSize →
    cs.flatMap s.chunkBytes = s.memRead off.toNat len.toNat →
    ∃ t t' : State, State.absorbChunks x cs s = .next t ∧ exec (.update x 0 0) { s with a0 := off, a1 := len } = .next t' ∧
      t.ctx x.toNat = t'.ctx x.toNat ∧ s.sameCtxsBut x.toNat t ∧ s.sameCrcs t ∧ s.sameDmem t ∧
      ∃ u u' : State, exec (.digest x 0 0) (t.withA2 d) = .next u ∧ exec (.digest x 0 0) (t'.withA2 d) = .next u' ∧
        u.err = u'.err ∧ (u.err = .ok → u.result = u'.result) ∧ ∀ a, u.readByte a = u'.readByte a

/-- The bounds of the block buffer and the byte count (R164): from a fresh digest state, after any pieces, buffer and counter show the number
of bytes absorbed modulo 2^64, and a Skein buffer is empty only if no byte was absorbed. -/
def Obligations.BufferCountsBytes : Prop :=
  ∀ (s : State) (x : BitVec 4) (cs : List Chunk), x.toNat < s.nctx → (s.ctx x.toNat).st = .ready → (s.ctx x.toNat).wf →
    (s.ctx x.toNat).fresh → (∀ c ∈ cs, s.chunkOk c = true) →
    ∃ t, State.absorbChunks x cs s = .next t ∧ (t.ctx x.toNat).bufferOk ∧
      (t.ctx x.toNat).absorbed = (cs.flatMap s.chunkBytes).length % 2 ^ 64 ∧
      (algFamily (t.ctx x.toNat).alg = .skein → (t.ctx x.toNat).ptr = 0 → cs.flatMap s.chunkBytes = [])

/-- Skein defers a full block (R232, R233, R241): after an UPDATE of exactly B bytes nothing is compressed yet; a further byte compresses the
block as a first message block, while finalizing compresses it as the first and last block and runs the output transform. -/
def Obligations.SkeinDefersFullBlock : Prop :=
  ∀ (s : State) (x : BitVec 4), x.toNat < s.nctx → (s.ctx x.toNat).st = .ready → (s.ctx x.toNat).wf →
    (s.ctx x.toNat).fresh → algFamily (s.ctx x.toNat).alg = .skein → s.a1.toNat = (s.ctx x.toNat).blockLen →
    s.a0.toNat + s.a1.toNat ≤ s.platform.dmemSize →
    ∃ t, exec (.update x 0 0) s = .next t ∧
      (let c := s.ctx x.toNat
       let d := t.ctx x.toNat
       let core := if algWords c.alg = 4 then skeinSmall else skeinBig
       let iv := (algIv c.alg).words64
       let block := s.memRead s.a0.toNat s.a1.toNat
       d.cv = algIv c.alg ∧ d.bcount = 0 ∧ d.buf = block ∧ d.ptr = c.blockLen ∧
       (d.hmac = false → ∀ lf, d.finalize lf =
         (leBytes 8 (skeinUbi core (skeinUbi core iv block c.blockLen 480) (zeros c.blockLen) 8 510)).take c.digestLen) ∧
       ∀ b : Byte, ∃ u, exec (.update1 x 0 ((0 : BitVec 8) ++ b)) t = .next u ∧
         (u.ctx x.toNat).cv = .w64 (skeinUbi core iv block c.blockLen 224) ∧ (u.ctx x.toNat).bcount = 1 ∧
         (u.ctx x.toNat).buf = [b])

/-- The length-field layout matters to BMW-384 and BMW-512 only, and there not to the empty message (R197, R205). There it does matter:
the last block ends in the bit length in 8 bytes at offset 120 under LEN64_AT_END and in 16 bytes at offset 112 under LEN128_AT_112, in a
block of its own when the padding byte leaves no room (R197, R198), and the digests of "abc" differ (the vectors of
spec/95_test_vectors.md section 2). -/
def Obligations.LenFieldOnlyBmwBig : Prop :=
  (∀ c : Ctx,
    (c.alg ≠ .bmw384 → c.alg ≠ .bmw512 → c.finalize .len64AtEnd = c.finalize .len128At112) ∧
    (c.buf = [] → c.bcount = 0 → c.final .len64AtEnd = c.final .len128At112)) ∧
  (∀ (h : List Word64) (buf : List Byte) (n : Nat), buf.length < 128 →
    let bitlen := (n * 128 + buf.length) * 8
    let compress := bmwCompress bmwBig
    bmwPad bmwBig .len64AtEnd h buf n =
      (if buf.length < 120 then compress h (buf ++ [0x80] ++ zeros (119 - buf.length) ++ leEncode bitlen 8)
        else compress (compress h (buf ++ [0x80] ++ zeros (127 - buf.length))) (zeros 120 ++ leEncode bitlen 8)) ∧
    bmwPad bmwBig .len128At112 h buf n =
      (if buf.length < 112 then compress h (buf ++ [0x80] ++ zeros (111 - buf.length) ++ leEncode bitlen 16)
        else compress (compress h (buf ++ [0x80] ++ zeros (127 - buf.length))) (zeros 112 ++ leEncode bitlen 16))) ∧
  let abc : List Byte := [0x61, 0x62, 0x63]
  let bmw384 := (initCtx 0 .bmw384 0x0003 0).absorbAll abc
  let bmw512 := (initCtx 0 .bmw512 0x0004 0).absorbAll abc
  bmw384.finalize .len64AtEnd =
    beEncode 0x411E84C41BD59E1376FC905FE96D2EF58FD59970ABBA02CA53A7A662F9E6CEDB4E7E43BD63717215CD86EA20282F2B36 48 ∧
  bmw384.finalize .len128At112 =
    beEncode 0xF2684ECD599D10A9BE74A99A3ED9593C6D5D62AE1A74F0C76ECC32ACEF17C0014D2E7137296584712C10FCAA45DBAB16 48 ∧
  bmw512.finalize .len64AtEnd =
    beEncode 0x8F37BEF264289F61F3D713944D394A7AC1DD95D3FE5787B5D325A310BC9CD18783852BFEE12FBDEAAB3AD9A67F2B654E348714AED3ACF7D7548E95591AF68046 64 ∧
  bmw512.finalize .len128At112 =
    beEncode 0xB15CC5F01DCAC701637E32B8F855343A858143E9B02570EE98D0BC160AA9C42B103285B3F52D702B1B30882A752A87894C11F2DE2DD81900BEC71183C24CCB30 64

/-- Tiger's byte order and digest length change only the encoding of the output (R280, R281): contexts that differ in them alone hold the same
chaining value after the same input; a shorter output is the start of the 24-byte one in the same byte order; and the 24-byte output in
one byte order is that in the other with the bytes of each 8-byte word reversed. -/
def Obligations.TigerOutputOptions : Prop :=
  ∀ (c : Ctx) (tbe : Bool) (L : Nat) (msg : List Byte), algFamily c.alg = .tiger →
    (({ c with tbe := tbe, digestLen := L } : Ctx).absorbAll msg).cv = (c.absorbAll msg).cv ∧
    ∀ lf, (L ≤ 24 → ({ c with digestLen := L } : Ctx).final lf = (({ c with digestLen := 24 } : Ctx).final lf).take L) ∧
      (let big := ({ c with tbe := true, digestLen := 24 } : Ctx).final lf
       let little := ({ c with tbe := false, digestLen := 24 } : Ctx).final lf
       big.length = 24 ∧ little.length = 24 ∧
         ∀ w i, w < 3 → i < 8 → big.getD (8 * w + i) 0 = little.getD (8 * w + (7 - i)) 0)

/-- The worked values of R204, R243 and R283, step by step. -/
def Obligations.WorkedDigests : Prop :=
  (let m : List Word32 := 0x80 :: List.replicate 15 0
   let h : List Word32 := [0x220de420, 0x8580e8e5, 0x128d526b, 0xea974d4f, 0xd859163a, 0x99581848, 0x9e3c1ab2, 0x1df24428, 0x1a9c9e20,
     0xab6de3aa, 0xa6156cdc, 0x3064b36d, 0x060bcc12, 0x00be94d1, 0x48b627a6, 0xfa4a29d5]
   let h2 : List Word32 := [0x747cf3fe, 0xa6db3fcf, 0x993bf896, 0x6868cb62, 0x775964de, 0xe98459ad, 0x51268213, 0x8f9ba20b, 0xbfc4ca82,
     0x412b4c6f, 0x090eccfb, 0xb7d8e984, 0xf862766d, 0xdf9c78e1, 0x2a6885bd, 0x7a5755cc]
   bmwWords bmwSmall (0x80 :: zeros 63) = m ∧ bmwF bmwSmall (bmwIv bmwSmall 0x40) m = h ∧
   bmwF bmwSmall (bmwFinalConst bmwSmall) h = h2 ∧ leBytes 4 (h2.drop 8) =
     beEncode 0x82cac4bf6f4c2b41fbcc0e0984e9d8b76d7662f8e1789cdfbd85682acc55577a 32 ∧
   (initCtx 0 .bmw256 0x0002 0).finalize .len64AtEnd = leBytes 4 (h2.drop 8)) ∧
  (skeinTweak 0 480 = (0, 0xF000000000000000) ∧ skeinTweak 8 510 = (8, 0xFF00000000000000) ∧
   (initCtx 0 .skein512 0x0014 0).finalize .len64AtEnd =
     leBytes 8 (skeinUbi skeinBig (skeinUbi skeinBig skeinIv512 (zeros 64) 0 480) (zeros 64) 8 510) ∧
   (initCtx 0 .skein512 0x0014 0).finalize .len64AtEnd =
     beEncode 0xbc5b4c50925519c290cc634277ae3d6257212395cba733bbad37a4af0fa06af41fca7903d06564fea7a2d3730dbdb80c1f85562dfcc070334ea4d1d9e72cba7a 64) ∧
  (tigerCompress 0 tigerIv (0x01 :: zeros 63) = [0x24F0130C63AC9332, 0x16166E76B1BB925F, 0xF373DE2D49584E7A] ∧
   (initCtx 0 .tiger (tigerImm false 0 true) 0).finalize .len64AtEnd = beEncode 0x24F0130C63AC933216166E76B1BB925FF373DE2D49584E7A 24 ∧
   (initCtx 0 .tiger (tigerImm false 0 false) 0).finalize .len64AtEnd =
     beEncode 0x3293AC630C13F0245F92BBB1766E16167A4E58492DDE73F3 24)

/-- The Skein initial values that the engine holds are the ones that the configuration block gives (R238, R239). -/
def Obligations.SkeinIvDerivation : Prop :=
  algIv .skein224 = .w64 (skeinIvDerived skeinSmall 28) ∧ algIv .skein256 = .w64 (skeinIvDerived skeinSmall 32) ∧
  algIv .skein384 = .w64 (skeinIvDerived skeinBig 48) ∧ algIv .skein512 = .w64 (skeinIvDerived skeinBig 64)

/-- HMACINIT completes on a key window in bounds: the pads are the padded key, or the padded plain digest of a key longer than B, against
0x36 and 0x5C; hlen is A3 when 0 < A3 < L and L otherwise; the digest state has absorbed the inner pad from the initial value. DMEM and
RESULT stay (R300, R302, R303). -/
def Obligations.HmacinitCompletes : Prop :=
  ∀ (s : State) (x y : BitVec 4) (imm : BitVec 16), (Instr.hmacinit x y imm).wellFormed s.nctx s.ncrc = true →
    (s.ctx x.toNat).st = .ready → (s.ctx x.toNat).wf → s.a0.toNat + s.a1.toNat ≤ s.platform.dmemSize →
    ∃ t, s.runsOk (.hmacinit x y imm) t ∧
      (let c := s.ctx x.toNat
       let d := t.ctx x.toNat
       let key := s.memRead s.a0.toNat s.a1.toNat
       let key' := if c.blockLen < s.a1.toNat then c.plainDigest s.platform.lenField key else key
       key'.length ≤ c.blockLen ∧ d.kipad.length = c.blockLen ∧ d.kopad.length = c.blockLen ∧
       (∀ j, j < c.blockLen → d.kipad.getD j 0 = key'.getD j 0 ^^^ 0x36 ∧ d.kopad.getD j 0 = key'.getD j 0 ^^^ 0x5C) ∧
       d.hlen = (if 0 < s.a3.toNat ∧ s.a3.toNat < c.digestLen then s.a3.toNat else c.digestLen) ∧ d.hmac = true ∧
       d = d.kipad.foldl Ctx.absorb { d with cv := algIv c.alg, buf := [], bcount := 0 } ∧
       d.st = .ready ∧ d.alg = c.alg ∧ d.blockLen = c.blockLen ∧ d.digestLen = c.digestLen ∧ d.tbe = c.tbe ∧
       d.passes = c.passes) ∧
      s.sameCtxsBut x.toNat t ∧ s.sameCrcs t ∧ s.sameDmem t ∧ t.result = s.result

/-- The MAC (R300, R306, R307): HMACINIT, any pieces of a message, DIGEST give H(kopad || H(kipad || message)) cut to hlen bytes, where H is the
context's own algorithm. -/
def Obligations.HmacIsNestedHash : Prop :=
  ∀ (s : State) (x : BitVec 4) (cs : List Chunk) (d : Word64), x.toNat < s.nctx → (s.ctx x.toNat).st = .ready →
    (s.ctx x.toNat).wf → s.a0.toNat + s.a1.toNat ≤ s.platform.dmemSize → (∀ c ∈ cs, s.chunkOk c = true) →
    d.toNat + (s.ctx x.toNat).hmacOutLen s.a3.toNat ≤ s.platform.dmemSize →
    ∃ t1 t2 t3 : State, exec (.hmacinit x 0 0) s = .next t1 ∧ State.absorbChunks x cs t1 = .next t2 ∧
      exec (.digest x 0 0) (t2.withA2 d) = .next t3 ∧ t3.err = .ok ∧
      (let c := s.ctx x.toNat
       let H := c.plainDigest s.platform.lenField
       let k0 := c.keyBlock s.platform.lenField (s.memRead s.a0.toNat s.a1.toNat)
       let hlen := c.hmacOutLen s.a3.toNat
       t3.memRead d.toNat hlen =
         (H (k0.map (· ^^^ 0x5C) ++ H (k0.map (· ^^^ 0x36) ++ cs.flatMap s.chunkBytes))).take hlen ∧
       t3.result = BitVec.ofNat 64 hlen)

/-- Long-key equivalence (R312): keying with a key longer than B and keying with its plain digest leave the same context, so every message has the
same MAC. -/
def Obligations.HmacLongKey : Prop :=
  ∀ (s s' : State) (x : BitVec 4), x.toNat < s.nctx → s'.nctx = s.nctx → s'.platform = s.platform →
    s'.ctx x.toNat = s.ctx x.toNat → s'.a3 = s.a3 → (s.ctx x.toNat).st = .ready → (s.ctx x.toNat).wf →
    (s.ctx x.toNat).blockLen < s.a1.toNat → s.a0.toNat + s.a1.toNat ≤ s.platform.dmemSize →
    s'.a0.toNat + s'.a1.toNat ≤ s.platform.dmemSize →
    s'.memRead s'.a0.toNat s'.a1.toNat =
      (s.ctx x.toNat).plainDigest s.platform.lenField (s.memRead s.a0.toNat s.a1.toNat) →
    ∃ t t' : State, exec (.hmacinit x 0 0) s = .next t ∧ exec (.hmacinit x 0 0) s' = .next t' ∧ t.err = .ok ∧ t'.err = .ok ∧
      t'.ctx x.toNat = t.ctx x.toNat ∧
      ∀ msg, ((t'.ctx x.toNat).absorbAll msg).finalize s.platform.lenField =
        ((t.ctx x.toNat).absorbAll msg).finalize s.platform.lenField

/-- Clean start (R309, R313): what HMACINIT leaves depends on the key, the requested length and what INIT bound, not on what the context held,
an earlier key and HMAC mode among it. -/
def Obligations.HmacCleanStart : Prop :=
  ∀ (s s' : State) (x : BitVec 4), x.toNat < s.nctx → s'.nctx = s.nctx → s'.platform = s.platform → s'.a3 = s.a3 →
    (s.ctx x.toNat).st = .ready → (s'.ctx x.toNat).st = .ready → (s'.ctx x.toNat).alg = (s.ctx x.toNat).alg →
    (s'.ctx x.toNat).blockLen = (s.ctx x.toNat).blockLen → (s'.ctx x.toNat).digestLen = (s.ctx x.toNat).digestLen →
    (s'.ctx x.toNat).tbe = (s.ctx x.toNat).tbe → (s'.ctx x.toNat).passes = (s.ctx x.toNat).passes →
    s.a0.toNat + s.a1.toNat ≤ s.platform.dmemSize → s'.a0.toNat + s'.a1.toNat ≤ s.platform.dmemSize →
    s'.memRead s'.a0.toNat s'.a1.toNat = s.memRead s.a0.toNat s.a1.toNat →
    ∃ t t' : State, exec (.hmacinit x 0 0) s = .next t ∧ exec (.hmacinit x 0 0) s' = .next t' ∧ t.err = .ok ∧ t'.err = .ok ∧
      t'.ctx x.toNat = t.ctx x.toNat

/-- CRCCFG completes on a valid record in bounds: the unit holds the record's fields, big-endian as they stand in DMEM, the table of R335, and
its register at init (R330, R331, R335, R337). -/
def Obligations.CrccfgCompletes : Prop :=
  ∀ (s : State) (x y : BitVec 4) (imm : BitVec 16), (Instr.crccfg x y imm).wellFormed s.nctx s.ncrc = true →
    s.a0.toNat + 64 ≤ s.platform.dmemSize →
    let byte := fun j => s.readByte (s.a0.toNat + j)
    let width := (byte 0).toNat
    let value := fun off => beDecode (s.memRead (s.a0.toNat + off) 16)
    3 ≤ width → width ≤ 82 → (byte 1).toNat < 4 → (∀ j, 2 ≤ j → j < 16 → byte j = 0) →
    value 16 < 2 ^ width → value 32 < 2 ^ width → value 48 < 2 ^ width →
    ∃ t, s.runsOk (.crccfg x y imm) t ∧
      (let u := t.crc x.toNat
       u.cfgd = true ∧ u.width = width ∧ u.poly.toNat = value 16 ∧ u.init.toNat = value 32 ∧ u.xorout.toNat = value 48 ∧
       u.refin = (byte 1).getLsbD 0 ∧ u.refout = (byte 1).getLsbD 1 ∧ u.reg = u.init ∧ u.table.length = 256 ∧
       ∀ j, j < 256 → wordAt u.table j =
         if u.refin = true then reflect (crcByte width u.poly false 0 (reflect (BitVec.ofNat 8 j) 8)) width
         else crcByte width u.poly false 0 (BitVec.ofNat 8 j)) ∧
      s.sameCtxs t ∧ s.sameCrcsBut x.toNat t ∧ s.sameDmem t ∧ t.result = s.result

/-- CRCINIT completes on a configured unit: its register is back at init and nothing else changes but STATUS (R338). -/
def Obligations.CrcinitCompletes : Prop :=
  ∀ (s : State) (x y : BitVec 4) (imm : BitVec 16), (Instr.crcinit x y imm).wellFormed s.nctx s.ncrc = true →
    (s.crc x.toNat).cfgd = true →
    ∃ t, s.runsOk (.crcinit x y imm) t ∧ t.crc x.toNat = { s.crc x.toNat with reg := (s.crc x.toNat).init } ∧
      s.sameCtxs t ∧ s.sameCrcsBut x.toNat t ∧ s.sameDmem t ∧ t.result = s.result

/-- CRCUPD completes on a configured unit and a window in bounds: the window's bytes are folded into the register in order, by the bit-serial
step when SERIAL is 1 and the table-driven step when it is 0 (R339). -/
def Obligations.CrcupdCompletes : Prop :=
  ∀ (s : State) (x y : BitVec 4) (imm : BitVec 16), (Instr.crcupd x y imm).wellFormed s.nctx s.ncrc = true →
    (s.crc x.toNat).cfgd = true → s.a0.toNat + s.a1.toNat ≤ s.platform.dmemSize →
    ∃ t, s.runsOk (.crcupd x y imm) t ∧
      (let u := s.crc x.toNat
       let bytes := (List.range s.a1.toNat).map fun j => s.readByte (s.a0.toNat + j)
       t.crc x.toNat = { u with
         reg := if imm.getLsbD 0 = true then bytes.foldl (fun r b => crcByte u.width u.poly u.refin r b) u.reg
           else bytes.foldl (fun r b => crcByteT u.width u.refin u.table r b) u.reg }) ∧
      s.sameCtxs t ∧ s.sameCrcsBut x.toNat t ∧ s.sameDmem t ∧ t.result = s.result

/-- CRCFIN completes on a configured unit and a destination in bounds: the value stands at A2 in ceil(width/8) big-endian bytes with the unused
top bits 0, RESULT holds it modulo 2^64, the register is back at init (R334, R341). -/
def Obligations.CrcfinCompletes : Prop :=
  ∀ (s : State) (x y : BitVec 4) (imm : BitVec 16), (Instr.crcfin x y imm).wellFormed s.nctx s.ncrc = true →
    (s.crc x.toNat).cfgd = true → (s.crc x.toNat).wf →
    s.a2.toNat + ((s.crc x.toNat).width + 7) / 8 ≤ s.platform.dmemSize →
    ∃ t, s.runsOk (.crcfin x y imm) t ∧
      (let u := s.crc x.toNat
       let nb := (u.width + 7) / 8
       let v := (if u.refout = true then reflect u.reg u.width else u.reg) ^^^ u.xorout
       v.toNat < 2 ^ u.width ∧ (∀ j, j < nb → t.readByte (s.a2.toNat + j) = BitVec.ofNat 8 (v.toNat / 256 ^ (nb - 1 - j))) ∧
       s.sameDmemOutside s.a2.toNat nb t ∧ t.result = BitVec.ofNat 64 v.toNat ∧ t.crc x.toNat = { u with reg := u.init }) ∧
      s.sameCtxs t ∧ s.sameCrcsBut x.toNat t

/-- Path equivalence (R340): for every valid unit and every window, CRCUPD by the bit-serial path and by the table-driven path have the same
outcome. -/
def Obligations.CrcPathEquivalence : Prop :=
  ∀ (s : State) (x : BitVec 4), (s.crc x.toNat).wf → exec (.crcupd x 0 1) s = exec (.crcupd x 0 0) s

/-- The worked values of R344 and the table examples of R335. -/
def Obligations.CrcWorkedValues : Prop :=
  let unit := fun (w : Nat) (poly init xorout : CrcWord) (refin refout : Bool) =>
    ({ cfgd := true, width := w, poly := poly, init := init, xorout := xorout, refin := refin, refout := refout, reg := init,
       table := crcTable w poly refin } : CrcUnit)
  let crc32 := unit 32 0x04C11DB7 0xFFFFFFFF 0xFFFFFFFF true true
  let xmodem := unit 16 0x1021 0 0 false false
  let darc := unit 82 0x0308C0111011401440411 0 0 true true
  let digits : List Byte := [0x31, 0x32, 0x33, 0x34, 0x35, 0x36, 0x37, 0x38, 0x39]
  (∀ serial, (crc32.feed serial [0x31]).reg = 0x1208C43E ∧ (crc32.feed serial digits).value = 0xCBF43926 ∧
    (crc32.feed serial []).value = 0 ∧ (crc32.feed serial [0x61]).value = 0xE8B7BE43 ∧
    (xmodem.feed serial digits).value = 0x31C3 ∧
    beEncode (darc.feed serial digits).value.toNat darc.outLen =
      [0x00, 0x9E, 0xA8, 0x3F, 0x62, 0x50, 0x23, 0x80, 0x1F, 0xD6, 0x12] ∧
    (darc.feed serial digits).value.setWidth 64 = 0x3F625023801FD612#64) ∧
  wordAt crc32.table 1 = 0x77073096 ∧ wordAt crc32.table 128 = 0xEDB88320 ∧ wordAt crc32.table 255 = 0x2D02EF8D ∧
  wordAt xmodem.table 1 = 0x1021 ∧ wordAt xmodem.table 255 = 0x1EF0

/-- No command reads the fields of a context that is not READY, nor those of a CRC unit that is not configured: with other contents there, every
command has the same outcome, the other contents still in place unless the command writes the whole slot or unit (R59, R60, U6, U7). -/
def Obligations.UnusableFieldsUnread : Prop :=
  ∀ (i : Instr) (s : State) (k : Nat),
    (∀ c : Ctx, k < s.nctx → (s.ctx k).st ≠ .ready → c.st = (s.ctx k).st →
      ∃ t, exec i s = .next t ∧
        exec i (s.setCtx k c) = .next (if t.err = .ok ∧ ctxTarget i = some k then t else t.setCtx k c)) ∧
    (∀ d : CrcUnit, k < s.ncrc → (s.crc k).cfgd = false → d.cfgd = false →
      ∃ t, exec i s = .next t ∧
        exec i (s.setCrc k d) = .next (if t.err = .ok ∧ crcTarget i = some k then t else t.setCrc k d))

/-- A command reads no byte of DMEM outside its window, and no byte at all if its window is a destination: with other bytes there, its outcome is
the same, and every byte that agreed before agrees after (R71, R72, R376). -/
def Obligations.CommandsReadOnlyTheirWindow : Prop :=
  ∀ (i : Instr) (s : State) (m : Memory),
    (writesDmem i = false → ∀ off n, dmemWindow s i = some (off, n) → ∀ a, off ≤ a → a < off + n →
      ({ s with dmem := m } : State).readByte a = s.readByte a) →
    ∃ t t', exec i s = .next t ∧ exec i { s with dmem := m } = .next t' ∧ t' = { t with dmem := t'.dmem } ∧
      ∀ a, ({ s with dmem := m } : State).readByte a = s.readByte a → t'.readByte a = t.readByte a

end
end

