-- ==== Sys2Proof/Laws/State.lean ====
section
/-! SUPPORT. The small lemmas of the state's named updates: one for each field of each update, true by definition, and the readings
of context slots, CRC units, DMEM and bounds through them. -/

namespace Sys2Proof.Machine

section Fields

variable (s : State)

@[simp] theorem State.setCtx_platform (k : Nat) (c : Ctx) : (s.setCtx k c).platform = s.platform := rfl
@[simp] theorem State.setCtx_err (k : Nat) (c : Ctx) : (s.setCtx k c).err = s.err := rfl
@[simp] theorem State.setCtx_sticky (k : Nat) (c : Ctx) : (s.setCtx k c).sticky = s.sticky := rfl
@[simp] theorem State.setCtx_busy (k : Nat) (c : Ctx) : (s.setCtx k c).busy = s.busy := rfl
@[simp] theorem State.setCtx_a0 (k : Nat) (c : Ctx) : (s.setCtx k c).a0 = s.a0 := rfl
@[simp] theorem State.setCtx_a1 (k : Nat) (c : Ctx) : (s.setCtx k c).a1 = s.a1 := rfl
@[simp] theorem State.setCtx_a2 (k : Nat) (c : Ctx) : (s.setCtx k c).a2 = s.a2 := rfl
@[simp] theorem State.setCtx_a3 (k : Nat) (c : Ctx) : (s.setCtx k c).a3 = s.a3 := rfl
@[simp] theorem State.setCtx_result (k : Nat) (c : Ctx) : (s.setCtx k c).result = s.result := rfl
@[simp] theorem State.setCtx_ctxs (k : Nat) (c : Ctx) : (s.setCtx k c).ctxs = s.ctxs.set k c := rfl
@[simp] theorem State.setCtx_crcs (k : Nat) (c : Ctx) : (s.setCtx k c).crcs = s.crcs := rfl
@[simp] theorem State.setCtx_dmem (k : Nat) (c : Ctx) : (s.setCtx k c).dmem = s.dmem := rfl
@[simp] theorem State.setCtx_dmemEpoch (k : Nat) (c : Ctx) : (s.setCtx k c).dmemEpoch = s.dmemEpoch := rfl
@[simp] theorem State.setCtx_draws (k : Nat) (c : Ctx) : (s.setCtx k c).draws = s.draws := rfl
@[simp] theorem State.setCtx_busData (k : Nat) (c : Ctx) : (s.setCtx k c).busData = s.busData := rfl
@[simp] theorem State.setCtx_program (k : Nat) (c : Ctx) : (s.setCtx k c).program = s.program := rfl

@[simp] theorem State.setCrc_platform (u : Nat) (c : CrcUnit) : (s.setCrc u c).platform = s.platform := rfl
@[simp] theorem State.setCrc_err (u : Nat) (c : CrcUnit) : (s.setCrc u c).err = s.err := rfl
@[simp] theorem State.setCrc_sticky (u : Nat) (c : CrcUnit) : (s.setCrc u c).sticky = s.sticky := rfl
@[simp] theorem State.setCrc_busy (u : Nat) (c : CrcUnit) : (s.setCrc u c).busy = s.busy := rfl
@[simp] theorem State.setCrc_a0 (u : Nat) (c : CrcUnit) : (s.setCrc u c).a0 = s.a0 := rfl
@[simp] theorem State.setCrc_a1 (u : Nat) (c : CrcUnit) : (s.setCrc u c).a1 = s.a1 := rfl
@[simp] theorem State.setCrc_a2 (u : Nat) (c : CrcUnit) : (s.setCrc u c).a2 = s.a2 := rfl
@[simp] theorem State.setCrc_a3 (u : Nat) (c : CrcUnit) : (s.setCrc u c).a3 = s.a3 := rfl
@[simp] theorem State.setCrc_result (u : Nat) (c : CrcUnit) : (s.setCrc u c).result = s.result := rfl
@[simp] theorem State.setCrc_ctxs (u : Nat) (c : CrcUnit) : (s.setCrc u c).ctxs = s.ctxs := rfl
@[simp] theorem State.setCrc_crcs (u : Nat) (c : CrcUnit) : (s.setCrc u c).crcs = s.crcs.set u c := rfl
@[simp] theorem State.setCrc_dmem (u : Nat) (c : CrcUnit) : (s.setCrc u c).dmem = s.dmem := rfl
@[simp] theorem State.setCrc_dmemEpoch (u : Nat) (c : CrcUnit) : (s.setCrc u c).dmemEpoch = s.dmemEpoch := rfl
@[simp] theorem State.setCrc_draws (u : Nat) (c : CrcUnit) : (s.setCrc u c).draws = s.draws := rfl
@[simp] theorem State.setCrc_busData (u : Nat) (c : CrcUnit) : (s.setCrc u c).busData = s.busData := rfl
@[simp] theorem State.setCrc_program (u : Nat) (c : CrcUnit) : (s.setCrc u c).program = s.program := rfl

@[simp] theorem State.setResult_platform (v : Word64) : (s.setResult v).platform = s.platform := rfl
@[simp] theorem State.setResult_err (v : Word64) : (s.setResult v).err = s.err := rfl
@[simp] theorem State.setResult_sticky (v : Word64) : (s.setResult v).sticky = s.sticky := rfl
@[simp] theorem State.setResult_busy (v : Word64) : (s.setResult v).busy = s.busy := rfl
@[simp] theorem State.setResult_a0 (v : Word64) : (s.setResult v).a0 = s.a0 := rfl
@[simp] theorem State.setResult_a1 (v : Word64) : (s.setResult v).a1 = s.a1 := rfl
@[simp] theorem State.setResult_a2 (v : Word64) : (s.setResult v).a2 = s.a2 := rfl
@[simp] theorem State.setResult_a3 (v : Word64) : (s.setResult v).a3 = s.a3 := rfl
@[simp] theorem State.setResult_result (v : Word64) : (s.setResult v).result = v := rfl
@[simp] theorem State.setResult_ctxs (v : Word64) : (s.setResult v).ctxs = s.ctxs := rfl
@[simp] theorem State.setResult_crcs (v : Word64) : (s.setResult v).crcs = s.crcs := rfl
@[simp] theorem State.setResult_dmem (v : Word64) : (s.setResult v).dmem = s.dmem := rfl
@[simp] theorem State.setResult_dmemEpoch (v : Word64) : (s.setResult v).dmemEpoch = s.dmemEpoch := rfl
@[simp] theorem State.setResult_draws (v : Word64) : (s.setResult v).draws = s.draws := rfl
@[simp] theorem State.setResult_busData (v : Word64) : (s.setResult v).busData = s.busData := rfl
@[simp] theorem State.setResult_program (v : Word64) : (s.setResult v).program = s.program := rfl

@[simp] theorem State.memWrite_platform (a : Nat) (l : List Byte) : (s.memWrite a l).platform = s.platform := rfl
@[simp] theorem State.memWrite_err (a : Nat) (l : List Byte) : (s.memWrite a l).err = s.err := rfl
@[simp] theorem State.memWrite_sticky (a : Nat) (l : List Byte) : (s.memWrite a l).sticky = s.sticky := rfl
@[simp] theorem State.memWrite_busy (a : Nat) (l : List Byte) : (s.memWrite a l).busy = s.busy := rfl
@[simp] theorem State.memWrite_a0 (a : Nat) (l : List Byte) : (s.memWrite a l).a0 = s.a0 := rfl
@[simp] theorem State.memWrite_a1 (a : Nat) (l : List Byte) : (s.memWrite a l).a1 = s.a1 := rfl
@[simp] theorem State.memWrite_a2 (a : Nat) (l : List Byte) : (s.memWrite a l).a2 = s.a2 := rfl
@[simp] theorem State.memWrite_a3 (a : Nat) (l : List Byte) : (s.memWrite a l).a3 = s.a3 := rfl
@[simp] theorem State.memWrite_result (a : Nat) (l : List Byte) : (s.memWrite a l).result = s.result := rfl
@[simp] theorem State.memWrite_ctxs (a : Nat) (l : List Byte) : (s.memWrite a l).ctxs = s.ctxs := rfl
@[simp] theorem State.memWrite_crcs (a : Nat) (l : List Byte) : (s.memWrite a l).crcs = s.crcs := rfl
@[simp] theorem State.memWrite_dmem (a : Nat) (l : List Byte) : (s.memWrite a l).dmem = s.dmem.setBytes a l := rfl
@[simp] theorem State.memWrite_dmemEpoch (a : Nat) (l : List Byte) : (s.memWrite a l).dmemEpoch = s.dmemEpoch := rfl
@[simp] theorem State.memWrite_draws (a : Nat) (l : List Byte) : (s.memWrite a l).draws = s.draws := rfl
@[simp] theorem State.memWrite_busData (a : Nat) (l : List Byte) : (s.memWrite a l).busData = s.busData := rfl
@[simp] theorem State.memWrite_program (a : Nat) (l : List Byte) : (s.memWrite a l).program = s.program := rfl

@[simp] theorem State.finish_platform : (s.finish).platform = s.platform := rfl
@[simp] theorem State.finish_err : (s.finish).err = .ok := rfl
@[simp] theorem State.finish_sticky : (s.finish).sticky = s.sticky := rfl
@[simp] theorem State.finish_busy : (s.finish).busy = false := rfl
@[simp] theorem State.finish_a0 : (s.finish).a0 = s.a0 := rfl
@[simp] theorem State.finish_a1 : (s.finish).a1 = s.a1 := rfl
@[simp] theorem State.finish_a2 : (s.finish).a2 = s.a2 := rfl
@[simp] theorem State.finish_a3 : (s.finish).a3 = s.a3 := rfl
@[simp] theorem State.finish_result : (s.finish).result = s.result := rfl
@[simp] theorem State.finish_ctxs : (s.finish).ctxs = s.ctxs := rfl
@[simp] theorem State.finish_crcs : (s.finish).crcs = s.crcs := rfl
@[simp] theorem State.finish_dmem : (s.finish).dmem = s.dmem := rfl
@[simp] theorem State.finish_dmemEpoch : (s.finish).dmemEpoch = s.dmemEpoch := rfl
@[simp] theorem State.finish_draws : (s.finish).draws = s.draws := rfl
@[simp] theorem State.finish_busData : (s.finish).busData = s.busData := rfl
@[simp] theorem State.finish_program : (s.finish).program = s.program := rfl

@[simp] theorem State.raise_platform (e : ErrCode) : (s.raise e).platform = s.platform := rfl
@[simp] theorem State.raise_err (e : ErrCode) : (s.raise e).err = e := rfl
@[simp] theorem State.raise_sticky (e : ErrCode) : (s.raise e).sticky = true := rfl
@[simp] theorem State.raise_busy (e : ErrCode) : (s.raise e).busy = false := rfl
@[simp] theorem State.raise_a0 (e : ErrCode) : (s.raise e).a0 = s.a0 := rfl
@[simp] theorem State.raise_a1 (e : ErrCode) : (s.raise e).a1 = s.a1 := rfl
@[simp] theorem State.raise_a2 (e : ErrCode) : (s.raise e).a2 = s.a2 := rfl
@[simp] theorem State.raise_a3 (e : ErrCode) : (s.raise e).a3 = s.a3 := rfl
@[simp] theorem State.raise_result (e : ErrCode) : (s.raise e).result = s.result := rfl
@[simp] theorem State.raise_ctxs (e : ErrCode) : (s.raise e).ctxs = s.ctxs := rfl
@[simp] theorem State.raise_crcs (e : ErrCode) : (s.raise e).crcs = s.crcs := rfl
@[simp] theorem State.raise_dmem (e : ErrCode) : (s.raise e).dmem = s.dmem := rfl
@[simp] theorem State.raise_dmemEpoch (e : ErrCode) : (s.raise e).dmemEpoch = s.dmemEpoch := rfl
@[simp] theorem State.raise_draws (e : ErrCode) : (s.raise e).draws = s.draws := rfl
@[simp] theorem State.raise_busData (e : ErrCode) : (s.raise e).busData = s.busData := rfl
@[simp] theorem State.raise_program (e : ErrCode) : (s.raise e).program = s.program := rfl

@[simp] theorem State.startCommand_platform : (s.startCommand).platform = s.platform := rfl
@[simp] theorem State.startCommand_err : (s.startCommand).err = s.err := rfl
@[simp] theorem State.startCommand_sticky : (s.startCommand).sticky = s.sticky := rfl
@[simp] theorem State.startCommand_busy : (s.startCommand).busy = true := rfl
@[simp] theorem State.startCommand_a0 : (s.startCommand).a0 = s.a0 := rfl
@[simp] theorem State.startCommand_a1 : (s.startCommand).a1 = s.a1 := rfl
@[simp] theorem State.startCommand_a2 : (s.startCommand).a2 = s.a2 := rfl
@[simp] theorem State.startCommand_a3 : (s.startCommand).a3 = s.a3 := rfl
@[simp] theorem State.startCommand_result : (s.startCommand).result = s.result := rfl
@[simp] theorem State.startCommand_ctxs : (s.startCommand).ctxs = s.ctxs := rfl
@[simp] theorem State.startCommand_crcs : (s.startCommand).crcs = s.crcs := rfl
@[simp] theorem State.startCommand_dmem : (s.startCommand).dmem = s.dmem := rfl
@[simp] theorem State.startCommand_dmemEpoch : (s.startCommand).dmemEpoch = s.dmemEpoch := rfl
@[simp] theorem State.startCommand_draws : (s.startCommand).draws = s.draws := rfl
@[simp] theorem State.startCommand_busData : (s.startCommand).busData = s.busData := rfl
@[simp] theorem State.startCommand_program : (s.startCommand).program = s.program := rfl

@[simp] theorem State.draw_platform : (s.draw).platform = s.platform := rfl
@[simp] theorem State.draw_err : (s.draw).err = s.err := rfl
@[simp] theorem State.draw_sticky : (s.draw).sticky = s.sticky := rfl
@[simp] theorem State.draw_busy : (s.draw).busy = s.busy := rfl
@[simp] theorem State.draw_a0 : (s.draw).a0 = s.a0 := rfl
@[simp] theorem State.draw_a1 : (s.draw).a1 = s.a1 := rfl
@[simp] theorem State.draw_a2 : (s.draw).a2 = s.a2 := rfl
@[simp] theorem State.draw_a3 : (s.draw).a3 = s.a3 := rfl
@[simp] theorem State.draw_result : (s.draw).result = s.result := rfl
@[simp] theorem State.draw_ctxs : (s.draw).ctxs = s.ctxs := rfl
@[simp] theorem State.draw_crcs : (s.draw).crcs = s.crcs := rfl
@[simp] theorem State.draw_dmem : (s.draw).dmem = s.dmem := rfl
@[simp] theorem State.draw_dmemEpoch : (s.draw).dmemEpoch = s.dmemEpoch := rfl
@[simp] theorem State.draw_draws : (s.draw).draws = s.draws + 1 := rfl
@[simp] theorem State.draw_busData : (s.draw).busData = s.busData := rfl
@[simp] theorem State.draw_program : (s.draw).program = s.program := rfl

end Fields

section Readings

variable (s : State)

@[simp] theorem State.setCtx_nctx (k : Nat) (c : Ctx) : (s.setCtx k c).nctx = s.nctx := by simp [State.nctx]
@[simp] theorem State.setCtx_ncrc (k : Nat) (c : Ctx) : (s.setCtx k c).ncrc = s.ncrc := rfl
@[simp] theorem State.setCtx_crc (k : Nat) (c : Ctx) (j : Nat) : (s.setCtx k c).crc j = s.crc j := rfl
@[simp] theorem State.setCtx_readByte (k : Nat) (c : Ctx) (j : Nat) : (s.setCtx k c).readByte j = s.readByte j := rfl
@[simp] theorem State.setCtx_memRead (k : Nat) (c : Ctx) (j n : Nat) : (s.setCtx k c).memRead j n = s.memRead j n := rfl
@[simp] theorem State.setCtx_inBounds (k : Nat) (c : Ctx) (j n : Nat) : (s.setCtx k c).inBounds j n = s.inBounds j n := rfl

@[simp] theorem State.setCrc_nctx (u : Nat) (c : CrcUnit) : (s.setCrc u c).nctx = s.nctx := rfl
@[simp] theorem State.setCrc_ctx (u : Nat) (c : CrcUnit) (j : Nat) : (s.setCrc u c).ctx j = s.ctx j := rfl
@[simp] theorem State.setCrc_ncrc (u : Nat) (c : CrcUnit) : (s.setCrc u c).ncrc = s.ncrc := by simp [State.ncrc]
@[simp] theorem State.setCrc_readByte (u : Nat) (c : CrcUnit) (j : Nat) : (s.setCrc u c).readByte j = s.readByte j := rfl
@[simp] theorem State.setCrc_memRead (u : Nat) (c : CrcUnit) (j n : Nat) : (s.setCrc u c).memRead j n = s.memRead j n := rfl
@[simp] theorem State.setCrc_inBounds (u : Nat) (c : CrcUnit) (j n : Nat) : (s.setCrc u c).inBounds j n = s.inBounds j n := rfl

@[simp] theorem State.setResult_nctx (v : Word64) : (s.setResult v).nctx = s.nctx := rfl
@[simp] theorem State.setResult_ctx (v : Word64) (j : Nat) : (s.setResult v).ctx j = s.ctx j := rfl
@[simp] theorem State.setResult_ncrc (v : Word64) : (s.setResult v).ncrc = s.ncrc := rfl
@[simp] theorem State.setResult_crc (v : Word64) (j : Nat) : (s.setResult v).crc j = s.crc j := rfl
@[simp] theorem State.setResult_readByte (v : Word64) (j : Nat) : (s.setResult v).readByte j = s.readByte j := rfl
@[simp] theorem State.setResult_memRead (v : Word64) (j n : Nat) : (s.setResult v).memRead j n = s.memRead j n := rfl
@[simp] theorem State.setResult_inBounds (v : Word64) (j n : Nat) : (s.setResult v).inBounds j n = s.inBounds j n := rfl

@[simp] theorem State.memWrite_nctx (a : Nat) (l : List Byte) : (s.memWrite a l).nctx = s.nctx := rfl
@[simp] theorem State.memWrite_ctx (a : Nat) (l : List Byte) (j : Nat) : (s.memWrite a l).ctx j = s.ctx j := rfl
@[simp] theorem State.memWrite_ncrc (a : Nat) (l : List Byte) : (s.memWrite a l).ncrc = s.ncrc := rfl
@[simp] theorem State.memWrite_crc (a : Nat) (l : List Byte) (j : Nat) : (s.memWrite a l).crc j = s.crc j := rfl
@[simp] theorem State.memWrite_inBounds (a : Nat) (l : List Byte) (j n : Nat) : (s.memWrite a l).inBounds j n = s.inBounds j n := rfl

@[simp] theorem State.finish_nctx : (s.finish).nctx = s.nctx := rfl
@[simp] theorem State.finish_ctx (j : Nat) : (s.finish).ctx j = s.ctx j := rfl
@[simp] theorem State.finish_ncrc : (s.finish).ncrc = s.ncrc := rfl
@[simp] theorem State.finish_crc (j : Nat) : (s.finish).crc j = s.crc j := rfl
@[simp] theorem State.finish_readByte (j : Nat) : (s.finish).readByte j = s.readByte j := rfl
@[simp] theorem State.finish_memRead (j n : Nat) : (s.finish).memRead j n = s.memRead j n := rfl
@[simp] theorem State.finish_inBounds (j n : Nat) : (s.finish).inBounds j n = s.inBounds j n := rfl

@[simp] theorem State.raise_nctx (e : ErrCode) : (s.raise e).nctx = s.nctx := rfl
@[simp] theorem State.raise_ctx (e : ErrCode) (j : Nat) : (s.raise e).ctx j = s.ctx j := rfl
@[simp] theorem State.raise_ncrc (e : ErrCode) : (s.raise e).ncrc = s.ncrc := rfl
@[simp] theorem State.raise_crc (e : ErrCode) (j : Nat) : (s.raise e).crc j = s.crc j := rfl
@[simp] theorem State.raise_readByte (e : ErrCode) (j : Nat) : (s.raise e).readByte j = s.readByte j := rfl
@[simp] theorem State.raise_memRead (e : ErrCode) (j n : Nat) : (s.raise e).memRead j n = s.memRead j n := rfl
@[simp] theorem State.raise_inBounds (e : ErrCode) (j n : Nat) : (s.raise e).inBounds j n = s.inBounds j n := rfl

@[simp] theorem State.startCommand_nctx : (s.startCommand).nctx = s.nctx := rfl
@[simp] theorem State.startCommand_ctx (j : Nat) : (s.startCommand).ctx j = s.ctx j := rfl
@[simp] theorem State.startCommand_ncrc : (s.startCommand).ncrc = s.ncrc := rfl
@[simp] theorem State.startCommand_crc (j : Nat) : (s.startCommand).crc j = s.crc j := rfl
@[simp] theorem State.startCommand_readByte (j : Nat) : (s.startCommand).readByte j = s.readByte j := rfl
@[simp] theorem State.startCommand_memRead (j n : Nat) : (s.startCommand).memRead j n = s.memRead j n := rfl
@[simp] theorem State.startCommand_inBounds (j n : Nat) : (s.startCommand).inBounds j n = s.inBounds j n := rfl

@[simp] theorem State.draw_nctx : (s.draw).nctx = s.nctx := rfl
@[simp] theorem State.draw_ctx (j : Nat) : (s.draw).ctx j = s.ctx j := rfl
@[simp] theorem State.draw_ncrc : (s.draw).ncrc = s.ncrc := rfl
@[simp] theorem State.draw_crc (j : Nat) : (s.draw).crc j = s.crc j := rfl
@[simp] theorem State.draw_readByte (j : Nat) : (s.draw).readByte j = s.readByte j := rfl
@[simp] theorem State.draw_memRead (j n : Nat) : (s.draw).memRead j n = s.memRead j n := rfl
@[simp] theorem State.draw_inBounds (j n : Nat) : (s.draw).inBounds j n = s.inBounds j n := rfl

@[simp] theorem State.hwReset_platform : (s.hwReset).platform = s.platform := rfl
@[simp] theorem State.hwReset_nctx : (s.hwReset).nctx = s.nctx := by simp [State.nctx, State.hwReset]
@[simp] theorem State.hwReset_ncrc : (s.hwReset).ncrc = s.ncrc := by simp [State.ncrc, State.hwReset]
@[simp] theorem State.resetOn_nctx (p : Platform) (n m : SlotCount) : (State.resetOn p n m).nctx = n.val := by
  simp [State.nctx, State.resetOn]
@[simp] theorem State.resetOn_ncrc (p : Platform) (n m : SlotCount) : (State.resetOn p n m).ncrc = m.val := by
  simp [State.ncrc, State.resetOn]

/-- The parameters' ranges rest on the platform and the two counts alone. -/
theorem State.paramsOk_congr {t : State} (h : s.paramsOk) (hp : t.platform = s.platform) (hn : t.nctx = s.nctx)
    (hm : t.ncrc = s.ncrc) : t.paramsOk := by
  unfold State.paramsOk
  rw [hp, hn, hm]
  exact h

/-- Reading the slot that was written, when the slot exists. -/
theorem State.ctx_setCtx_same {k : Nat} (h : k < s.nctx) (c : Ctx) : (s.setCtx k c).ctx k = c := by
  simp [State.ctx, State.nctx] at *; simp [h]

/-- Reading another slot than the one written. -/
theorem State.ctx_setCtx_ne {k j : Nat} (h : j ≠ k) (c : Ctx) : (s.setCtx k c).ctx j = s.ctx j := by
  simp [State.ctx, Ne.symm h]

/-- Reading the unit that was written, when the unit exists. -/
theorem State.crc_setCrc_same {u : Nat} (h : u < s.ncrc) (c : CrcUnit) : (s.setCrc u c).crc u = c := by
  simp [State.crc, State.ncrc] at *; simp [h]

/-- Reading another unit than the one written. -/
theorem State.crc_setCrc_ne {u j : Nat} (h : j ≠ u) (c : CrcUnit) : (s.setCrc u c).crc j = s.crc j := by
  simp [State.crc, Ne.symm h]

/-- An existing slot is an entry of the slot list. -/
theorem State.ctx_mem {k : Nat} (h : k < s.nctx) : s.ctx k ∈ s.ctxs := by
  simp only [State.nctx] at h
  simp [State.ctx, h]

/-- An existing unit is an entry of the unit list. -/
theorem State.crc_mem {u : Nat} (h : u < s.ncrc) : s.crc u ∈ s.crcs := by
  simp only [State.ncrc] at h
  simp [State.crc, h]

end Readings

end Sys2Proof.Machine
end

