-- ==== Sys2Proof/Laws/Memory.lean ====
section
/-! SUPPORT. The laws of DMEM: a read after a write, and that every memory operation keeps the canonical form. -/

namespace Sys2Proof.Machine

theorem Memory.get_set_same (m : Memory) (a : Nat) (b : Byte) : (m.set a b).get a = some b := by
  induction m with
  | nil => simp [Memory.set, Memory.get]
  | cons p m ih =>
    obtain ⟨k, v⟩ := p
    simp only [Memory.set]
    split
    · simp [Memory.get]
    · split
      · simp [Memory.get]
      · rename_i h; simp [Memory.get, Ne.symm h, ih]

theorem Memory.get_set_ne (m : Memory) {a c : Nat} (h : c ≠ a) (b : Byte) : (m.set a b).get c = m.get c := by
  induction m with
  | nil => simp [Memory.set, Memory.get, Ne.symm h]
  | cons p m ih =>
    obtain ⟨k, v⟩ := p
    simp only [Memory.set]
    split
    · simp [Memory.get, Ne.symm h]
    · split
      · rename_i _ hk; subst hk; simp [Memory.get, Ne.symm h]
      · simp [Memory.get, ih]

/-- A byte outside the bytes written reads as before. -/
theorem Memory.get_setBytes_outside (l : List Byte) (m : Memory) {a c : Nat} (h : c < a ∨ a + l.length ≤ c) :
    (m.setBytes a l).get c = m.get c := by
  induction l generalizing m a with
  | nil => rfl
  | cons b l ih =>
    simp only [List.length_cons] at h
    rw [Memory.setBytes, ih _ (by omega), Memory.get_set_ne _ (by omega)]

/-- Byte i of the bytes written reads as that byte. -/
theorem Memory.get_setBytes_inside (l : List Byte) (m : Memory) (a i : Nat) (h : i < l.length) :
    (m.setBytes a l).get (a + i) = some l[i] := by
  induction l generalizing m a i with
  | nil => simp at h
  | cons b l ih =>
    rw [Memory.setBytes]
    cases i with
    | zero => rw [Memory.get_setBytes_outside _ _ (by omega), Nat.add_zero, Memory.get_set_same]; rfl
    | succ i =>
      have := ih (m.set a b) (a + 1) i (by simpa using h)
      rw [show a + (i + 1) = a + 1 + i by omega, this]; rfl

theorem Memory.mem_set {m : Memory} {a : Nat} {b : Byte} {x : Host.Cell} (h : x ∈ m.set a b) : x = (a, b) ∨ x ∈ m := by
  induction m with
  | nil => simpa [Memory.set] using h
  | cons p m ih =>
    obtain ⟨k, v⟩ := p
    simp only [Memory.set] at h
    split at h
    · simpa using h
    · split at h
      · rcases List.mem_cons.1 h with h | h
        · exact .inl h
        · exact .inr (List.mem_cons_of_mem _ h)
      · rcases List.mem_cons.1 h with h | h
        · exact .inr (by simp [h])
        · exact (ih h).imp_right (List.mem_cons_of_mem _)

/-- Setting a byte keeps the canonical form. -/
theorem Memory.wf_set {m : Memory} (h : m.wf) (a : Nat) (b : Byte) : (m.set a b).wf := by
  induction m with
  | nil => simp [Memory.set, Memory.wf]
  | cons p m ih =>
    obtain ⟨k, v⟩ := p
    have hp := List.pairwise_cons.1 h
    simp only [Memory.set]
    split
    · rename_i hk
      refine List.pairwise_cons.2 ⟨fun x hx => ?_, h⟩
      rcases List.mem_cons.1 hx with rfl | hx
      · exact hk
      · exact Nat.lt_trans hk (hp.1 x hx)
    · split
      · rename_i _ hk; subst hk; exact List.pairwise_cons.2 ⟨hp.1, hp.2⟩
      · refine List.pairwise_cons.2 ⟨fun x hx => ?_, ih hp.2⟩
        rcases Memory.mem_set hx with rfl | hx
        · show k < a; omega
        · exact hp.1 x hx

/-- Setting bytes keeps the canonical form. -/
theorem Memory.wf_setBytes {m : Memory} (h : m.wf) (a : Nat) (l : List Byte) : (m.setBytes a l).wf := by
  induction l generalizing m a with
  | nil => exact h
  | cons b l ih => exact ih (Memory.wf_set h a b) (a + 1)

/-- Setting bytes below a bound keeps every listed address below it. -/
theorem Memory.inside_setBytes {m : Memory} {n : Nat} (h : ∀ x ∈ m, x.1 < n) (a : Nat) (l : List Byte)
    (hl : a + l.length ≤ n) : ∀ x ∈ m.setBytes a l, x.1 < n := by
  induction l generalizing m a with
  | nil => exact h
  | cons b l ih =>
    simp only [List.length_cons] at hl
    refine ih (fun x hx => ?_) (a + 1) (by omega)
    rcases Memory.mem_set hx with rfl | hx
    · show a < n; omega
    · exact h x hx

/-- A byte that memWrite does not reach reads as before. -/
theorem State.readByte_memWrite_outside (s : State) (l : List Byte) {a c : Nat} (h : c < a ∨ a + l.length ≤ c) :
    (s.memWrite a l).readByte c = s.readByte c := by
  simp [State.readByte, Memory.get_setBytes_outside l s.dmem h]

/-- A byte that memWrite reaches reads as the byte written. -/
theorem State.readByte_memWrite_inside (s : State) (l : List Byte) (a i : Nat) (h : i < l.length) :
    (s.memWrite a l).readByte (a + i) = l[i] := by
  simp [State.readByte, Memory.get_setBytes_inside l s.dmem a i h]

@[simp] theorem State.length_memRead (s : State) (a n : Nat) : (s.memRead a n).length = n := by simp [State.memRead]

/-- A window read after it was written gives the bytes written. -/
theorem State.memRead_memWrite_same (s : State) (a : Nat) (l : List Byte) : (s.memWrite a l).memRead a l.length = l := by
  refine List.ext_getElem (by simp) fun i h1 h2 => ?_
  simp only [State.memRead, List.getElem_map, List.getElem_range]
  exact s.readByte_memWrite_inside l a i h2

/-- Two windows that lie side by side read as one. -/
theorem State.memRead_append (s : State) (a n m : Nat) : s.memRead a (n + m) = s.memRead a n ++ s.memRead (a + n) m := by
  simp [State.memRead, List.range_add, Nat.add_assoc]

end Sys2Proof.Machine
end

