-- ==== Sys2Proof/Laws/Bytes.lean ====
section
/-! SUPPORT. The lengths of byte and word sequences, the decoding of encoded numbers, and the bits of a reflected value. -/

namespace Sys2Proof.Machine

@[simp] theorem length_zeros (n : Nat) : (zeros n).length = n := by simp [zeros]

@[simp] theorem length_leEncode (v n : Nat) : (leEncode v n).length = n := by
  induction n generalizing v with
  | zero => rfl
  | succ n ih => simp [leEncode, ih]

@[simp] theorem length_beEncode (v n : Nat) : (beEncode v n).length = n := by simp [beEncode]

/-- Little-endian bytes decode to the value modulo 256^n. -/
theorem leDecode_leEncode (v n : Nat) : leDecode (leEncode v n) = v % 256 ^ n := by
  induction n generalizing v with
  | zero => simp [leEncode, leDecode, Nat.mod_one]
  | succ n ih =>
    simp only [leEncode, leDecode, ih, BitVec.toNat_ofNat]
    rw [show (2 : Nat) ^ 8 = 256 from rfl, Nat.pow_succ', Nat.mod_mul]

@[simp] theorem length_leWords (w nb : Nat) (blk : List Byte) (n : Nat) : (leWords w nb blk n).length = n := by
  simp [leWords]

@[simp] theorem length_leBytes {w : Nat} (nb : Nat) (ws : List (BitVec w)) : (leBytes nb ws).length = ws.length * nb := by
  induction ws with
  | nil => simp [leBytes]
  | cons x ws ih =>
    simp only [leBytes] at ih
    simp [leBytes, ih, Nat.add_mul, Nat.add_comm]

@[simp] theorem length_beBytes {w : Nat} (nb : Nat) (ws : List (BitVec w)) : (beBytes nb ws).length = ws.length * nb := by
  induction ws with
  | nil => simp [beBytes]
  | cons x ws ih =>
    simp only [beBytes] at ih
    simp [beBytes, ih, Nat.add_mul, Nat.add_comm]

/-- Bit i of a reflected value is bit n-1-i (R21). -/
theorem getLsbD_reflect {m : Nat} (v : BitVec m) (n i : Nat) (h : n ≤ m) :
    (reflect v n).getLsbD i = (decide (i < n) && v.getLsbD (n - 1 - i)) := by
  simp only [reflect, BitVec.getLsbD_setWidth, BitVec.getLsbD_reverse, BitVec.getMsbD_eq_getLsbD]
  by_cases hi : i < n
  · have h1 : i < m := by omega
    have h2 : n - 1 - i < n := by omega
    simp [hi, h1, h2]
  · simp [hi]

end Sys2Proof.Machine
end

