-- ==== Sys2Proof/Laws/Checks.lean ====
section
/-! SUPPORT. What the shared checks of a command can do: the priority of R371 and the window check, each said once as a case
distinction, and once for each way through. -/

namespace Sys2Proof.Machine

variable (s : State)

/-- Everything `checked` can do: the field error, the state error, or the body. -/
theorem State.checked_cases (fields : Bool) (e : Option ErrCode) (body : State) :
    (fields = false ∧ s.checked fields e body = s.raise .invalidInput) ∨
    (fields = true ∧ ∃ c, e = some c ∧ s.checked fields e body = s.raise c) ∨
    (fields = true ∧ e = none ∧ s.checked fields e body = body) := by
  cases fields <;> cases e <;> simp [State.checked]

/-- Everything `windowed` can do: BOUNDS, or the body. -/
theorem State.windowed_cases (off n : Nat) (body : State) :
    (s.inBounds off n = false ∧ s.windowed off n body = s.raise .bounds) ∨
    (s.inBounds off n = true ∧ s.windowed off n body = body) := by
  cases h : s.inBounds off n <;> simp [State.windowed, h]

@[simp] theorem State.checked_false (e : Option ErrCode) (body : State) :
    s.checked false e body = s.raise .invalidInput := rfl

@[simp] theorem State.checked_some (c : ErrCode) (body : State) : s.checked true (some c) body = s.raise c := rfl

@[simp] theorem State.checked_none (body : State) : s.checked true none body = body := rfl

theorem State.windowed_in {off n : Nat} (h : s.inBounds off n = true) (body : State) : s.windowed off n body = body := by
  simp [State.windowed, h]

theorem State.windowed_out {off n : Nat} (h : s.inBounds off n = false) (body : State) :
    s.windowed off n body = s.raise .bounds := by simp [State.windowed, h]

/-- InBounds as an inequality (R22). -/
theorem State.inBounds_iff (off n : Nat) : s.inBounds off n = true ↔ off + n ≤ s.platform.dmemSize := by
  simp [State.inBounds]; omega

theorem State.ctxError_none (k : Nat) : s.ctxError k = none ↔ (s.ctx k).st = .ready := by
  unfold State.ctxError; cases (s.ctx k).st <;> simp

theorem State.ctxError_unbound {k : Nat} (h : (s.ctx k).st = .unbound) : s.ctxError k = some .notImplemented := by
  simp [State.ctxError, h]

theorem State.ctxError_undef {k : Nat} (h : (s.ctx k).st = .undef) : s.ctxError k = some .contextUndefined := by
  simp [State.ctxError, h]

theorem State.crcError_none (u : Nat) : s.crcError u = none ↔ (s.crc u).cfgd = true := by
  unfold State.crcError; cases (s.crc u).cfgd <;> simp

@[simp] theorem State.ctxField_zero (x : BitVec 4) : s.ctxField x 0 = decide (x.toNat < s.nctx) := by simp [State.ctxField]

@[simp] theorem State.crcField_zero (x : BitVec 4) : s.crcField x 0 = decide (x.toNat < s.ncrc) := by simp [State.crcField]

end Sys2Proof.Machine
end

