-- ==== Sys2Proof/Laws/Strategy.lean ====
section
/-! SUPPORT. What the strategies and the block buffer keep: the shapes of chaining values, the configuration fields through
absorption and reset, the lengths of outputs, and that every context operation keeps a context well formed. -/

namespace Sys2Proof.Machine

section Shapes

@[simp] theorem length_bmwF {w : Nat} (p : BmwCore w) (h m : List (BitVec w)) : (bmwF p h m).length = 16 := rfl

@[simp] theorem length_bmwCompress {w : Nat} (p : BmwCore w) (h : List (BitVec w)) (blk : List Byte) :
    (bmwCompress p h blk).length = 16 := rfl

@[simp] theorem length_bmwIv {w : Nat} (p : BmwCore w) (base : Nat) : (bmwIv p base).length = 16 := by simp [bmwIv]

@[simp] theorem length_threefishSubkey (nw : Nat) (k t : List Word64) (s : Nat) :
    (threefishSubkey nw k t s).length = nw := by simp [threefishSubkey]

@[simp] theorem length_threefishRound (c : SkeinCore) (k t v : List Word64) (d : Nat) :
    (threefishRound c k t v d).length = c.perm.length := by simp [threefishRound]

/-- The Threefish output has the state's width when the core's permutation does. -/
theorem length_threefish (c : SkeinCore) (hc : c.perm.length = c.nw) (key : List Word64) (t0 t1 : Word64) (m : List Word64) :
    (threefish c key t0 t1 m).length = c.nw := by
  simp [threefish, List.range_succ, hc]

theorem length_skeinUbi (c : SkeinCore) (hc : c.perm.length = c.nw) (h : List Word64) (blk : List Byte) (pos etype : Nat) :
    (skeinUbi c h blk pos etype).length = c.nw := by
  simp [skeinUbi, length_threefish c hc]

theorem length_skeinCompress (c : SkeinCore) (hc : c.perm.length = c.nw) (h : List Word64) (blk : List Byte) (n : Nat) :
    (skeinCompress c h blk n).length = c.nw := length_skeinUbi c hc ..

@[simp] theorem length_tigerCompress (passes : Nat) (h : List Word64) (blk : List Byte) :
    (tigerCompress passes h blk).length = 3 := rfl

/-- Compress gives a chaining value of the algorithm's shape. -/
theorem Ctx.compress_fits (c : Ctx) (blk : List Byte) : (c.compress blk).fits c.alg = true := by
  unfold Ctx.compress
  cases c.alg <;>
    simp [ChainVal.fits, algSmallWords, algWords, length_skeinCompress skeinSmall rfl, length_skeinCompress skeinBig rfl] <;> rfl

/-- The initial value has the algorithm's shape. -/
theorem algIv_fits (a : Alg) : (algIv a).fits a = true := by
  cases a <;> simp [algIv, ChainVal.fits, algSmallWords, algWords] <;> rfl

end Shapes

section Configuration

variable (c : Ctx)

theorem Ctx.sameConfig_refl : c.sameConfig c := by simp [Ctx.sameConfig]

theorem Ctx.sameConfig_trans {c d e : Ctx} (h : c.sameConfig d) (h' : d.sameConfig e) : c.sameConfig e := by
  simp_all [Ctx.sameConfig]

theorem Ctx.flush_config : c.sameConfig c.flush := by simp [Ctx.sameConfig, Ctx.flush]

theorem Ctx.flushDeferred_config : c.sameConfig c.flushDeferred := by
  unfold Ctx.flushDeferred; split
  · exact c.flush_config
  · exact c.sameConfig_refl

theorem Ctx.flushFull_config : c.sameConfig c.flushFull := by
  unfold Ctx.flushFull; split
  · exact c.flush_config
  · exact c.sameConfig_refl

theorem Ctx.push_config (b : Byte) : c.sameConfig (c.push b) := by simp [Ctx.sameConfig, Ctx.push]

/-- Absorption keeps the configuration. -/
theorem Ctx.absorb_config (b : Byte) : c.sameConfig (c.absorb b) :=
  Ctx.sameConfig_trans (Ctx.sameConfig_trans c.flushDeferred_config (Ctx.push_config _ b)) (Ctx.flushFull_config _)

theorem Ctx.absorbAll_config (l : List Byte) : c.sameConfig (c.absorbAll l) := by
  induction l generalizing c with
  | nil => exact c.sameConfig_refl
  | cons b l ih => exact Ctx.sameConfig_trans (c.absorb_config b) (ih _)

theorem Ctx.plainReset_config : c.sameConfig c.plainReset := by simp [Ctx.sameConfig, Ctx.plainReset]

/-- CtxReset keeps the configuration (R146). -/
theorem Ctx.reset_config : c.sameConfig c.reset := by
  unfold Ctx.reset; split
  · exact Ctx.sameConfig_trans c.plainReset_config (Ctx.absorbAll_config _ _)
  · exact c.plainReset_config

theorem Ctx.absorbAll_append (l l' : List Byte) : c.absorbAll (l ++ l') = (c.absorbAll l).absorbAll l' := by
  simp [Ctx.absorbAll]

end Configuration

section WellFormed

theorem algBlockLen_pos (a : Alg) : 0 < algBlockLen a := by cases a <;> decide

/-- A digest length is between 16 bytes and the block length (R111, R302). -/
theorem algDigestLen_range (a : Alg) (t : BitVec 2) : 16 ≤ algDigestLen a t ∧ algDigestLen a t ≤ algBlockLen a := by
  cases a <;> revert t <;> decide

theorem Ctx.wf.blockLen_pos {c : Ctx} (h : c.wf) : 0 < c.blockLen := h.blockLen_eq ▸ algBlockLen_pos c.alg

theorem Ctx.wf.digestLen_range {c : Ctx} (h : c.wf) : 16 ≤ c.digestLen ∧ c.digestLen ≤ c.blockLen := by
  obtain ⟨t, -, ht⟩ := h.digestLen_eq
  rw [ht, h.blockLen_eq]
  exact algDigestLen_range c.alg t

/-- A context with the same configuration, a chaining value of the right shape and a buffer within bounds is well formed too. -/
theorem Ctx.wf_of_config {c d : Ctx} (h : c.wf) (hc : c.sameConfig d) (hcv : d.cv.fits d.alg = true) (hb : d.bufferOk) : d.wf := by
  obtain ⟨-, ha, hB, hL, ht, hp, hh, hk, ho, hl⟩ := hc
  exact
    { blockLen_eq := by rw [hB, ha, h.blockLen_eq]
      digestLen_eq := by rw [hL, ha]; exact h.digestLen_eq
      plain_options := by rw [ha, ht, hp]; exact h.plain_options
      cv_fits := hcv
      buffer_ok := hb
      hmac_ok := by rw [hh, hl, hL, hk, ho, hB]; exact h.hmac_ok }

/-- Absorb as its cases for BMW and Tiger: the byte is buffered, or it fills the block, which is compressed at once (R143). -/
theorem Ctx.absorb_eager {c : Ctx} (hd : algDefer c.alg = false) (b : Byte) :
    c.absorb b = if c.ptr + 1 = c.blockLen then (c.push b).flush else c.push b := by
  have h1 : c.flushDeferred = c := by simp [Ctx.flushDeferred, hd]
  have h2 : (c.push b).ptr = c.ptr + 1 := by simp [Ctx.push, Ctx.ptr]
  unfold Ctx.absorb Ctx.flushFull
  rw [h1, h2]
  by_cases h : c.ptr + 1 = c.blockLen
  · rw [if_pos ⟨hd, h⟩, if_pos h]
  · rw [if_neg (fun h' => h h'.2), if_neg h]

/-- Absorb as its cases for Skein: a full buffer is compressed before the byte is buffered (R143, R233). -/
theorem Ctx.absorb_deferred {c : Ctx} (hd : algDefer c.alg = true) (b : Byte) :
    c.absorb b = if c.ptr = c.blockLen then c.flush.push b else c.push b := by
  unfold Ctx.absorb Ctx.flushDeferred Ctx.flushFull
  split <;> simp_all [Ctx.push, Ctx.flush]

/-- Absorption keeps a context well formed. -/
theorem Ctx.wf.absorb {c : Ctx} (h : c.wf) (b : Byte) : (c.absorb b).wf := by
  have hB := h.blockLen_pos
  have hb := h.buffer_ok
  refine Ctx.wf_of_config h (c.absorb_config b) ?_ ?_
  · cases hd : algDefer c.alg
    · rw [Ctx.absorb_eager hd]; split
      · exact Ctx.compress_fits (c.push b) _
      · exact h.cv_fits
    · rw [Ctx.absorb_deferred hd]; split
      · exact Ctx.compress_fits c _
      · exact h.cv_fits
  · cases hd : algDefer c.alg
    · simp only [Ctx.bufferOk, hd, Ctx.ptr] at hb
      rw [Ctx.absorb_eager hd]
      simp only [Bool.false_eq_true, if_false] at hb
      split
      · simp [Ctx.bufferOk, Ctx.flush, Ctx.push, Ctx.ptr, hd, hB]
      · rename_i hne
        simp only [Ctx.ptr] at hne
        simp [Ctx.bufferOk, Ctx.push, Ctx.ptr, hd]; omega
    · simp only [Ctx.bufferOk, hd, Ctx.ptr, if_true] at hb
      rw [Ctx.absorb_deferred hd]
      split
      · simp [Ctx.bufferOk, Ctx.flush, Ctx.push, Ctx.ptr, hd]; omega
      · rename_i hne
        simp only [Ctx.ptr] at hne
        simp [Ctx.bufferOk, Ctx.push, Ctx.ptr, hd]; omega

theorem Ctx.wf.absorbAll {c : Ctx} (h : c.wf) (l : List Byte) : (c.absorbAll l).wf := by
  induction l generalizing c with
  | nil => exact h
  | cons b l ih => exact ih (h.absorb b)

theorem Ctx.wf.plainReset {c : Ctx} (h : c.wf) : c.plainReset.wf := by
  refine Ctx.wf_of_config h c.plainReset_config (algIv_fits c.alg) ?_
  simp only [Ctx.bufferOk, Ctx.plainReset, Ctx.ptr, List.length_nil]
  split
  · simp
  · exact h.blockLen_pos

theorem Ctx.wf.reset {c : Ctx} (h : c.wf) : c.reset.wf := by
  unfold Ctx.reset; split
  · exact h.plainReset.absorbAll _
  · exact h.plainReset

end WellFormed

section Outputs

theorem length_bmwFinal {w : Nat} (p : BmwCore w) (lf : LenField) (nout : Nat) (hn : nout ≤ 16) (h : List (BitVec w))
    (buf : List Byte) (n : Nat) : (bmwFinal p lf nout h buf n).length = nout * p.nb := by
  simp only [bmwFinal, length_leBytes, List.length_drop, length_bmwF]
  rw [show 16 - (16 - nout) = nout by omega]

theorem length_skeinFinal (c : SkeinCore) (hc : c.perm.length = c.nw) (L : Nat) (hL : L ≤ 8 * c.nw) (h : List Word64)
    (buf : List Byte) (n : Nat) : (skeinFinal c L h buf n).length = L := by
  simp only [skeinFinal, List.length_take, length_leBytes, length_skeinUbi c hc]
  omega

theorem length_tigerOut (tbe : Bool) (L : Nat) (h : List Word64) (hh : h.length = 3) (hL : L ≤ 24) :
    (tigerOut tbe L h).length = L := by
  unfold tigerOut; split <;> simp [hh] <;> omega

theorem length_tigerFinal (pad : Byte) (passes : Nat) (tbe : Bool) (L : Nat) (hL : L ≤ 24) (h : List Word64) (buf : List Byte)
    (n : Nat) : (tigerFinal pad passes tbe L h buf n).length = L := by
  unfold tigerFinal
  refine length_tigerOut tbe L _ ?_ hL
  split <;> rfl

/-- The natural output has the digest length (R140). -/
theorem Ctx.wf.length_final {c : Ctx} (h : c.wf) (lf : LenField) : (c.final lf).length = c.digestLen := by
  obtain ⟨t, ht, hL⟩ := h.digestLen_eq
  unfold Ctx.final
  cases ha : c.alg <;> rw [ha] at hL <;> simp only [algDigestLen] at hL
  · rw [hL, length_bmwFinal _ _ _ (by omega)]; rfl
  · rw [hL, length_bmwFinal _ _ _ (by omega)]; rfl
  · rw [hL, length_bmwFinal _ _ _ (by omega)]; rfl
  · rw [hL, length_bmwFinal _ _ _ (by omega)]; rfl
  · exact length_skeinFinal skeinSmall rfl _ (by rw [hL]; decide) ..
  · exact length_skeinFinal skeinSmall rfl _ (by rw [hL]; decide) ..
  · exact length_skeinFinal skeinBig rfl _ (by rw [hL]; decide) ..
  · exact length_skeinFinal skeinBig rfl _ (by rw [hL]; decide) ..
  · exact length_tigerFinal _ _ _ c.digestLen (by rw [hL]; split <;> (try split) <;> omega) ..
  · exact length_tigerFinal _ _ _ c.digestLen (by rw [hL]; split <;> (try split) <;> omega) ..

/-- A context with its HMAC mode off is well formed if it was. -/
theorem Ctx.wf.withoutHmacMode {c : Ctx} (h : c.wf) : ({ c with hmac := false } : Ctx).wf :=
  { blockLen_eq := h.blockLen_eq, digestLen_eq := h.digestLen_eq, plain_options := h.plain_options, cv_fits := h.cv_fits,
    buffer_ok := h.buffer_ok, hmac_ok := by simp }

/-- The plain digest of a key has the digest length (R302). -/
theorem Ctx.wf.length_plainDigest {c : Ctx} (h : c.wf) (lf : LenField) (l : List Byte) :
    (c.plainDigest lf l).length = c.digestLen := by
  unfold Ctx.plainDigest
  have hw := h.withoutHmacMode.plainReset.absorbAll l
  rw [hw.length_final]
  exact (Ctx.sameConfig_trans (Ctx.plainReset_config _) (Ctx.absorbAll_config _ l)).2.2.2.1

/-- What Finalize returns has the natural length (R142, R144). -/
theorem Ctx.wf.length_finalize {c : Ctx} (h : c.wf) (lf : LenField) : (c.finalize lf).length = c.natLen := by
  unfold Ctx.finalize Ctx.natLen
  split
  · rename_i hm
    have hw := (h.plainReset.absorbAll c.kopad).absorbAll (c.final lf)
    have hL : (((c.plainReset.absorbAll c.kopad).absorbAll (c.final lf)).digestLen) = c.digestLen :=
      (Ctx.sameConfig_trans (Ctx.plainReset_config _)
        (Ctx.sameConfig_trans (Ctx.absorbAll_config _ _) (Ctx.absorbAll_config _ _))).2.2.2.1
    have hh := (h.hmac_ok hm).2.1
    simp only [Ctx.hmacFinal, List.length_take, hw.length_final, hL]
    omega
  · exact h.length_final lf

/-- The key block has the block length (R300, R303). -/
theorem Ctx.wf.length_keyBlock {c : Ctx} (h : c.wf) (lf : LenField) (key : List Byte) :
    (c.keyBlock lf key).length = c.blockLen := by
  have hL := h.digestLen_range.2
  unfold Ctx.keyBlock
  split
  · simp [h.length_plainDigest lf key]; omega
  · simp; omega

/-- A well-formed context that is keyed is well formed (R300). -/
theorem Ctx.wf.hmacKeyed {c : Ctx} (h : c.wf) (lf : LenField) (key : List Byte) (n : Nat) : (c.hmacKeyed lf key n).wf := by
  unfold Ctx.hmacKeyed
  have hL := h.digestLen_range
  refine Ctx.wf.reset
    { blockLen_eq := h.blockLen_eq, digestLen_eq := h.digestLen_eq, plain_options := h.plain_options, cv_fits := h.cv_fits,
      buffer_ok := h.buffer_ok, hmac_ok := fun _ => ?_ }
  simp only [List.length_map, h.length_keyBlock lf key, Ctx.hmacOutLen, and_true]
  split <;> omega

end Outputs

end Sys2Proof.Machine
end

