-- ==== Sys2Proof/Laws/Commands.lean ====
section
/-! SUPPORT. What the operations that commands share can do: the state checks' errors, the context that INIT leaves, and the shared
effect of DIGEST and DIGESTN. -/

namespace Sys2Proof.Machine

/-- The errors of CheckCtx (R162). -/
theorem State.ctxError_some {s : State} {k : Nat} {e : ErrCode} (h : s.ctxError k = some e) :
    ((s.ctx k).st = .unbound ∧ e = .notImplemented) ∨ ((s.ctx k).st = .undef ∧ e = .contextUndefined) := by
  unfold State.ctxError at h
  split at h <;> simp_all

/-- The error of the CRC units' state check (R375). -/
theorem State.crcError_some {s : State} {u : Nat} {e : ErrCode} (h : s.crcError u = some e) :
    (s.crc u).cfgd = false ∧ e = .notImplemented := by
  unfold State.crcError at h
  split at h <;> simp_all

/-- Every TLEN selects a length that a TLEN other than 3 selects (R112). -/
theorem algDigestLen_tlen (a : Alg) (t : BitVec 2) : ∃ u : BitVec 2, u ≠ 3 ∧ algDigestLen a t = algDigestLen a u := by
  by_cases h : t = 3
  · exact ⟨2, by decide, by subst h; cases a <;> rfl⟩
  · exact ⟨t, h, rfl⟩

/-- The context that INIT leaves is READY (R145). -/
theorem initCtx_st (d : Nat) (a : Alg) (imm : BitVec 16) (a0 : Word64) : (initCtx d a imm a0).st = .ready :=
  (Ctx.reset_config _).1

/-- The context that INIT leaves is well formed (R145). -/
theorem initCtx_wf (d : Nat) (a : Alg) (imm : BitVec 16) (a0 : Word64) : (initCtx d a imm a0).wf := by
  unfold initCtx
  refine Ctx.wf.reset
    { blockLen_eq := rfl, digestLen_eq := algDigestLen_tlen _ _, plain_options := fun h => ?_, cv_fits := algIv_fits _,
      buffer_ok := ?_, hmac_ok := by simp [Ctx.withoutHmac] }
  · simp only [Ctx.withoutHmac] at h ⊢
    simp [h]
  · simp [Ctx.bufferOk, Ctx.withoutHmac, Ctx.ptr, algBlockLen_pos a]

/-- Everything the shared effect of DIGEST and DIGESTN can do: the output is written and the context reset, or the context is UNDEF
and BOUNDS raised (R150 to R152). -/
theorem State.digestInto_cases (s : State) (k n : Nat) :
    (s.inBounds s.a2.toNat n = true ∧ s.digestInto k n =
      (((s.setCtx k (s.ctx k).reset).memWrite s.a2.toNat (((s.ctx k).finalize s.platform.lenField).take n)).setResult
        (BitVec.ofNat 64 n)).finish) ∨
    (s.inBounds s.a2.toNat n = false ∧ s.digestInto k n = (s.setCtx k { s.ctx k with st := .undef }).raise .bounds) := by
  cases h : s.inBounds s.a2.toNat n <;> simp [State.digestInto, h]

end Sys2Proof.Machine
end

