-- ==== Sys2Proof/Laws/Crc.lean ====
section
/-! SUPPORT. The CRC operations keep a value within its width, and a configured unit well formed. -/

namespace Sys2Proof.Machine

/-- Masking keeps only the bits of the width. -/
theorem toNat_and_crcMask_lt {w : Nat} (hw : w ≤ 82) (v : CrcWord) : (v &&& crcMask w).toNat < 2 ^ w := by
  have h82 : 2 ^ w ≤ 2 ^ 82 := Nat.pow_le_pow_right (by decide) hw
  have hpos : 0 < 2 ^ w := Nat.two_pow_pos w
  rw [BitVec.toNat_and, crcMask, BitVec.toNat_ofNat, Nat.mod_eq_of_lt (by omega)]
  exact Nat.lt_of_le_of_lt Nat.and_le_right (by omega)

theorem toNat_reflect_lt (w : Nat) (v : CrcWord) : (reflect v w).toNat < 2 ^ w := by
  rw [reflect, BitVec.toNat_setWidth]
  exact Nat.lt_of_le_of_lt (Nat.mod_le _ _) (BitVec.isLt _)

theorem crcBitStep_lt {w : Nat} (hw : w ≤ 82) {poly : CrcWord} (hp : poly.toNat < 2 ^ w) (reg : CrcWord) (b : Bool) :
    (crcBitStep w poly reg b).toNat < 2 ^ w := by
  unfold crcBitStep
  split
  · rw [BitVec.toNat_xor]
    exact Nat.xor_lt_two_pow (toNat_and_crcMask_lt hw _) hp
  · exact toNat_and_crcMask_lt hw _

/-- What every step keeps, a fold of steps keeps. -/
theorem foldl_lt {β : Type} {n : Nat} (f : CrcWord → β → CrcWord) (hf : ∀ r a, r.toNat < n → (f r a).toNat < n) (l : List β)
    {r : CrcWord} (hr : r.toNat < n) : (l.foldl f r).toNat < n := by
  induction l generalizing r with
  | nil => exact hr
  | cons a l ih => exact ih (hf r a hr)

/-- The bit-serial byte step stays within the width (R334). -/
theorem crcByte_lt {w : Nat} (hw : w ≤ 82) {poly reg : CrcWord} (hp : poly.toNat < 2 ^ w) (hr : reg.toNat < 2 ^ w) (refin : Bool)
    (b : Byte) : (crcByte w poly refin reg b).toNat < 2 ^ w :=
  foldl_lt _ (fun r a _ => crcBitStep_lt hw hp r a) _ hr

@[simp] theorem length_crcTable (w : Nat) (poly : CrcWord) (refin : Bool) : (crcTable w poly refin).length = 256 := by
  simp [crcTable]

/-- Every table entry is within the width (R53, R335). -/
theorem wordAt_crcTable_lt {w : Nat} (hw : w ≤ 82) {poly : CrcWord} (hp : poly.toNat < 2 ^ w) (refin : Bool) (i : Nat) :
    (wordAt (crcTable w poly refin) i).toNat < 2 ^ w := by
  have h0 : (0 : CrcWord).toNat < 2 ^ w := Nat.two_pow_pos w
  unfold wordAt crcTable
  by_cases hi : i < 256
  · simp only [List.getD_eq_getElem?_getD, List.getElem?_map, List.getElem?_range hi, Option.map_some, Option.getD_some]
    split
    · exact toNat_reflect_lt w _
    · exact crcByte_lt hw hp h0 _ _
  · rw [List.getD_eq_getElem?_getD, List.getElem?_eq_none (by simpa using hi)]
    exact h0

/-- The table-driven byte step stays within the width (R336). -/
theorem crcByteT_lt {w : Nat} (hw : w ≤ 82) {poly : CrcWord} (hp : poly.toNat < 2 ^ w) (refin : Bool) (reg : CrcWord) (b : Byte) :
    (crcByteT w refin (crcTable w poly refin) reg b).toNat < 2 ^ w := by
  unfold crcByteT
  simp only
  split
  · exact toNat_reflect_lt w _
  · split
    · rw [BitVec.toNat_xor]
      exact Nat.xor_lt_two_pow (toNat_and_crcMask_lt hw _) (wordAt_crcTable_lt hw hp _ _)
    · exact wordAt_crcTable_lt hw hp _ _

/-- Folding bytes keeps a unit well formed, on either path. -/
theorem CrcUnit.wf.feed {u : CrcUnit} (h : u.wf) (serial : Bool) (l : List Byte) : (u.feed serial l).wf := by
  refine { h with reg_lt := foldl_lt (u.step serial) (fun r b hr => ?_) l h.reg_lt }
  unfold CrcUnit.step
  split
  · exact crcByte_lt h.width_le h.poly_lt hr _ _
  · rw [h.table_eq]
    exact crcByteT_lt h.width_le h.poly_lt _ _ _

theorem CrcUnit.wf.restart {u : CrcUnit} (h : u.wf) : u.restart.wf := { h with reg_lt := h.init_lt }

/-- What it means that a record has no error (R331). -/
theorem crcRecordError_none {record : List Byte} (h : crcRecordError record = none) :
    3 ≤ (recByte record 0).toNat ∧ (recByte record 0).toNat ≤ 82 ∧
      beDecode (slice record 16 16) < 2 ^ (recByte record 0).toNat ∧ beDecode (slice record 32 16) < 2 ^ (recByte record 0).toNat ∧
      beDecode (slice record 48 16) < 2 ^ (recByte record 0).toNat := by
  unfold crcRecordError at h
  simp only at h
  split at h
  · cases h
  · split at h
    · cases h
    · split at h
      · cases h
      · omega

/-- A record error is CRC_WIDTH or INVALID_INPUT (R331). -/
theorem crcRecordError_some {record : List Byte} {e : ErrCode} (h : crcRecordError record = some e) :
    e = .crcWidth ∨ e = .invalidInput := by
  unfold crcRecordError at h
  simp only at h
  split at h
  · simp_all
  · split at h
    · simp_all
    · split at h <;> simp_all

/-- A valid record configures a well-formed unit (R337). -/
theorem wf_crcUnitOfRecord {record : List Byte} (h : crcRecordError record = none) : (crcUnitOfRecord record).wf := by
  obtain ⟨h3, h82, hp, hi, hx⟩ := crcRecordError_none h
  have key : ∀ v, v < 2 ^ (recByte record 0).toNat → (BitVec.ofNat 82 v).toNat < 2 ^ (recByte record 0).toNat := fun v hv => by
    rw [BitVec.toNat_ofNat]
    exact Nat.lt_of_le_of_lt (Nat.mod_le _ _) hv
  exact
    { width_ge := h3, width_le := h82, poly_lt := key _ hp, init_lt := key _ hi, xorout_lt := key _ hx, reg_lt := key _ hi,
      table_eq := rfl }

end Sys2Proof.Machine
end

