-- ==== Sys2Proof/Laws/PerInstr.lean ====
section
/-! SUPPORT. A fact about every command as syntax: the fields of its word are the opcode map's opcode and the command's own fields
(R100, R108). -/

namespace Sys2Proof.Laws.OpcodeField

/-- The fields of a command's word (R100). -/
def Statement (i : Instr) : Prop :=
  wordOp (encode i) = i.opcode ∧ wordX (encode i) = i.x ∧ wordY (encode i) = i.y ∧ wordImm (encode i) = i.imm

/-- The fields of four bit fields put side by side are those bit fields. -/
theorem fields_of_append (o : BitVec 8) (x y : BitVec 4) (imm : BitVec 16) :
    wordOp (o ++ x ++ y ++ imm) = o ∧ wordX (o ++ x ++ y ++ imm) = x ∧ wordY (o ++ x ++ y ++ imm) = y ∧
      wordImm (o ++ x ++ y ++ imm) = imm := by
  refine ⟨?_, ?_, ?_, ?_⟩ <;>
    (apply BitVec.eq_of_getLsbD_eq
     intro i hi
     have h1 : 24 + i - 16 - 4 - 4 = i := by omega
     have h2 : 20 + i - 16 - 4 = i := by omega
     have h3 : 16 + i - 16 = i := by omega
     simp only [wordOp, wordX, wordY, wordImm, BitVec.getLsbD_extractLsb', BitVec.getLsbD_append]
     repeat' split
     all_goals first
       | omega
       | simp [hi, h1, h2, h3])

theorem nop (x y : BitVec 4) (imm : BitVec 16) : Statement (.nop x y imm) := fields_of_append ..

theorem init (x y : BitVec 4) (imm : BitVec 16) : Statement (.init x y imm) := fields_of_append ..

theorem reset (x y : BitVec 4) (imm : BitVec 16) : Statement (.reset x y imm) := fields_of_append ..

theorem update1 (x y : BitVec 4) (imm : BitVec 16) : Statement (.update1 x y imm) := fields_of_append ..

theorem update (x y : BitVec 4) (imm : BitVec 16) : Statement (.update x y imm) := fields_of_append ..

theorem digest (x y : BitVec 4) (imm : BitVec 16) : Statement (.digest x y imm) := fields_of_append ..

theorem digestn (x y : BitVec 4) (imm : BitVec 16) : Statement (.digestn x y imm) := fields_of_append ..

theorem copy (x y : BitVec 4) (imm : BitVec 16) : Statement (.copy x y imm) := fields_of_append ..

theorem getblk (x y : BitVec 4) (imm : BitVec 16) : Statement (.getblk x y imm) := fields_of_append ..

theorem getdlen (x y : BitVec 4) (imm : BitVec 16) : Statement (.getdlen x y imm) := fields_of_append ..

theorem free (x y : BitVec 4) (imm : BitVec 16) : Statement (.free x y imm) := fields_of_append ..

theorem hmacinit (x y : BitVec 4) (imm : BitVec 16) : Statement (.hmacinit x y imm) := fields_of_append ..

theorem crccfg (x y : BitVec 4) (imm : BitVec 16) : Statement (.crccfg x y imm) := fields_of_append ..

theorem crcinit (x y : BitVec 4) (imm : BitVec 16) : Statement (.crcinit x y imm) := fields_of_append ..

theorem crcupd (x y : BitVec 4) (imm : BitVec 16) : Statement (.crcupd x y imm) := fields_of_append ..

theorem crcfin (x y : BitVec 4) (imm : BitVec 16) : Statement (.crcfin x y imm) := fields_of_append ..

end Sys2Proof.Laws.OpcodeField
end

