-- ==== Sys2Proof/Machine/TigerGenerator.lean ====
section
/-! DEFINITION. The generator of the Tiger S-boxes (R285), of which the constants of TigerSbox.lean are the result. No command reads
it: a model may hold R286 as constants (R285, R282). -/

namespace Sys2Proof.Machine

/-- The seed of R285. -/
def tigerGenSeed : List Byte :=
  ("Tiger - A Fast New Hash Function, by Ross Anderson and Eli Biham".toList.map fun c => BitVec.ofNat 8 c.toNat)

/-- The generator's state: the four boxes (each a list of 256 entries), the state words, the counter abc (R285). -/
structure TigerGen where
  boxes : List (List Nat)
  state : Tri
  abc : Nat
deriving DecidableEq, Repr

/-- The boxes as the compression takes them. -/
def genBoxes (b : List (List Nat)) : SBoxes :=
  let pieces := fun s => (List.range 8).map fun p => ((b.getD s []).drop (32 * p)).take 32
  (pieces 0, pieces 1, pieces 2, pieces 3)

/-- Byte col of an entry replaced. -/
def withByte (v col b : Nat) : Nat := v - (v / 256 ^ col % 256) * 256 ^ col + b * 256 ^ col

/-- Byte col of entry i swapped with byte col of entry j in one box (R285). -/
def swapByte (t : List Nat) (col i j : Nat) : List Nat :=
  let bi := t.getD i 0 / 256 ^ col % 256
  let bj := t.getD j 0 / 256 ^ col % 256
  let t1 := t.set i (withByte (t.getD i 0) col bj)
  t1.set j (withByte (t1.getD j 0) col bi)

/-- The inner step of R285 for entry i of box s. -/
def tigerGenStep (g : TigerGen) (is : Nat × Nat) : TigerGen :=
  let (i, s) := is
  let g1 : TigerGen :=
    if g.abc + 1 = 3 then
      { g with abc := 0, state := tigerCompressWords (genBoxes g.boxes) 0 g.state (leWords 64 8 tigerGenSeed 8) }
    else { g with abc := g.abc + 1 }
  let v := if g1.abc = 0 then g1.state.1 else if g1.abc = 1 then g1.state.2.1 else g1.state.2.2
  let box := (List.range 8).foldl (fun t col => swapByte t col i (byteOf v col)) (g1.boxes.getD s [])
  { g1 with boxes := g1.boxes.set s box }

/-- The S-boxes of R285: five runs over every entry of every box, from boxes whose entry i has every byte i. -/
def tigerGenerate : List (List Nat) :=
  let start : TigerGen :=
    { boxes := List.replicate 4 ((List.range 256).map fun i => i * 0x0101010101010101), state := (0x0123456789ABCDEF,
        0xFEDCBA9876543210, 0xF096A5B4C3B2E187), abc := 2 }
  let steps := (List.range 256).flatMap fun i => (List.range 4).map fun s => (i, s)
  ((List.range 5).foldl (fun g _ => steps.foldl tigerGenStep g) start).boxes

end Sys2Proof.Machine
end

