-- ==== Sys2Proof/Tests/Slice0.lean ====
section
/-! SUPPORT. Tests of the model against the spec's own words, examples and vectors (their source stands at each), and a witness for
the hypotheses of every statement: a concrete state and operands that meet them, at the ends of their ranges. -/

namespace Sys2Proof.Tests

open Machine

set_option maxRecDepth 4000

section States

/-- A reset machine whose slot 0 holds a context. -/
def withCtx (c : Ctx) : State := { State.reset with ctxs := c :: List.replicate 3 Ctx.atReset }

/-- A reset machine whose unit 0 holds a CRC unit. -/
def withCrc (u : CrcUnit) : State := { State.reset with crcs := [u, CrcUnit.atReset] }

/-- Slot 0 after INIT and some bytes. -/
def fed (a : Alg) (imm : BitVec 16) (passes : Word64) (msg : List Byte) : Ctx := (initCtx 0 a imm passes).absorbAll msg

def bmwState : State := withCtx (fed .bmw256 0x0002 0 [])

def skeinState : State := withCtx (fed .skein256 0x0012 0 [])

/-- A CRC parameter record (R330). -/
def crcRecord (width flags poly init xorout : Nat) : List Byte :=
  [BitVec.ofNat 8 width, BitVec.ofNat 8 flags] ++ zeros 14 ++ beEncode poly 16 ++ beEncode init 16 ++ beEncode xorout 16

/-- The record of the example of R337. -/
def crc32Record : List Byte := crcRecord 0x20 0x03 0x04C11DB7 0xFFFFFFFF 0xFFFFFFFF

def crcState : State := withCrc (crcUnitOfRecord crc32Record)

def abc : List Byte := [0x61, 0x62, 0x63]

/-- The digest of a message by INIT, absorption and Finalize. -/
def hash (lf : LenField) (a : Alg) (imm : BitVec 16) (passes : Word64) (msg : List Byte) : List Byte :=
  (fed a imm passes msg).finalize lf

theorem fed_wf (a : Alg) (imm : BitVec 16) (passes : Word64) (msg : List Byte) : (fed a imm passes msg).wf :=
  (initCtx_wf 0 a imm passes).absorbAll msg

theorem fed_st (a : Alg) (imm : BitVec 16) (passes : Word64) (msg : List Byte) : (fed a imm passes msg).st = .ready :=
  ((initCtx 0 a imm passes).absorbAll_config msg).1.trans (initCtx_st 0 a imm passes)

theorem crcState_wf : (crcState.crc 0).wf := wf_crcUnitOfRecord (by decide)

end States

section Encoding

/-! The words of R116, and for the commands it leaves out the word that R100 and R108 give. -/

theorem test_decode_nop : decode 0b00000000_0000_0000_0000000000000000 = .ok (.nop 0 0 0) := rfl
theorem test_decode_init : decode 0b00000001_0010_0000_0000011000100001 = .ok (.init 2 0 (tigerImm false 2 true)) := rfl
theorem test_decode_reset : decode 0b00000010_0011_0000_0000000000000000 = .ok (.reset 3 0 0) := rfl
theorem test_decode_update1 : decode 0b00000011_0000_0000_0000000001100001 = .ok (.update1 0 0 0x61) := rfl
theorem test_decode_update : decode 0b00000100_0011_0000_0000000000000000 = .ok (.update 3 0 0) := rfl
theorem test_decode_digest : decode 0b00000101_0001_0000_0000000000000000 = .ok (.digest 1 0 0) := rfl
theorem test_decode_digestn : decode 0b00000110_0001_0000_0000000000000000 = .ok (.digestn 1 0 0) := rfl
theorem test_decode_copy : decode 0b00000111_0000_0010_0000000000000000 = .ok (.copy 0 2 0) := rfl
theorem test_decode_getblk : decode 0b00001000_0011_0000_0000000000000000 = .ok (.getblk 3 0 0) := rfl
theorem test_decode_getdlen : decode 0b00001001_0000_0000_0000000000000000 = .ok (.getdlen 0 0 0) := rfl
theorem test_decode_free : decode 0b00001010_0000_0000_0000000000000000 = .ok (.free 0 0 0) := rfl
theorem test_decode_hmacinit : decode 0b00010000_0001_0000_0000000000000000 = .ok (.hmacinit 1 0 0) := rfl
theorem test_decode_crccfg : decode 0b00100000_0001_0000_0000000000000000 = .ok (.crccfg 1 0 0) := rfl
theorem test_decode_crcinit : decode 0b00100001_0000_0000_0000000000000000 = .ok (.crcinit 0 0 0) := rfl
theorem test_decode_crcupd : decode 0b00100010_0000_0000_0000000000000001 = .ok (.crcupd 0 0 1) := rfl
theorem test_decode_crcfin : decode 0b00100011_0001_0000_0000000000000000 = .ok (.crcfin 1 0 0) := rfl
theorem test_decode_unassigned : decode 0x0B000000 = .error (.illegalOp 0x0B) := rfl
theorem test_decodeTableWord : decodeTableWord 32 0x07020000 = some (.copy 0 2 0) := by decide

/-- An ill-formed command for each check of WellFormed (R101 to R103, R111, R112), at NCTX = 4 and NCRC = 2. -/
theorem test_wellFormed_refuses :
    ∀ i ∈ ([.nop 1 0 0, .nop 0 1 0, .nop 0 0 1, .init 4 0 0x0001, .init 0 1 0x0001, .init 0 0 0x0005, .init 0 0 0x0801,
      .init 0 0 0x0101, .init 0 0 0x0401, .init 0 0 0x0321, .init 0 0 0x0822, .reset 4 0 0, .reset 0 1 0, .reset 0 0 1,
      .update1 4 0 0, .update1 0 1 0, .update1 0 0 0x0100, .update 4 0 0, .update 0 1 0, .update 0 0 1, .digest 4 0 0,
      .digest 0 1 0, .digest 0 0 1, .digestn 4 0 0, .digestn 0 1 0, .digestn 0 0 1, .copy 4 0 0, .copy 0 4 0, .copy 0 0 1,
      .getblk 4 0 0, .getblk 0 1 0, .getblk 0 0 1, .getdlen 4 0 0, .getdlen 0 1 0, .getdlen 0 0 1, .free 4 0 0, .free 0 1 0,
      .free 0 0 1, .hmacinit 4 0 0, .hmacinit 0 1 0, .hmacinit 0 0 1, .crccfg 2 0 0, .crccfg 0 1 0, .crccfg 0 0 1,
      .crcinit 2 0 0, .crcinit 0 1 0, .crcinit 0 0 1, .crcupd 2 0 0, .crcupd 0 1 0, .crcupd 0 0 2, .crcfin 2 0 0,
      .crcfin 0 1 0, .crcfin 0 0 1] : List Instr), i.wellFormed 4 2 = false := by decide

/-- A well-formed form of each command, at the end of each index range. -/
theorem test_wellFormed_accepts :
    ∀ i ∈ ([.nop 0 0 0, .init 3 0 0x0014, .init 0 0 0x0622, .reset 3 0 0, .update1 3 0 0xFF, .update 3 0 0, .digest 3 0 0,
      .digestn 3 0 0, .copy 3 3 0, .getblk 3 0 0, .getdlen 3 0 0, .free 3 0 0, .hmacinit 3 0 0, .crccfg 1 0 0, .crcinit 1 0 0,
      .crcupd 1 0 1, .crcfin 1 0 0] : List Instr), i.wellFormed 4 2 = true := by decide

end Encoding

section Vectors

/-! Vectors of spec/95_test_vectors.md sections 2 to 6. -/

theorem test_bmw224 : hash .len64AtEnd .bmw224 0x0001 0 abc =
    beEncode 0x246607792AD2625430C81E2C4EA1380ADD5B08FB8075DAED4F401DBC 28 := by decide +kernel

theorem test_bmw256_length_in_second_block : hash .len64AtEnd .bmw256 0x0002 0 (List.replicate 120 0x61) =
    beEncode 0x5080AF13D32E4B6136C05032BBDABDDC855FF84FF3EF275228572DFDE44FDD64 32 := by decide +kernel

theorem test_bmw384_len128 : hash .len128At112 .bmw384 0x0003 0 abc =
    beEncode 0xF2684ECD599D10A9BE74A99A3ED9593C6D5D62AE1A74F0C76ECC32ACEF17C0014D2E7137296584712C10FCAA45DBAB16 48 := by
  decide +kernel

theorem test_skein224 : hash .len64AtEnd .skein224 0x0011 0 abc =
    beEncode 0xAC5C22879F46F05B9BAF3CE3E43CFF421EDA42771A756779197535A2 28 := by decide +kernel

theorem test_skein256_after_deferral : hash .len64AtEnd .skein256 0x0012 0 (List.replicate 33 0x61) =
    beEncode 0x06670643B4676DBB79A477A37AA1F2CEFE0037CC22FA530A5A06B3492673F74F 32 := by decide +kernel

theorem test_skein384 : hash .len64AtEnd .skein384 0x0013 0 abc =
    beEncode 0xB4329745321C8F6B788A04526DAD856B4A87F510EE496B743F61B048209FC3261C1EBBB8A35040A7FF58C34378C4536C 48 := by
  decide +kernel

theorem test_tiger_full_block : hash .len64AtEnd .tiger (tigerImm false 0 false) 0 (List.replicate 64 0x61) =
    beEncode 0x7503F313BBEA92EDDCA90C5D3FCC4368237457DF366FB76E 24 := by decide +kernel

theorem test_tiger2_passes : hash .len64AtEnd .tiger2 (tigerImm true 0 false) 5 abc =
    beEncode 0xBC132887014648F3D7CE0F16130A7BF8CA31F6E57DC8B0FD 24 := by decide +kernel

theorem test_tiger_big_endian_short : hash .len64AtEnd .tiger (tigerImm false 2 true) 0 abc =
    beEncode 0xF258C1E88414AB2A527AB541FFC5B8BF 16 := by decide +kernel

theorem test_hmac_skein256 :
    (((fed .skein256 0x0012 0 []).hmacKeyed .len64AtEnd abc 0).absorbAll abc).finalize .len64AtEnd =
      beEncode 0xC5F87DE71B7BA860DD63F0B7CAE59C66B087E40F982D9201738F0C20CCB345E3 32 := by decide +kernel

/-- The check values of CRC-3/GSM and CRC-5/USB, the widths below 8, on both paths. -/
theorem test_crc_narrow : ∀ serial : Bool,
    (((crcUnitOfRecord (crcRecord 3 0 3 0 7)).feed serial [0x31, 0x32, 0x33, 0x34, 0x35, 0x36, 0x37, 0x38, 0x39]).value = 0x4) ∧
    (((crcUnitOfRecord (crcRecord 5 3 5 0x1F 0x1F)).feed serial [0x31, 0x32, 0x33, 0x34, 0x35, 0x36, 0x37, 0x38, 0x39]).value =
      0x19) := by decide +kernel

end Vectors

section Commands

/-! One step of each command; the values are those of the examples and corner cases of the command's own rule, or of the error
rows of spec/95_test_vectors.md section 8. -/

/-- R160: after a BOUNDS error NOP leaves STATUS = 0x00000100. -/
theorem test_nop : ∃ t, exec (.nop 0 0 0) (State.reset.raise .bounds) = .next t ∧ t.statusWord = 0x00000100 :=
  ⟨_, rfl, by decide⟩

/-- R145, the example. -/
theorem test_init : ∃ t, exec (.init 2 0 0x0621) State.reset = .next t ∧ (t.ctx 2).st = .ready ∧ (t.ctx 2).alg = .tiger ∧
    (t.ctx 2).blockLen = 64 ∧ (t.ctx 2).digestLen = 16 ∧ (t.ctx 2).tbe = true ∧ (t.ctx 2).hmac = false :=
  ⟨_, rfl, by decide⟩

/-- R147: RESET drops what was absorbed. -/
theorem test_reset : ∃ t, exec (.reset 0 0 0) (withCtx (fed .bmw256 0x0002 0 abc)) = .next t ∧ (t.ctx 0).buf = [] ∧
    (t.ctx 0).cv = algIv .bmw256 := ⟨_, rfl, by decide⟩

/-- The context positions of spec/95_test_vectors.md section 3: the 64th byte of a BMW-256 block is compressed at once. -/
theorem test_update1 : ∃ t, exec (.update1 0 0 0x61) (withCtx (fed .bmw256 0x0002 0 (List.replicate 63 0x61))) = .next t ∧
    (t.ctx 0).ptr = 0 ∧ (t.ctx 0).bcount = 1 := ⟨_, rfl, by decide⟩

/-- The context positions of spec/95_test_vectors.md section 3: Skein-256 after 33 bytes has ptr 1, bcount 1. -/
theorem test_update : ∃ t, exec (.update 0 0 0) { skeinState with a0 := 0, a1 := 33, dmem := Memory.setBytes [] 0 (zeros 33) } = .next t ∧
    (t.ctx 0).ptr = 1 ∧ (t.ctx 0).bcount = 1 := ⟨_, rfl, by decide⟩

/-- R150: DIGEST writes BMW-256("") at A2, 32 bytes that end at the end of DMEM. -/
theorem test_digest : ∃ t, exec (.digest 0 0 0) { bmwState with a2 := 4064 } = .next t ∧ t.result = 32 ∧
    t.memRead 4064 4 = [0x82, 0xCA, 0xC4, 0xBF] := ⟨_, rfl, by decide +kernel⟩

/-- R151: one byte further DIGEST raises BOUNDS, and the context is UNDEF. -/
theorem test_digest_bounds : ∃ t, exec (.digest 0 0 0) { bmwState with a2 := 4065 } = .next t ∧ t.statusWord = 0x102 ∧
    (t.ctx 0).st = .undef := ⟨_, rfl, by decide⟩

/-- R152: A3 = 0 writes no byte, and RESULT = 0. -/
theorem test_digestn_zero : ∃ t, exec (.digestn 0 0 0) { bmwState with a2 := 4096, a3 := 0, result := 7 } = .next t ∧ t.result = 0 ∧
    t.dmem = [] := ⟨_, rfl, by decide⟩

/-- R156: COPY duplicates the buffered bytes. -/
theorem test_copy : ∃ t, exec (.copy 0 1 0) (withCtx (fed .tiger 0x0021 0 [0x61])) = .next t ∧ (t.ctx 1).buf = [0x61] ∧
    (t.ctx 1).st = .ready := ⟨_, rfl, by decide⟩

/-- R157: GETBLK on BMW-384 gives 128. -/
theorem test_getblk : ∃ t, exec (.getblk 0 0 0) (withCtx (fed .bmw384 0x0003 0 [])) = .next t ∧ t.result = 128 := ⟨_, rfl, by decide⟩

/-- R158: GETDLEN on Skein-224 gives 28. -/
theorem test_getdlen : ∃ t, exec (.getdlen 0 0 0) (withCtx (fed .skein224 0x0011 0 [])) = .next t ∧ t.result = 28 := ⟨_, rfl, by decide⟩

/-- R161: after FREE, GETBLK raises NOT_IMPLEMENTED (ERR = 3). -/
theorem test_free : ∃ t u, exec (.free 0 0 0) bmwState = .next t ∧ exec (.getblk 0 0 0) t = .next u ∧ u.statusWord = 0x103 :=
  ⟨_, _, rfl, rfl, by decide⟩

/-- R300, the example: HMACINIT with "key" on BMW-256 leaves hlen = 32, ptr = 0, bcount = 1. -/
theorem test_hmacinit : ∃ t, exec (.hmacinit 0 0 0)
    { bmwState with a0 := 0, a1 := 3, dmem := Memory.setBytes [] 0 [0x6B, 0x65, 0x79] } = .next t ∧
    (t.ctx 0).hlen = 32 ∧ (t.ctx 0).ptr = 0 ∧ (t.ctx 0).bcount = 1 ∧ (t.ctx 0).kipad.take 4 = [0x5D, 0x53, 0x4F, 0x36] :=
  ⟨_, rfl, by decide⟩

/-- R337, the example, and its table of R335. -/
theorem test_crccfg : ∃ t, exec (.crccfg 0 0 0) { State.reset with a0 := 0x200, dmem := Memory.setBytes [] 0x200 crc32Record } = .next t ∧
    t.err = .ok ∧ (t.crc 0).reg = 0xFFFFFFFF ∧ (t.crc 0).width = 32 ∧ wordAt (t.crc 0).table 1 = 0x77073096 :=
  ⟨_, rfl, by decide +kernel⟩

/-- R338: CRCINIT restores init. -/
theorem test_crcinit : ∃ t, exec (.crcinit 0 0 0) (withCrc ((crcUnitOfRecord crc32Record).feed true [0x31, 0x32])) = .next t ∧
    (t.crc 0).reg = 0xFFFFFFFF := ⟨_, rfl, by decide +kernel⟩

/-- R344: the register of the CRC-32 unit after the byte "1". -/
theorem test_crcupd : ∃ t, exec (.crcupd 0 0 0) { crcState with a0 := 5, a1 := 1, dmem := [(5, 0x31)] } = .next t ∧
    (t.crc 0).reg = 0x1208C43E := ⟨_, rfl, by decide +kernel⟩

/-- Spec/95_test_vectors.md section 5: CRCFIN then gives 0x83DCEFB7. -/
theorem test_crcfin : ∃ t, exec (.crcfin 0 0 0) { withCrc ((crcUnitOfRecord crc32Record).feed false [0x31]) with a2 := 4092 } = .next t ∧
    t.result = 0x83DCEFB7 ∧ t.memRead 4092 4 = [0x83, 0xDC, 0xEF, 0xB7] ∧ (t.crc 0).reg = 0xFFFFFFFF := ⟨_, rfl, by decide +kernel⟩

/-- R109: a word with an unassigned OP raises ILLEGAL_COMMAND (ERR = 6). -/
theorem test_illegal : ∃ t, step (State.reset.withFetchWord 32 0xFF123456) = .next t ∧ t.statusWord = 0x106 ∧ t.program = [] :=
  ⟨_, rfl, by decide⟩

/-- R33, R104: the next step after withFetchWord runs the word. -/
theorem test_withFetchWord : ∃ t, step (State.reset.withFetchWord 32 0x01100002) = .next t ∧ (t.ctx 1).alg = .bmw256 ∧ t.busy = false :=
  ⟨_, rfl, by decide⟩

/-- R77: a host write of four bytes puts the least significant byte lowest. -/
theorem test_host_write : ∃ t, State.reset.perform (.write 0x10004 4 0x11223344) = .next t ∧ t.memRead 4 4 = [0x44, 0x33, 0x22, 0x11] :=
  ⟨_, rfl, by decide⟩

end Commands

section Witnesses

/-! For every statement with hypotheses, states and operands that meet them, one for each clause and at the ends of the ranges. The
machine of `all c` holds the context c in each of its four slots, that of `allCrc u` the unit u in both of its units. -/

/-- A reset machine whose four slots hold the same context. -/
def all (c : Ctx) : State := { State.reset with ctxs := List.replicate 4 c }

/-- A reset machine whose two CRC units are the same. -/
def allCrc (u : CrcUnit) : State := { State.reset with crcs := List.replicate 2 u }

/-- The BMW-256 context with 63 absorbed bytes. -/
def bmw63 : Ctx := fed .bmw256 0x0002 0 (zeros 63)

/-- A fresh Skein-256 context. -/
def skein0 : Ctx := fed .skein256 0x0012 0 []

/-- The Skein-256 context with a full, uncompressed block. -/
def skein32 : Ctx := fed .skein256 0x0012 0 (zeros 32)

/-- The Tiger context with one byte, BE output of 20 bytes and 2^64 - 1 further passes. -/
def tiger1 : Ctx := fed .tiger (tigerImm false 1 true) (-1) [0x61]

/-- The CRC units at the ends of the widths (R51). -/
def crc3 : CrcUnit := crcUnitOfRecord (crcRecord 3 0 3 0 7)
def crc82 : CrcUnit := crcUnitOfRecord (crcRecord 82 3 0x0308C0111011401440411 0 0)

theorem bmw63_wf : bmw63.wf := fed_wf _ _ _ _
theorem skein0_wf : skein0.wf := fed_wf _ _ _ _
theorem skein32_wf : skein32.wf := fed_wf _ _ _ _
theorem tiger1_wf : tiger1.wf := fed_wf _ _ _ _

theorem all_wf {c : Ctx} (h : c.wf) : ((all c).ctx 3).wf := h

theorem crc3_wf : crc3.wf := wf_crcUnitOfRecord (by decide)
theorem crc82_wf : crc82.wf := wf_crcUnitOfRecord (by decide)

theorem witness_DecodeEncodeRoundTrip : decode 0x2310FFFF = .ok (.crcfin 1 0 0xFFFF) := rfl

/-- The unassigned codes at the ends of their ranges and the assigned ones beside them. -/
theorem witness_IllegalOpcodeRaises :
    (∀ w : BitVec 32, let s := { State.reset with program := [State.reset.cmdWrite w, .hwReset] }
      s.busy = false ∧ s.program = s.cmdWrite w :: [.hwReset]) ∧
    (∀ op ∈ ([0x0B000000, 0x0FFFFFFF, 0x11000000, 0x1FFFFFFF, 0x24000000, 0xFFFFFFFF] : List (BitVec 32)).map
        fun w => (wordOp w).toNat, (0x0B ≤ op ∧ op ≤ 0x0F) ∨ (0x11 ≤ op ∧ op ≤ 0x1F) ∨ 0x24 ≤ op) ∧
    ∀ op ∈ ([0x00000000, 0x0AFFFFFF, 0x10000000, 0x20000000, 0x23FFFFFF] : List (BitVec 32)).map fun w => (wordOp w).toNat,
      ¬ ((0x0B ≤ op ∧ op ≤ 0x0F) ∨ (0x11 ≤ op ∧ op ≤ 0x1F) ∨ 0x24 ≤ op) :=
  ⟨fun _ => ⟨rfl, rfl⟩, by decide, by decide⟩

theorem witness_StepRunsDecodedCommand :
    (let s := State.reset.withProgram [State.reset.cmdWrite 0x01100002]
     s.busy = false ∧ s.program = s.cmdWrite 0x01100002 :: []) ∧
    decode 0x01100002 = .ok (.init 1 0 0x0002) ∧ State.reset.program = [] := ⟨by decide, rfl, rfl⟩

/-- A legal action, a read, and a fault at the first address past the register block. -/
theorem witness_LegalActionsProgress :
    State.reset.busy = false ∧ State.reset.legal (.read 0xFC 4) = true ∧ (∃ t, State.reset.perform (.read 0xFC 4) = .next t) ∧
    State.reset.legal (.read 0x100 4) = false ∧ State.reset.perform (.write 0x100 4 0) = .fault (.unmappedBusAddress 0x100) ∧
    (let s := State.reset.withProgram [.hwReset]; s.busy = false ∧ s.program = [.hwReset]) :=
  ⟨rfl, rfl, ⟨_, rfl⟩, rfl, rfl, rfl, rfl⟩

/-- The first and the last reserved offset, for each width. -/
theorem witness_RegisterAccesses : State.reset.busy = false ∧
    ∀ p ∈ ([(0x30, 4), (0x30, 8), (0xFC, 4), (0xF8, 8)] : List (Nat × Nat)),
      0x30 ≤ p.1 ∧ p.1 + p.2 ≤ 0x100 ∧ p.1 % p.2 = 0 ∧ (p.2 = 4 ∨ p.2 = 8) := by decide

/-- A wrong width, an odd place, the second half of a register as a whole, and the DMEM misaligned, of a wrong size, past its end;
the busy machine with the first and the last byte of DMEM. -/
theorem witness_MeaninglessAccessesRefused : State.reset.platform.wf ∧
    (∀ p ∈ ([(0x00, 8), (0x2F, 1), (0x2C, 8), (0x04, 0)] : List (Nat × Nat)), p.1 < 0x30 ∧
      p ∉ [(0x00, 4), (0x04, 4), (0x08, 8), (0x08, 4), (0x0C, 4), (0x10, 8), (0x10, 4), (0x14, 4), (0x18, 8), (0x18, 4),
        (0x1C, 4), (0x20, 8), (0x20, 4), (0x24, 4), (0x28, 8), (0x28, 4), (0x2C, 4)]) ∧
    (∀ p ∈ ([(0, 3), (1, 2), (4095, 2), (4092, 8)] : List (Nat × Nat)), p.1 < State.reset.platform.dmemSize ∧
      (p.2 ∉ [1, 2, 4, 8] ∨ (State.reset.platform.dmemBase + p.1) % p.2 ≠ 0 ∨ State.reset.platform.dmemSize < p.1 + p.2)) ∧
    (let s := { State.reset with busy := true }
     s.busy = true ∧ s.platform.wf ∧ ∀ p ∈ ([(0, 1), (4095, 1), (4088, 8)] : List (Nat × Nat)),
      p.2 ∈ [1, 2, 4, 8] ∧ (s.platform.dmemBase + p.1) % p.2 = 0 ∧ p.1 + p.2 ≤ s.platform.dmemSize) := by decide

/-- The last place of each size, and the first. -/
theorem witness_HostDmemAccess : State.reset.platform.wf ∧ State.reset.busy = false ∧
    ∀ p ∈ ([(0, 8), (4095, 1), (4094, 2), (4092, 4), (4088, 8)] : List (Nat × Nat)), p.2 ∈ [1, 2, 4, 8] ∧
      (State.reset.platform.dmemBase + p.1) % p.2 = 0 ∧ p.1 + p.2 ≤ State.reset.platform.dmemSize := by decide

theorem witness_ResetState :
    let n : SlotCount := ⟨16, by decide⟩
    (State.resetOn Platform.test n n = State.reset ∨ ∃ p nctx ncrc, State.resetOn Platform.test n n = State.resetOn p nctx ncrc) :=
  .inr ⟨_, _, _, rfl⟩

/-- The smallest and the largest parameters of R10 to R12. -/
theorem witness_ResetMeetsInv : slotCountOk 1 ∧ slotCountOk 16 ∧ ({ Platform.test with dmemSize := 64 } : Platform).wf ∧
    ({ Platform.test with dmemSize := 2 ^ 32 } : Platform).wf := by decide

/-- Two machines that differ in a context, DMEM, STATUS and an operand register, and that have the same parameters. -/
theorem witness_HardwareReset :
    let s := { all bmw63 with a0 := 7, dmem := [(0, 1)], sticky := true }
    State.reset.nctx = s.nctx ∧ State.reset.ncrc = s.ncrc ∧ State.reset.draws = s.draws ∧ s.sameHostSide State.reset :=
  ⟨rfl, rfl, rfl, rfl, rfl, rfl⟩

/-- A state with READY contexts, configured units, bytes at both ends of DMEM and a command to run. -/
theorem witness_StepKeepsInv :
    ∃ t, State.Inv { all skein32 with crcs := [crc3, crc82], dmem := [(0, 1), (4095, 2)], program := [.write 0 4 0x03000061] } ∧
      step { all skein32 with crcs := [crc3, crc82], dmem := [(0, 1), (4095, 2)], program := [.write 0 4 0x03000061] } = .next t := by
  refine ⟨_, ⟨by decide, by decide, by decide, rfl, fun h => absurd rfl h, ?_, ?_⟩, rfl⟩
  · intro c hc _
    rw [List.eq_of_mem_replicate hc]
    exact skein32_wf
  · intro u hu _
    simp only [List.mem_cons, List.not_mem_nil, or_false] at hu
    rcases hu with rfl | rfl
    · exact crc3_wf
    · exact crc82_wf

/-- A violation of each kind of R374 at the first bad value, a command without one, and the completion of CRCCFG on a record that only
its content makes invalid. -/
theorem witness_FieldChecks :
    (∀ i ∈ ([.free 4 0 0, .free 15 0 0, .crcinit 2 0 0, .nop 1 0 0, .nop 0 1 0, .nop 0 0 1, .getblk 0 1 0, .copy 0 4 0, .reset 0 0 1,
      .init 0 0 0x0801, .init 0 0 0x0101, .init 0 0 0x0821, .update1 0 0 0x0100, .crcupd 0 0 2, .init 0 0 0x0000, .init 0 0 0x0005,
      .init 0 0 0x0321] : List Instr), i.wellFormed State.reset.nctx State.reset.ncrc = false) ∧
    (∀ i ∈ ([.free 3 0 0, .crcinit 1 0 0, .copy 3 3 0, .init 0 0 0x0621, .update1 0 0 0xFF, .crcupd 1 0 1] : List Instr),
      i.wellFormed State.reset.nctx State.reset.ncrc = true) ∧
    fieldViolation 4 2 (.free 4 0 0) ∧ fieldViolation 4 2 (.crcinit 2 0 0) ∧ fieldViolation 4 2 (.nop 1 0 0) ∧
    fieldViolation 4 2 (.copy 0 4 0) ∧ fieldViolation 4 2 (.getblk 0 1 0) ∧ fieldViolation 4 2 (.init 0 0 0x0321) ∧
    ¬ fieldViolation 4 2 (.crccfg 1 0 0) ∧
    ∃ t, exec (.crccfg 1 0 0) { State.reset with dmem := Memory.setBytes [] 0 (crcRecord 3 4 3 0 7) } = .next t ∧
      t.err = .invalidInput := by
  refine ⟨by decide, by decide, ?_, ?_, ?_, ?_, ?_, ?_, ?_, _, rfl, ?_⟩ <;> (try unfold fieldViolation) <;> decide

/-- A command on an UNBOUND and one on an UNDEF context, and one on an unconfigured unit. -/
theorem witness_StateErrors :
    (∃ t, exec (.getblk 3 0 0) State.reset = .next t ∧ t.err = .notImplemented) ∧
    (∃ t, exec (.copy 3 0 0) (all { skein32 with st := .undef }) = .next t ∧ t.err = .contextUndefined) ∧
    (∃ t, exec (.crcupd 1 0 1) State.reset = .next t ∧ t.err = .notImplemented) ∧
    ∃ t, exec (.update1 3 0 0xFF) (all bmw63) = .next t ∧ t.err = .ok :=
  ⟨⟨_, rfl, by decide⟩, ⟨_, rfl, by decide⟩, ⟨_, rfl, by decide⟩, _, rfl, by decide⟩

/-- Records that end at the end of DMEM: widths beside the range, a reserved bit, a reserved byte, a value of 2^width, and valid ones
at both ends of the range. -/
theorem witness_CrccfgRejectsRecords :
    let s := fun r => { State.reset with a0 := 4032, dmem := Memory.setBytes [] 4032 r }
    let byte := fun r j => (s r).readByte ((s r).a0.toNat + j)
    let value := fun r off => beDecode ((s r).memRead ((s r).a0.toNat + off) 16)
    (Instr.crccfg 1 0 0).wellFormed State.reset.nctx State.reset.ncrc = true ∧
    (s []).a0.toNat + 64 ≤ State.reset.platform.dmemSize ∧
    (byte (crcRecord 2 0 3 0 0) 0).toNat < 3 ∧ 82 < (byte (crcRecord 83 0 3 0 0) 0).toNat ∧
    (byte (crcRecord 3 4 3 0 0) 0).toNat = 3 ∧ (byte (crcRecord 3 4 3 0 0) 1).toNat / 4 ≠ 0 ∧
    byte (crcRecord 82 0 3 0 0 |>.set 15 1) 15 ≠ 0 ∧ (byte (crcRecord 82 0 3 0 0 |>.set 15 1) 0).toNat = 82 ∧
    value (crcRecord 3 0 8 0 0) 16 = 2 ^ 3 ∧ value (crcRecord 3 0 3 8 0) 32 = 2 ^ 3 ∧ value (crcRecord 3 0 3 0 8) 48 = 2 ^ 3 ∧
    ∀ r ∈ [crcRecord 3 0 7 7 7, crcRecord 82 3 (2 ^ 82 - 1) 0 0], 3 ≤ (byte r 0).toNat ∧ (byte r 0).toNat ≤ 82 ∧
      ((byte r 1).toNat / 4 = 0 ∧ (∀ j, j < 16 → 2 ≤ j → byte r j = 0) ∧ value r 16 < 2 ^ (byte r 0).toNat ∧
        value r 32 < 2 ^ (byte r 0).toNat ∧ value r 48 < 2 ^ (byte r 0).toNat) := by
  decide +kernel

/-- An error without and one with the change of the lifecycle state. -/
theorem witness_PreciseErrors :
    (∃ t, exec (.nop 1 0 0) State.reset = .next t ∧ t.err ≠ .ok ∧ isDigest (.nop 1 0 0) = false) ∧
    ∃ t, exec (.digest 3 0 0) { all bmw63 with a2 := 4065 } = .next t ∧ t.err = .bounds ∧ isDigest (.digest 3 0 0) = true :=
  ⟨⟨_, rfl, by decide⟩, _, rfl, by decide⟩

theorem witness_AllowedErrorsExact :
    (∃ t, exec (.update 3 0 0) { all bmw63 with a0 := 4096, a1 := 1 } = .next t) ∧
    ErrCode.bounds ∈ allowedErrors (.update 3 0 0) ∧ ErrCode.crcWidth ∈ allowedErrors (.crccfg 1 0 0) := ⟨⟨_, rfl⟩, by decide, by decide⟩

/-- A command of each lifecycle change, on the last slot. -/
theorem witness_ContextLifecycle : 3 < State.reset.nctx ∧ (∃ t, exec (.init 3 0 0x0002) State.reset = .next t ∧ t.err = .ok) ∧
    (∃ t, exec (.free 3 0 0) (all bmw63) = .next t ∧ t.err = .ok) ∧
    (∃ t, exec (.digestn 3 0 0) { all bmw63 with a2 := 4096, a3 := 1 } = .next t ∧ t.err = .bounds) ∧
    ∃ t, exec (.copy 0 3 0) (withCtx bmw63) = .next t ∧ t.err = .ok :=
  ⟨by decide, ⟨_, rfl, by decide⟩, ⟨_, rfl, by decide⟩, ⟨_, rfl, by decide⟩, _, rfl, by decide⟩

/-- A write to CMD that changes a context, and one that changes a CRC unit. -/
theorem witness_ContextAndUnitWriters :
    (∃ t, (all bmw63).perform (.write 0 4 0x0A300000) = .next t ∧ t.ctx 3 ≠ (all bmw63).ctx 3) ∧
    ∃ t, (allCrc { crc3 with reg := 5 }).perform (.write 0 4 0x21100000) = .next t ∧ t.crc 1 ≠ (allCrc { crc3 with reg := 5 }).crc 1 := by
  refine ⟨⟨_, rfl, fun h => ?_⟩, ⟨_, rfl, by decide +kernel⟩⟩
  exact absurd (congrArg Ctx.st h) (by decide)

theorem witness_ResultWriters :
    ∃ t, (all bmw63).perform (.write 0 4 0x08300000) = .next t ∧ t.result ≠ (all bmw63).result := ⟨_, rfl, by decide⟩

/-- A host write to the last byte of DMEM, and the last byte of a CRCFIN window. -/
theorem witness_DmemWriters :
    (∃ t, ({ State.reset with dmem := [(4095, 1)] } : State).perform (.write 0x10FFF 1 2) = .next t ∧ t.readByte 4095 ≠ 1) ∧
    ∃ t, ({ allCrc crc3 with a2 := 4095, dmem := [(4095, 0xFF)] } : State).perform (.write 0 4 0x23100000) = .next t ∧
      t.readByte 4095 ≠ 0xFF := ⟨⟨_, rfl, by decide⟩, _, rfl, by decide +kernel⟩

/-- STATUS changed by a command, STICKY cleared by reset, an operand register changed by half. -/
theorem witness_StatusAndOperandWriters :
    (∃ t, State.reset.perform (.write 0 4 0x0B000000) = .next t ∧ t.err ≠ State.reset.err ∧ t.sticky ≠ State.reset.sticky) ∧
    (∃ t, (State.reset.raise .bounds).perform .hwReset = .next t ∧ (State.reset.raise .bounds).sticky = true ∧ t.sticky = false) ∧
    ∃ t, State.reset.perform (.write 0x24 4 1) = .next t ∧ t.operand .a3 ≠ State.reset.operand .a3 :=
  ⟨⟨_, rfl, by decide⟩, ⟨_, rfl, by decide⟩, _, rfl, by decide⟩

/-- A Tiger and a Skein immediate, on the first and the last slot. -/
theorem witness_InitCompletes : (Instr.init 0 0 0x0622).wellFormed State.reset.nctx State.reset.ncrc = true ∧
    (Instr.init 3 0 0x0014).wellFormed State.reset.nctx State.reset.ncrc = true := by decide

/-- A plain context and one in HMAC mode. -/
theorem witness_ResetCompletes : (Instr.reset 3 0 0).wellFormed (all bmw63).nctx (all bmw63).ncrc = true ∧
    ((all bmw63).ctx 3).st = .ready ∧ ((all bmw63).ctx 3).hmac = false ∧
    ((all (bmw63.hmacKeyed .len64AtEnd abc 0)).ctx 3).st = .ready ∧ ((all (bmw63.hmacKeyed .len64AtEnd abc 0)).ctx 3).hmac = true := by
  decide

/-- The byte that fills a BMW block, one that does not, a full Skein block and one that is not full. -/
theorem witness_Update1Completes : (Instr.update1 3 0 0xFF).wellFormed (all bmw63).nctx (all bmw63).ncrc = true ∧
    (∀ c ∈ [bmw63, tiger1, skein0, skein32], ((all c).ctx 3).st = .ready) ∧
    (bmw63.ptr + 1 = bmw63.blockLen ∧ tiger1.ptr = 1 ∧ skein0.ptr = 0 ∧ skein32.ptr = skein32.blockLen) ∧
    (((all bmw63).ctx 3).wf ∧ ((all tiger1).ctx 3).wf ∧ ((all skein0).ctx 3).wf ∧ ((all skein32).ctx 3).wf) :=
  ⟨by decide, by decide, by decide, all_wf bmw63_wf, all_wf tiger1_wf, all_wf skein0_wf, all_wf skein32_wf⟩

/-- A window that ends at the end of DMEM, the whole of DMEM, and the empty window past its last byte. -/
theorem witness_UpdateCompletes : (Instr.update 3 0 0).wellFormed (all bmw63).nctx (all bmw63).ncrc = true ∧
    ((all bmw63).ctx 3).st = .ready ∧
    ∀ w ∈ ([(4093, 3), (0, 4096), (4096, 0)] : List (Nat × Nat)),
      let s := { all bmw63 with a0 := BitVec.ofNat 64 w.1, a1 := BitVec.ofNat 64 w.2 }
      s.a0.toNat + s.a1.toNat ≤ s.platform.dmemSize := by decide

theorem witness_DigestCompletes : (Instr.digest 3 0 0).wellFormed (all bmw63).nctx (all bmw63).ncrc = true ∧
    (let s := { all bmw63 with a2 := 4064 }
     (s.ctx 3).st = .ready ∧ s.a2.toNat + (s.ctx 3).natLen = s.platform.dmemSize) ∧
    ((all bmw63).ctx 3).wf := ⟨by decide, by decide, all_wf bmw63_wf⟩

/-- No byte past the end of DMEM, one byte, and a length above the natural one. -/
theorem witness_DigestnCompletes : (Instr.digestn 3 0 0).wellFormed (all bmw63).nctx (all bmw63).ncrc = true ∧
    (∀ w ∈ ([(4096, 0), (4095, 1), (4064, 33)] : List (Nat × Nat)),
      let s := { all bmw63 with a2 := BitVec.ofNat 64 w.1, a3 := BitVec.ofNat 64 w.2 }
      (s.ctx 3).st = .ready ∧ s.a2.toNat + min s.a3.toNat (s.ctx 3).natLen = s.platform.dmemSize) ∧
    ((all bmw63).ctx 3).wf := ⟨by decide, by decide, all_wf bmw63_wf⟩

theorem witness_DigestnTruncatesDigest :
    (let s := { all bmw63 with a2 := 4064 }
     (3 : BitVec 4).toNat < s.nctx ∧ (s.ctx 3).st = .ready ∧ (31 : Word64).toNat < (s.ctx 3).natLen ∧
       (0 : Word64).toNat < (s.ctx 3).natLen ∧ s.a2.toNat + (s.ctx 3).natLen = s.platform.dmemSize) ∧
    ((all bmw63).ctx 3).wf := ⟨by decide, all_wf bmw63_wf⟩

/-- One byte past the end for each of the two commands. -/
theorem witness_DigestOutOfBounds :
    (Instr.digest 3 0 0).wellFormed (all bmw63).nctx (all bmw63).ncrc = true ∧ ((all bmw63).ctx 3).st = .ready ∧
    (let s := { all bmw63 with a2 := 4065 }; s.a2.toNat + (s.ctx 3).natLen = s.platform.dmemSize + 1) ∧
    (let s := { all bmw63 with a2 := 4096, a3 := 1 }
     s.a2.toNat + min s.a3.toNat (s.ctx 3).natLen = s.platform.dmemSize + 1) ∧
    let s := { all bmw63 with a2 := 4097, a3 := 0 }
    s.a2.toNat + min s.a3.toNat (s.ctx 3).natLen = s.platform.dmemSize + 1 := by decide

/-- INIT, one byte, DIGEST; and INIT, HMACINIT with a key of one byte, one byte, DIGESTN. -/
theorem witness_DigestLeavesInitState :
    let s := { State.reset with dmem := [(0, 0x61)] }
    ∃ t1 t2 t3 t0 u2 u3 : State, exec (.init 3 0 0x0002) s = .next t1 ∧ t1.err = .ok ∧
      (State.absorbChunks 3 [.byte 0x61] t1 = .next t2 ∧ exec (.digest 3 0 0) (t2.withA2 4064) = .next t3 ∧ t3.err = .ok) ∧
      exec (.hmacinit 3 0 0) { t1 with a0 := 0, a1 := 1, a3 := 31 } = .next t0 ∧ t0.err = .ok ∧
      State.absorbChunks 3 [.byte 0x61] t0 = .next u2 ∧
      exec (.digestn 3 0 0) { u2 with a2 := 4065, a3 := 31 } = .next u3 ∧ u3.err = .ok :=
  ⟨_, _, _, _, _, _, rfl, by decide, ⟨rfl, rfl, by decide⟩, rfl, by decide, rfl, rfl, by decide⟩

/-- A copy to itself and to an UNBOUND slot. -/
theorem witness_CopyCompletes : (Instr.copy 0 0 0).wellFormed (withCtx bmw63).nctx (withCtx bmw63).ncrc = true ∧
    (Instr.copy 0 3 0).wellFormed (withCtx bmw63).nctx (withCtx bmw63).ncrc = true ∧ ((withCtx bmw63).ctx 0).st = .ready ∧
    ((withCtx bmw63).ctx 3).st = .unbound := by decide

theorem witness_CopyIndependence :
    (0 : BitVec 4).toNat < (withCtx bmw63).nctx ∧ (3 : BitVec 4).toNat < (withCtx bmw63).nctx ∧ (0 : BitVec 4) ≠ 3 ∧
    ((withCtx bmw63).ctx 0).st = .ready ∧
    ∀ c ∈ ([.window 0 4096, .window 4096 0] ++ [.byte 0x61] : List Chunk), (withCtx bmw63).chunkOk c = true := by decide

/-- A plain context and one in HMAC mode with a shortened output. -/
theorem witness_GetblkAndGetdlenComplete : (Instr.getblk 3 0 0).wellFormed (all bmw63).nctx (all bmw63).ncrc = true ∧
    ((all bmw63).ctx 3).st = .ready ∧ ((all bmw63).ctx 3).hmac = false ∧
    (let c := (all (bmw63.hmacKeyed .len64AtEnd abc 1)).ctx 3; c.st = .ready ∧ c.hmac = true ∧ c.hlen = 1) := by decide

theorem witness_FreeCompletes : (Instr.free 3 0 0).wellFormed State.reset.nctx State.reset.ncrc = true := by decide

/-- "abc" in two pieces and in one. -/
theorem witness_ChunkInvariance :
    let s := { all bmw63 with dmem := Memory.setBytes [] 4093 abc }
    (3 : BitVec 4).toNat < s.nctx ∧ (s.ctx 3).st = .ready ∧
    (∀ c ∈ ([.byte 0x61, .window 4094 2] : List Chunk), s.chunkOk c = true) ∧
    (4093 : Word64).toNat + (3 : Word64).toNat ≤ s.platform.dmemSize ∧
    ([.byte 0x61, .window 4094 2] : List Chunk).flatMap s.chunkBytes = s.memRead (4093 : Word64).toNat (3 : Word64).toNat := by decide

theorem witness_BufferCountsBytes :
    (let s := all skein0
     (3 : BitVec 4).toNat < s.nctx ∧ (s.ctx 3).st = .ready ∧ ∀ c ∈ ([.byte 0x61, .window 4065 31] : List Chunk), s.chunkOk c = true) ∧
    skein0.wf ∧ skein0.fresh := ⟨by decide, skein0_wf, rfl, by decide, by decide⟩

theorem witness_SkeinDefersFullBlock :
    (let s := { all skein0 with a0 := 4064, a1 := 32 }
     (3 : BitVec 4).toNat < s.nctx ∧ (s.ctx 3).st = .ready ∧ algFamily (s.ctx 3).alg = .skein ∧
       s.a1.toNat = (s.ctx 3).blockLen ∧ s.a0.toNat + s.a1.toNat = s.platform.dmemSize ∧ (s.ctx 3).hmac = false) ∧
    skein0.wf ∧ skein0.fresh := ⟨by decide, skein0_wf, rfl, by decide, by decide⟩

/-- For the layout, the last buffer length that leaves room in the block and the first that does not, under each setting. -/
theorem witness_LenFieldOnlyBmwBig : tiger1.alg ≠ .bmw384 ∧ tiger1.alg ≠ .bmw512 ∧
    (∀ n ∈ [111, 112, 119, 120, 127], (zeros n).length < 128) ∧
    (let c := fed .bmw512 0x0004 0 []; c.buf = [] ∧ c.bcount = 0) := by decide

theorem witness_TigerOutputOptions : algFamily tiger1.alg = .tiger ∧ (24 : Nat) ≤ 24 ∧ (0 : Nat) < 3 ∧ (2 : Nat) < 3 ∧ (7 : Nat) < 8 := by
  decide

/-- Keys of B and of B + 1 bytes that end at the end of DMEM; requested lengths 0, 1, L - 1 and L. -/
theorem witness_HmacinitCompletes : (Instr.hmacinit 3 0 0).wellFormed (all bmw63).nctx (all bmw63).ncrc = true ∧
    ((all bmw63).ctx 3).st = .ready ∧ ((all bmw63).ctx 3).wf ∧
    ∀ w ∈ ([(4032, 64, 0), (4031, 65, 1), (4096, 0, 31), (0, 4096, 32)] : List (Nat × Nat × Nat)),
      let s := { all bmw63 with a0 := BitVec.ofNat 64 w.1, a1 := BitVec.ofNat 64 w.2.1, a3 := BitVec.ofNat 64 w.2.2 }
      s.a0.toNat + s.a1.toNat ≤ s.platform.dmemSize := ⟨by decide, by decide, all_wf bmw63_wf, by decide⟩

theorem witness_HmacIsNestedHash :
    (let s := { all bmw63 with a0 := 0, a1 := 65, a3 := 31 }
     (3 : BitVec 4).toNat < s.nctx ∧ (s.ctx 3).st = .ready ∧ s.a0.toNat + s.a1.toNat ≤ s.platform.dmemSize ∧
       (∀ c ∈ ([.byte 0x61, .window 4096 0] : List Chunk), s.chunkOk c = true) ∧
       (4065 : Word64).toNat + (s.ctx 3).hmacOutLen s.a3.toNat = s.platform.dmemSize) ∧
    ((all bmw63).ctx 3).wf := ⟨by decide, all_wf bmw63_wf⟩

/-- A key of 65 bytes, and its plain digest as the key of the second machine. -/
theorem witness_HmacLongKey :
    let s := { all bmw63 with a1 := 65, dmem := Memory.setBytes [] 0 (zeros 65) }
    let s' := { s.memWrite 1000 (bmw63.plainDigest .len64AtEnd (zeros 65)) with a0 := 1000, a1 := 32 }
    (3 : BitVec 4).toNat < s.nctx ∧ s'.nctx = s.nctx ∧ s'.platform = s.platform ∧ s'.ctx 3 = s.ctx 3 ∧ s'.a3 = s.a3 ∧
      (s.ctx 3).st = .ready ∧ (s.ctx 3).wf ∧ (s.ctx 3).blockLen < s.a1.toNat ∧ s.a0.toNat + s.a1.toNat ≤ s.platform.dmemSize ∧
      s'.a0.toNat + s'.a1.toNat ≤ s.platform.dmemSize ∧
      s'.memRead s'.a0.toNat s'.a1.toNat = (s.ctx 3).plainDigest s.platform.lenField (s.memRead s.a0.toNat s.a1.toNat) :=
  ⟨by decide, rfl, rfl, rfl, rfl, by decide, all_wf bmw63_wf, by decide, by decide, by decide, by decide +kernel⟩

/-- The same key for a fresh context and for one that already holds another key and bytes. -/
theorem witness_HmacCleanStart :
    let s := { all (fed .bmw256 0x0002 0 []) with a1 := 3, dmem := Memory.setBytes [] 0 abc }
    let s' := { all (bmw63.hmacKeyed .len64AtEnd [0x78] 1) with a0 := 4093, a1 := 3, dmem := Memory.setBytes [] 4093 abc }
    (3 : BitVec 4).toNat < s.nctx ∧ s'.nctx = s.nctx ∧ s'.platform = s.platform ∧ s'.a3 = s.a3 ∧ (s.ctx 3).st = .ready ∧
      (s'.ctx 3).st = .ready ∧ (s'.ctx 3).alg = (s.ctx 3).alg ∧ (s'.ctx 3).blockLen = (s.ctx 3).blockLen ∧
      (s'.ctx 3).digestLen = (s.ctx 3).digestLen ∧ (s'.ctx 3).tbe = (s.ctx 3).tbe ∧ (s'.ctx 3).passes = (s.ctx 3).passes ∧
      s.a0.toNat + s.a1.toNat ≤ s.platform.dmemSize ∧ s'.a0.toNat + s'.a1.toNat ≤ s.platform.dmemSize ∧
      s'.memRead s'.a0.toNat s'.a1.toNat = s.memRead s.a0.toNat s.a1.toNat := by decide

/-- Records at the end of DMEM with the smallest and the largest width. -/
theorem witness_CrccfgCompletes : (Instr.crccfg 1 0 0).wellFormed State.reset.nctx State.reset.ncrc = true ∧
    ∀ r ∈ [crcRecord 3 0 7 7 7, crcRecord 82 3 (2 ^ 82 - 1) 0 0],
      let s := { State.reset with a0 := 4032, dmem := Memory.setBytes [] 4032 r }
      let byte := fun j => s.readByte (s.a0.toNat + j)
      let value := fun off => beDecode (s.memRead (s.a0.toNat + off) 16)
      s.a0.toNat + 64 = s.platform.dmemSize ∧ 3 ≤ (byte 0).toNat ∧ (byte 0).toNat ≤ 82 ∧ (byte 1).toNat < 4 ∧
        (∀ j, j < 16 → 2 ≤ j → byte j = 0) ∧ value 16 < 2 ^ (byte 0).toNat ∧ value 32 < 2 ^ (byte 0).toNat ∧
        value 48 < 2 ^ (byte 0).toNat := by decide +kernel

theorem witness_CrcinitCompletes : (Instr.crcinit 1 0 0).wellFormed (allCrc crc3).nctx (allCrc crc3).ncrc = true ∧
    ((allCrc crc3).crc 1).cfgd = true := by decide

/-- Both paths, a window that ends at the end of DMEM and the empty one there. -/
theorem witness_CrcupdCompletes : (Instr.crcupd 1 0 0).wellFormed (allCrc crc3).nctx (allCrc crc3).ncrc = true ∧
    (Instr.crcupd 1 0 1).wellFormed (allCrc crc3).nctx (allCrc crc3).ncrc = true ∧ ((allCrc crc3).crc 1).cfgd = true ∧
    ∀ w ∈ ([(4093, 3), (4096, 0)] : List (Nat × Nat)),
      let s := { allCrc crc3 with a0 := BitVec.ofNat 64 w.1, a1 := BitVec.ofNat 64 w.2 }
      s.a0.toNat + s.a1.toNat = s.platform.dmemSize := by decide

/-- One byte and eleven bytes at the end of DMEM. -/
theorem witness_CrcfinCompletes : (Instr.crcfin 1 0 0).wellFormed (allCrc crc3).nctx (allCrc crc3).ncrc = true ∧
    (let s := { allCrc crc3 with a2 := 4095 }
     (s.crc 1).cfgd = true ∧ s.a2.toNat + ((s.crc 1).width + 7) / 8 = s.platform.dmemSize) ∧
    (let s := { allCrc crc82 with a2 := 4085 }
     (s.crc 1).cfgd = true ∧ s.a2.toNat + ((s.crc 1).width + 7) / 8 = s.platform.dmemSize) ∧
    ((allCrc crc3).crc 1).wf ∧ ((allCrc crc82).crc 1).wf := ⟨by decide, by decide, by decide, crc3_wf, crc82_wf⟩

theorem witness_CrcPathEquivalence : ((allCrc crc3).crc 1).wf ∧ ((allCrc crc82).crc 1).wf := ⟨crc3_wf, crc82_wf⟩

/-- An UNBOUND slot and an UNDEF one with other contents, an unconfigured unit with other contents. -/
theorem witness_UnusableFieldsUnread :
    (3 < State.reset.nctx ∧ (State.reset.ctx 3).st ≠ .ready ∧ ({ bmw63 with st := .unbound } : Ctx).st = (State.reset.ctx 3).st) ∧
    (let s := all { bmw63 with st := .undef }
     3 < s.nctx ∧ (s.ctx 3).st ≠ .ready ∧ ({ skein32 with st := .undef } : Ctx).st = (s.ctx 3).st) ∧
    (1 < State.reset.ncrc ∧ (State.reset.crc 1).cfgd = false ∧ ({ crc3 with cfgd := false } : CrcUnit).cfgd = false) := by decide

/-- DMEM that differs outside the window of an UPDATE, and one that differs everywhere under a DIGEST. -/
theorem witness_CommandsReadOnlyTheirWindow :
    (let s := { all bmw63 with a0 := 4095, a1 := 1, dmem := [(4095, 7)] }
     writesDmem (.update 3 0 0) = false ∧ dmemWindow s (.update 3 0 0) = some (4095, 1) ∧
       ({ s with dmem := [(0, 1), (4095, 7)] } : State).readByte 4095 = s.readByte 4095) ∧
    writesDmem (.digest 3 0 0) = true := by decide

end Witnesses

end Sys2Proof.Tests
end

