-- ==== Sys2Proof/Proofs/Invariant.lean ====
section
/-! The invariant at reset and through every step. A command starts with BUSY = 1 (R104), so its effects are shown to keep the part of
the invariant that does not speak of STATUS, and the write of STATUS that ends the command brings back the rest. -/

namespace Sys2Proof.Machine

section DataInvariant

/-- The clauses of the invariant that do not speak of STATUS: what holds while a command is under way too. -/
structure State.DataInv (s : State) : Prop where
  params_ok : s.paramsOk
  dmem_wf : s.dmem.wf
  dmem_inside : ∀ cell ∈ s.dmem, cell.1 < s.platform.dmemSize
  ctxs_wf : ∀ c ∈ s.ctxs, c.st = .ready → c.wf
  crcs_wf : ∀ u ∈ s.crcs, u.cfgd = true → u.wf

/-- The invariant is its data clauses and its two STATUS clauses. -/
theorem State.inv_iff_dataInv (s : State) :
    s.Inv ↔ s.DataInv ∧ s.busy = false ∧ (s.err ≠ .ok → s.sticky = true) :=
  ⟨fun h => ⟨⟨h.params_ok, h.dmem_wf, h.dmem_inside, h.ctxs_wf, h.crcs_wf⟩, h.idle, h.sticky_of_error⟩,
    fun ⟨h, hidle, hsticky⟩ => ⟨h.params_ok, h.dmem_wf, h.dmem_inside, hidle, hsticky, h.ctxs_wf, h.crcs_wf⟩⟩

theorem State.Inv.dataInv {s : State} (h : s.Inv) : s.DataInv := (s.inv_iff_dataInv.1 h).1

/-- A slot past the last reads as the slot at reset. -/
theorem State.ctx_of_ge (s : State) {k : Nat} (hk : s.nctx ≤ k) : s.ctx k = Ctx.atReset := by
  rw [State.ctx, List.getD_eq_getElem?_getD, List.getElem?_eq_none hk, Option.getD_none]

/-- A unit past the last reads as the unit at reset. -/
theorem State.crc_of_ge (s : State) {u : Nat} (hu : s.ncrc ≤ u) : s.crc u = CrcUnit.atReset := by
  rw [State.crc, List.getD_eq_getElem?_getD, List.getElem?_eq_none hu, Option.getD_none]

variable {s : State} (h : s.DataInv)
include h

/-- The data clauses rest on the parameters, DMEM, the contexts and the CRC units alone. -/
theorem State.DataInv.congr {t : State} (hp : t.platform = s.platform) (hm : t.dmem = s.dmem) (hc : t.ctxs = s.ctxs)
    (hu : t.crcs = s.crcs) : t.DataInv where
  params_ok := s.paramsOk_congr h.params_ok hp (congrArg List.length hc) (congrArg List.length hu)
  dmem_wf := hm ▸ h.dmem_wf
  dmem_inside := by rw [hm, hp]; exact h.dmem_inside
  ctxs_wf := hc ▸ h.ctxs_wf
  crcs_wf := hu ▸ h.crcs_wf

/-- A command that completes without error meets the invariant, whatever STATUS was before. -/
theorem State.DataInv.inv_finish : s.finish.Inv :=
  (State.inv_iff_dataInv _).2 ⟨h.congr rfl rfl rfl rfl, rfl, fun herr => absurd rfl herr⟩

/-- A command that raises an error meets the invariant: raising sets STICKY (R372). -/
theorem State.DataInv.inv_raise (e : ErrCode) : (s.raise e).Inv :=
  (State.inv_iff_dataInv _).2 ⟨h.congr rfl rfl rfl rfl, rfl, fun _ => rfl⟩

theorem State.DataInv.startCommand : s.startCommand.DataInv := h.congr rfl rfl rfl rfl

theorem State.DataInv.draw : s.draw.DataInv := h.congr rfl rfl rfl rfl

theorem State.DataInv.setResult (v : Word64) : (s.setResult v).DataInv := h.congr rfl rfl rfl rfl

theorem State.DataInv.setCtx {c : Ctx} (hc : c.st = .ready → c.wf) (k : Nat) : (s.setCtx k c).DataInv where
  params_ok := s.paramsOk_congr h.params_ok rfl (s.setCtx_nctx k c) rfl
  dmem_wf := h.dmem_wf
  dmem_inside := h.dmem_inside
  ctxs_wf d hd := by
    rcases List.mem_or_eq_of_mem_set hd with hd | rfl
    · exact h.ctxs_wf d hd
    · exact hc
  crcs_wf := h.crcs_wf

theorem State.DataInv.setCrc {c : CrcUnit} (hc : c.cfgd = true → c.wf) (u : Nat) : (s.setCrc u c).DataInv where
  params_ok := s.paramsOk_congr h.params_ok rfl rfl (s.setCrc_ncrc u c)
  dmem_wf := h.dmem_wf
  dmem_inside := h.dmem_inside
  ctxs_wf := h.ctxs_wf
  crcs_wf d hd := by
    rcases List.mem_or_eq_of_mem_set hd with hd | rfl
    · exact h.crcs_wf d hd
    · exact hc

/-- A write inside DMEM keeps its canonical form and its address space (R70). -/
theorem State.DataInv.memWrite {a : Nat} {l : List Byte} (hl : a + l.length ≤ s.platform.dmemSize) :
    (s.memWrite a l).DataInv where
  params_ok := h.params_ok
  dmem_wf := Memory.wf_setBytes h.dmem_wf a l
  dmem_inside := Memory.inside_setBytes h.dmem_inside a l hl
  ctxs_wf := h.ctxs_wf
  crcs_wf := h.crcs_wf

/-- A READY slot is well formed; one past the last reads as UNBOUND. -/
theorem State.DataInv.ctx_wf {k : Nat} (hk : (s.ctx k).st = .ready) : (s.ctx k).wf := by
  by_cases hlt : k < s.nctx
  · exact h.ctxs_wf _ (s.ctx_mem hlt) hk
  · rw [s.ctx_of_ge (Nat.le_of_not_lt hlt)] at hk
    cases hk

/-- A configured unit is well formed; one past the last reads as unconfigured. -/
theorem State.DataInv.crc_wf {u : Nat} (hu : (s.crc u).cfgd = true) : (s.crc u).wf := by
  by_cases hlt : u < s.ncrc
  · exact h.crcs_wf _ (s.crc_mem hlt) hu
  · rw [s.crc_of_ge (Nat.le_of_not_lt hlt)] at hu
    cases hu

/-- A command meets the invariant if its body does once the state check has passed. -/
theorem State.DataInv.inv_checked {fields : Bool} {e : Option ErrCode} {body : State} (hbody : e = none → body.Inv) :
    (s.checked fields e body).Inv := by
  obtain ⟨-, heq⟩ | ⟨-, c, -, heq⟩ | ⟨-, he, heq⟩ := s.checked_cases fields e body <;> rw [heq]
  · exact h.inv_raise _
  · exact h.inv_raise c
  · exact hbody he

/-- A command of a context meets the invariant if its body does for a well-formed context. -/
theorem State.DataInv.inv_checked_ctx {fields : Bool} {k : Nat} {body : State} (hbody : (s.ctx k).wf → body.Inv) :
    (s.checked fields (s.ctxError k) body).Inv :=
  h.inv_checked fun he => hbody (h.ctx_wf ((s.ctxError_none k).1 he))

/-- A command of a configured CRC unit meets the invariant if its body does for a well-formed unit. -/
theorem State.DataInv.inv_checked_crc {fields : Bool} {u : Nat} {body : State} (hbody : (s.crc u).wf → body.Inv) :
    (s.checked fields (s.crcError u) body).Inv :=
  h.inv_checked fun he => hbody (h.crc_wf ((s.crcError_none u).1 he))

/-- A command with a window meets the invariant if its body does for a window inside DMEM. -/
theorem State.DataInv.inv_windowed {off n : Nat} {body : State} (hbody : off + n ≤ s.platform.dmemSize → body.Inv) :
    (s.windowed off n body).Inv := by
  obtain ⟨-, heq⟩ | ⟨hin, heq⟩ := s.windowed_cases off n body <;> rw [heq]
  · exact h.inv_raise _
  · exact hbody ((s.inBounds_iff off n).1 hin)

/-- DIGEST and DIGESTN write inside their window and leave the context reset, or leave it UNDEF (R150 to R152). -/
theorem State.DataInv.inv_digestInto {k : Nat} (hc : (s.ctx k).wf) (n : Nat) : (s.digestInto k n).Inv := by
  obtain ⟨hin, heq⟩ | ⟨-, heq⟩ := s.digestInto_cases k n <;> rw [heq]
  · have hwin := (s.inBounds_iff _ n).1 hin
    have hlen := List.length_take_le n ((s.ctx k).finalize s.platform.lenField)
    exact (((h.setCtx (fun _ => hc.reset) k).memWrite (Nat.le_trans (Nat.add_le_add_left hlen _) hwin)).setResult _).inv_finish
  · exact (h.setCtx (fun hready => by cases hready) k).inv_raise _

end DataInvariant

section Commands

/-- Whatever state an outcome goes on with meets the invariant. -/
def OutcomeInv (o : Host.Outcome State Fault Refusal) : Prop := ∀ t, o = .next t → t.Inv

@[simp] theorem outcomeInv_next (t : State) : OutcomeInv (.next t) ↔ t.Inv := by simp [OutcomeInv]

@[simp] theorem outcomeInv_fault (f : Fault) : OutcomeInv (.fault f) := by simp [OutcomeInv]

@[simp] theorem outcomeInv_refused (r : Refusal) : OutcomeInv (.refused r) := by simp [OutcomeInv]

variable {s : State} (h : s.DataInv) (x y : BitVec 4) (imm : BitVec 16)
include h

theorem execNop_inv : OutcomeInv (execNop x y imm s) := by
  rw [execNop, outcomeInv_next]
  split
  · exact h.inv_finish
  · exact h.inv_raise _

theorem execInit_inv : OutcomeInv (execInit x y imm s) := by
  rw [execInit, outcomeInv_next]
  split
  · split
    · exact (h.draw.setCtx (fun _ => initCtx_wf ..) _).inv_finish
    · exact h.inv_raise _
  · exact h.inv_raise _

theorem execReset_inv : OutcomeInv (execReset x y imm s) :=
  (outcomeInv_next _).2 <| h.inv_checked_ctx fun hc => (h.setCtx (fun _ => hc.reset) _).inv_finish

theorem execUpdate1_inv : OutcomeInv (execUpdate1 x y imm s) :=
  (outcomeInv_next _).2 <| h.inv_checked_ctx fun hc => (h.setCtx (fun _ => hc.absorb _) _).inv_finish

theorem execUpdate_inv : OutcomeInv (execUpdate x y imm s) :=
  (outcomeInv_next _).2 <| h.inv_checked_ctx fun hc => h.inv_windowed fun _ =>
    (h.setCtx (fun _ => hc.absorbAll _) _).inv_finish

theorem execDigest_inv : OutcomeInv (execDigest x y imm s) :=
  (outcomeInv_next _).2 <| h.inv_checked_ctx fun hc => h.inv_digestInto hc _

theorem execDigestn_inv : OutcomeInv (execDigestn x y imm s) :=
  (outcomeInv_next _).2 <| h.inv_checked_ctx fun hc => h.inv_digestInto hc _

theorem execCopy_inv : OutcomeInv (execCopy x y imm s) :=
  (outcomeInv_next _).2 <| h.inv_checked_ctx fun hc => (h.setCtx (fun _ => hc) _).inv_finish

theorem execGetblk_inv : OutcomeInv (execGetblk x y imm s) :=
  (outcomeInv_next _).2 <| h.inv_checked_ctx fun _ => (h.setResult _).inv_finish

theorem execGetdlen_inv : OutcomeInv (execGetdlen x y imm s) :=
  (outcomeInv_next _).2 <| h.inv_checked_ctx fun _ => (h.setResult _).inv_finish

theorem execFree_inv : OutcomeInv (execFree x y imm s) := by
  rw [execFree, outcomeInv_next]
  split
  · exact (h.draw.setCtx (fun hready => by cases hready) _).inv_finish
  · exact h.inv_raise _

theorem execHmacinit_inv : OutcomeInv (execHmacinit x y imm s) :=
  (outcomeInv_next _).2 <| h.inv_checked_ctx fun hc => h.inv_windowed fun _ =>
    (h.setCtx (fun _ => hc.hmacKeyed _ _ _) _).inv_finish

theorem execCrccfg_inv : OutcomeInv (execCrccfg x y imm s) := by
  refine (outcomeInv_next _).2 <| h.inv_checked fun _ => h.inv_windowed fun _ => ?_
  dsimp only
  split
  · exact h.inv_raise _
  · next hrecord => exact (h.setCrc (fun _ => wf_crcUnitOfRecord hrecord) _).inv_finish

theorem execCrcinit_inv : OutcomeInv (execCrcinit x y imm s) :=
  (outcomeInv_next _).2 <| h.inv_checked_crc fun hu => (h.setCrc (fun _ => hu.restart) _).inv_finish

theorem execCrcupd_inv : OutcomeInv (execCrcupd x y imm s) :=
  (outcomeInv_next _).2 <| h.inv_checked_crc fun hu => h.inv_windowed fun _ =>
    (h.setCrc (fun _ => hu.feed _ _) _).inv_finish

theorem execCrcfin_inv : OutcomeInv (execCrcfin x y imm s) := by
  refine (outcomeInv_next _).2 <| h.inv_checked_crc fun hu => h.inv_windowed fun hwin => ?_
  have hout : (beEncode (s.crc x.toNat).value.toNat (s.crc x.toNat).outLen).length = (s.crc x.toNat).outLen :=
    length_beEncode _ _
  exact (((h.memWrite (hout.symm ▸ hwin)).setResult _).setCrc (fun _ => hu.restart) _).inv_finish

/-- Every command completes in a state that meets the invariant. -/
theorem exec_inv (i : Instr) : OutcomeInv (exec i s) :=
  match i with
  | .nop x y imm => execNop_inv h x y imm
  | .init x y imm => execInit_inv h x y imm
  | .reset x y imm => execReset_inv h x y imm
  | .update1 x y imm => execUpdate1_inv h x y imm
  | .update x y imm => execUpdate_inv h x y imm
  | .digest x y imm => execDigest_inv h x y imm
  | .digestn x y imm => execDigestn_inv h x y imm
  | .copy x y imm => execCopy_inv h x y imm
  | .getblk x y imm => execGetblk_inv h x y imm
  | .getdlen x y imm => execGetdlen_inv h x y imm
  | .free x y imm => execFree_inv h x y imm
  | .hmacinit x y imm => execHmacinit_inv h x y imm
  | .crccfg x y imm => execCrccfg_inv h x y imm
  | .crcinit x y imm => execCrcinit_inv h x y imm
  | .crcupd x y imm => execCrcupd_inv h x y imm
  | .crcfin x y imm => execCrcfin_inv h x y imm

/-- A word written to CMD, assigned or not, ends in a state that meets the invariant (R104, R109). -/
theorem State.DataInv.outcomeInv_issue (c : BitVec 32) : OutcomeInv (s.issue c) := by
  unfold State.issue
  split
  · exact exec_inv h.startCommand _
  · exact (outcomeInv_next _).2 (h.startCommand.inv_raise _)

end Commands

section HostActions

variable {s : State} (h : s.Inv)
include h

/-- A change of nothing that the invariant speaks of keeps it. -/
theorem State.Inv.congr {t : State} (hp : t.platform = s.platform) (hm : t.dmem = s.dmem) (hc : t.ctxs = s.ctxs)
    (hu : t.crcs = s.crcs) (hb : t.busy = s.busy) (he : t.err = s.err) (hs : t.sticky = s.sticky) : t.Inv := by
  refine (State.inv_iff_dataInv t).2 ⟨h.dataInv.congr hp hm hc hu, hb.trans h.idle, ?_⟩
  rw [he, hs]
  exact h.sticky_of_error

theorem State.Inv.setOperand (r : OperandReg) (v : Word64) : (s.setOperand r v).Inv := by
  cases r <;> exact h.congr rfl rfl rfl rfl rfl rfl rfl

theorem State.Inv.regStore (v : Word64) (t : RegTarget) : (s.regStore v t).Inv := by
  cases t with
  | operand r p => exact h.setOperand r _
  | cmd | status | result | reserved => exact h

theorem State.Inv.memWrite {a : Nat} {l : List Byte} (hl : a + l.length ≤ s.platform.dmemSize) : (s.memWrite a l).Inv :=
  (State.inv_iff_dataInv _).2 ⟨h.dataInv.memWrite hl, h.idle, h.sticky_of_error⟩

omit h in
/-- An access that goes through reaches bytes inside DMEM (R76). -/
theorem State.outcomeInv_dmemAccess {addr size : Nat} {body : Nat → State} (haddr : s.inDmem addr = true)
    (hbody : ∀ a, a + size ≤ s.platform.dmemSize → (body a).Inv) : OutcomeInv (s.dmemAccess addr size body) := by
  unfold State.dmemAccess
  split
  · next hok =>
    split
    · exact outcomeInv_refused _
    · simp only [State.inDmem, State.dmemAccessOk, Bool.and_eq_true, decide_eq_true_eq] at haddr hok
      exact (outcomeInv_next _).2 (hbody _ (by omega))
  · exact outcomeInv_refused _

theorem State.Inv.outcomeInv_regRead (off size : Nat) : OutcomeInv (s.regRead off size) := by
  unfold State.regRead
  split
  · exact outcomeInv_refused _
  · split
    · exact outcomeInv_refused _
    · exact (outcomeInv_next _).2 (h.congr rfl rfl rfl rfl rfl rfl rfl)

theorem State.Inv.outcomeInv_regWrite (off size : Nat) (v : Word64) : OutcomeInv (s.regWrite off size v) := by
  unfold State.regWrite
  split
  · exact outcomeInv_refused _
  · split
    · exact outcomeInv_refused _
    · split
      · exact h.dataInv.outcomeInv_issue _
      · exact (outcomeInv_next _).2 (h.regStore v _)

theorem State.Inv.outcomeInv_hostRead (addr size : Nat) : OutcomeInv (s.hostRead addr size) := by
  unfold State.hostRead
  split
  · exact h.outcomeInv_regRead _ _
  · split
    · next hin => exact State.outcomeInv_dmemAccess hin fun _ _ => h.congr rfl rfl rfl rfl rfl rfl rfl
    · exact outcomeInv_fault _

theorem State.Inv.outcomeInv_hostWrite (addr size : Nat) (v : Word64) : OutcomeInv (s.hostWrite addr size v) := by
  unfold State.hostWrite
  split
  · exact h.outcomeInv_regWrite _ _ _
  · split
    · next hin =>
      exact State.outcomeInv_dmemAccess hin fun a ha => h.memWrite (by rw [length_leEncode]; exact ha)
    · exact outcomeInv_fault _

/-- Hardware reset leaves every slot UNBOUND, every unit unconfigured and no byte written (R58 to R61). -/
theorem State.Inv.hwReset : s.hwReset.Inv where
  params_ok := s.paramsOk_congr h.params_ok rfl s.hwReset_nctx s.hwReset_ncrc
  dmem_wf := List.Pairwise.nil
  dmem_inside := by simp [State.hwReset]
  idle := rfl
  sticky_of_error herr := absurd rfl herr
  ctxs_wf c hc hready := by
    obtain ⟨k, -, rfl⟩ := List.mem_map.1 hc
    cases hready
  crcs_wf u hu hcfgd := by
    obtain ⟨k, -, rfl⟩ := List.mem_map.1 hu
    cases hcfgd

theorem State.Inv.outcomeInv_perform (a : HostAction) : OutcomeInv (s.perform a) :=
  match a with
  | .write addr size v => h.outcomeInv_hostWrite addr size v
  | .read addr size => h.outcomeInv_hostRead addr size
  | .hwReset => (outcomeInv_next _).2 h.hwReset

theorem State.Inv.outcomeInv_step : OutcomeInv (step s) := by
  unfold step
  split
  · exact (outcomeInv_next _).2 h
  · next a rest _ =>
    have hrest : ({ s with program := rest } : State).Inv := h.congr rfl rfl rfl rfl rfl rfl rfl
    exact hrest.outcomeInv_perform a

end HostActions

/-- Settles O14: by the next host action, and for a write to CMD by the command it issues. -/
theorem stepKeepsInv : Obligations.StepKeepsInv := fun _ t h hstep => h.outcomeInv_step t hstep

/-- Settles O13: no slot is READY, no unit configured and no byte written. -/
theorem resetMeetsInv : Obligations.ResetMeetsInv := fun p nctx ncrc hp =>
  { params_ok := ⟨by rw [State.resetOn_nctx]; exact nctx.property, by rw [State.resetOn_ncrc]; exact ncrc.property, hp⟩
    dmem_wf := List.Pairwise.nil
    dmem_inside := fun _ hcell => absurd hcell List.not_mem_nil
    idle := rfl
    sticky_of_error := fun herr => absurd rfl herr
    ctxs_wf := fun c hc hready => by
      rw [List.eq_of_mem_replicate hc] at hready
      cases hready
    crcs_wf := fun u hu hcfgd => by
      rw [List.eq_of_mem_replicate hu] at hcfgd
      cases hcfgd }

end Sys2Proof.Machine
end

