-- ==== Sys2Proof/Proofs/LengthField.lean ====
section
/-! The length-field layout (R13, R197): the padding of BMW by whether the length field still fits the block, and where the layout cannot
be seen. -/

namespace Sys2Proof.Machine

section Padding

variable {w : Nat} (p : BmwCore w) (lf : LenField) (h : List (BitVec w)) (buf : List Byte) (n : Nat)

/-- The padding byte and the length field fit into the current block (R197). -/
theorem bmwPad_of_room (hroom : buf.length < 16 * p.nb - bmwLenBytes p lf) :
    bmwPad p lf h buf n =
      bmwCompress p h (buf ++ [0x80] ++ zeros (16 * p.nb - bmwLenBytes p lf - 1 - buf.length) ++
        leEncode ((n * (16 * p.nb) + buf.length) * 8) (bmwLenBytes p lf)) := by
  have hfit : ¬ 16 * p.nb - bmwLenBytes p lf < buf.length + 1 := by omega
  have hgap : 16 * p.nb - bmwLenBytes p lf - (buf.length + 1) = 16 * p.nb - bmwLenBytes p lf - 1 - buf.length := by omega
  simp only [bmwPad, List.length_append, List.length_singleton, if_neg hfit, hgap]

/-- The padding byte leaves no room, and the length field goes into a block of its own (R198). -/
theorem bmwPad_of_no_room (hfull : 16 * p.nb - bmwLenBytes p lf ≤ buf.length) :
    bmwPad p lf h buf n =
      bmwCompress p (bmwCompress p h (buf ++ [0x80] ++ zeros (16 * p.nb - 1 - buf.length)))
        (zeros (16 * p.nb - bmwLenBytes p lf) ++
          leEncode ((n * (16 * p.nb) + buf.length) * 8) (bmwLenBytes p lf)) := by
  have hgap : 16 * p.nb - (buf.length + 1) = 16 * p.nb - 1 - buf.length := by omega
  simp only [bmwPad, List.length_append, List.length_singleton, if_pos (Nat.lt_succ_of_le hfull), hgap]

end Padding

section Layouts

/-- The small core has one layout (R197). -/
theorem bmwLenBytes_small (lf : LenField) : bmwLenBytes bmwSmall lf = 8 := if_neg (by simp [bmwSmall])

theorem bmwPad_small_lenField (lf lf' : LenField) (h : List Word32) (buf : List Byte) (n : Nat) :
    bmwPad bmwSmall lf h buf n = bmwPad bmwSmall lf' h buf n := by
  simp only [bmwPad, bmwLenBytes_small]

/-- The bit length 0 is written as zeros, whatever the size of the field. -/
theorem leEncode_zero (n : Nat) : leEncode 0 n = zeros n := by
  induction n with
  | zero => rfl
  | succ n ih => simp [leEncode, ih, zeros, List.replicate_succ]

theorem zeros_append_zeros (m n : Nat) : zeros m ++ zeros n = zeros (m + n) := List.replicate_append_replicate

/-- The empty message pads to the padding byte and zeros under either layout (R205). -/
theorem bmwPad_big_empty (lf : LenField) (h : List Word64) :
    bmwPad bmwBig lf h [] 0 = bmwCompress bmwBig h ([0x80] ++ zeros 127) := by
  have hroom : ([] : List Byte).length < 16 * bmwBig.nb - bmwLenBytes bmwBig lf := by cases lf <;> decide
  have hsize : 16 * bmwBig.nb - bmwLenBytes bmwBig lf - 1 + bmwLenBytes bmwBig lf = 127 := by cases lf <;> rfl
  rw [bmwPad_of_room _ _ _ _ _ hroom]
  simp only [List.nil_append, List.length_nil, Nat.zero_mul, Nat.add_zero, leEncode_zero, Nat.sub_zero, List.append_assoc,
    zeros_append_zeros, hsize]

/-- The layout reaches the output of BMW through the padding alone. -/
theorem bmwFinal_congr_pad {w : Nat} {p : BmwCore w} {lf lf' : LenField} {h : List (BitVec w)} {buf : List Byte} {n : Nat}
    (hpad : bmwPad p lf h buf n = bmwPad p lf' h buf n) (nout : Nat) :
    bmwFinal p lf nout h buf n = bmwFinal p lf' nout h buf n := by
  simp only [bmwFinal, hpad]

variable {c : Ctx}

theorem Ctx.final_lenField_of_not_bmwBig (h384 : c.alg ≠ .bmw384) (h512 : c.alg ≠ .bmw512) (lf lf' : LenField) :
    c.final lf = c.final lf' := by
  unfold Ctx.final
  cases halg : c.alg with
  | bmw224 | bmw256 => exact bmwFinal_congr_pad (bmwPad_small_lenField lf lf' _ _ _) _
  | bmw384 => exact absurd halg h384
  | bmw512 => exact absurd halg h512
  | skein224 | skein256 | skein384 | skein512 | tiger | tiger2 => rfl

/-- The layout does not reach the output of an empty message, for any algorithm (R205). -/
theorem Ctx.final_lenField_of_empty (hbuf : c.buf = []) (hcount : c.bcount = 0) (lf lf' : LenField) :
    c.final lf = c.final lf' := by
  have hpad : ∀ h : List Word64, bmwPad bmwBig lf h c.buf c.bcount.toNat = bmwPad bmwBig lf' h c.buf c.bcount.toNat := by
    intro h
    rw [hbuf, hcount]
    exact (bmwPad_big_empty lf h).trans (bmwPad_big_empty lf' h).symm
  by_cases h384 : c.alg = .bmw384
  · simp only [Ctx.final, h384]
    exact bmwFinal_congr_pad (hpad _) _
  by_cases h512 : c.alg = .bmw512
  · simp only [Ctx.final, h512]
    exact bmwFinal_congr_pad (hpad _) _
  exact Ctx.final_lenField_of_not_bmwBig h384 h512 lf lf'

/-- Absorption after a plain reset, as the outer hash of HMAC makes it, keeps the algorithm. -/
theorem Ctx.alg_outerHash (c : Ctx) (pad inner : List Byte) : ((c.plainReset.absorbAll pad).absorbAll inner).alg = c.alg :=
  (Ctx.sameConfig_trans c.plainReset_config
    (Ctx.sameConfig_trans (Ctx.absorbAll_config _ pad) (Ctx.absorbAll_config _ inner))).2.1

/-- Neither hash of HMAC sees the layout when the algorithm does not (R306). -/
theorem Ctx.finalize_lenField_of_not_bmwBig (h384 : c.alg ≠ .bmw384) (h512 : c.alg ≠ .bmw512) (lf lf' : LenField) :
    c.finalize lf = c.finalize lf' := by
  have hinner : c.final lf = c.final lf' := Ctx.final_lenField_of_not_bmwBig h384 h512 lf lf'
  have houter : c.hmacFinal lf = c.hmacFinal lf' := by
    simp only [Ctx.hmacFinal, hinner]
    rw [Ctx.final_lenField_of_not_bmwBig (by rwa [Ctx.alg_outerHash]) (by rwa [Ctx.alg_outerHash]) lf lf']
  simp only [Ctx.finalize, hinner, houter]

/-- BMW-384 and BMW-512 under LEN64_AT_END: the bit length in 8 bytes at offset 120. -/
theorem bmwPad_big_len64 (h : List Word64) (buf : List Byte) (n : Nat) :
    bmwPad bmwBig .len64AtEnd h buf n =
      if buf.length < 120 then
        bmwCompress bmwBig h (buf ++ [0x80] ++ zeros (119 - buf.length) ++ leEncode ((n * 128 + buf.length) * 8) 8)
      else
        bmwCompress bmwBig (bmwCompress bmwBig h (buf ++ [0x80] ++ zeros (127 - buf.length)))
          (zeros 120 ++ leEncode ((n * 128 + buf.length) * 8) 8) := by
  split
  · next hroom => exact bmwPad_of_room bmwBig .len64AtEnd h buf n hroom
  · next hfull => exact bmwPad_of_no_room bmwBig .len64AtEnd h buf n (Nat.le_of_not_lt hfull)

/-- BMW-384 and BMW-512 under LEN128_AT_112: the bit length in 16 bytes at offset 112. -/
theorem bmwPad_big_len128 (h : List Word64) (buf : List Byte) (n : Nat) :
    bmwPad bmwBig .len128At112 h buf n =
      if buf.length < 112 then
        bmwCompress bmwBig h (buf ++ [0x80] ++ zeros (111 - buf.length) ++ leEncode ((n * 128 + buf.length) * 8) 16)
      else
        bmwCompress bmwBig (bmwCompress bmwBig h (buf ++ [0x80] ++ zeros (127 - buf.length)))
          (zeros 112 ++ leEncode ((n * 128 + buf.length) * 8) 16) := by
  split
  · next hroom => exact bmwPad_of_room bmwBig .len128At112 h buf n hroom
  · next hfull => exact bmwPad_of_no_room bmwBig .len128At112 h buf n (Nat.le_of_not_lt hfull)

end Layouts

/-- Settles O45: independence from where the layout enters, the padding by its two cases, and the vectors by evaluation. -/
theorem lenFieldOnlyBmwBig : Obligations.LenFieldOnlyBmwBig := by
  refine ⟨fun c => ⟨fun h384 h512 => ?_, fun hbuf hcount => ?_⟩, fun h buf n _ => ⟨?_, ?_⟩, ?_⟩
  · exact Ctx.finalize_lenField_of_not_bmwBig h384 h512 _ _
  · exact Ctx.final_lenField_of_empty hbuf hcount _ _
  · exact bmwPad_big_len64 h buf n
  · exact bmwPad_big_len128 h buf n
  · decide +kernel

end Sys2Proof.Machine
end

