-- ==== Sys2Proof/Proofs/Completion.lean ====
section
/-! How a command ends (R104, R372): its effect reaches only contexts, CRC units, DMEM, RESULT and the count of draws, and then it
either finishes or raises an error that is not OK. Said once for all sixteen commands; the statements about completion and about the
writers of STATUS, RESULT and the operand registers derive from it. -/

namespace Sys2Proof.Machine

section Errors

/-- CheckCtx never answers OK (R162). -/
theorem State.ctxError_ne_ok (s : State) (k : Nat) : s.ctxError k ≠ some .ok := fun h => by
  obtain ⟨-, he⟩ | ⟨-, he⟩ := State.ctxError_some h <;> cases he

/-- The CRC units' state check never answers OK (R375). -/
theorem State.crcError_ne_ok (s : State) (u : Nat) : s.crcError u ≠ some .ok := fun h => by
  obtain ⟨-, he⟩ := State.crcError_some h
  cases he

/-- A record that is not valid never answers OK (R331). -/
theorem crcRecordError_ne_ok (record : List Byte) : crcRecordError record ≠ some .ok := fun h => by
  obtain he | he := crcRecordError_some h <;> cases he

end Errors

section Endings

/-- The states that a command's effect can reach from s before STATUS is written: DMEM, the slots, the units, RESULT and the count of
draws are free, every other field is that of s. -/
def State.SameControl (s u : State) : Prop :=
  u = { s with result := u.result, ctxs := u.ctxs, crcs := u.crcs, dmem := u.dmem, draws := u.draws }

/-- How a command ends in t when it starts in s: without error after its effect, or with an error that is not OK and RESULT as it was.
RESULT may change only if `writes` (R32, R104, R372). -/
inductive State.EndsIn (writes : Bool) (s : State) : State → Prop where
  | finish {u : State} (effect : s.SameControl u) (result : writes = false → u.result = s.result) : EndsIn writes s u.finish
  | raise {u : State} {e : ErrCode} (effect : s.SameControl u) (result : u.result = s.result) (error : e ≠ .ok) :
      EndsIn writes s (u.raise e)

namespace State.EndsIn

variable {writes : Bool} {s t : State}

/-- An error raised before any effect. -/
theorem raised {e : ErrCode} (he : e ≠ .ok) : s.EndsIn writes (s.raise e) := .raise rfl rfl he

theorem checked {fields : Bool} {e : Option ErrCode} {body : State} (he : e ≠ some .ok) (hbody : s.EndsIn writes body) :
    s.EndsIn writes (s.checked fields e body) := by
  obtain ⟨-, heq⟩ | ⟨-, c, rfl, heq⟩ | ⟨-, -, heq⟩ := s.checked_cases fields e body <;> rw [heq]
  · exact raised (by decide)
  · exact raised fun hc => he (congrArg some hc)
  · exact hbody

theorem windowed {off n : Nat} {body : State} (hbody : s.EndsIn writes body) : s.EndsIn writes (s.windowed off n body) := by
  obtain ⟨-, heq⟩ | ⟨-, heq⟩ := s.windowed_cases off n body <;> rw [heq]
  · exact raised (by decide)
  · exact hbody

theorem digestInto (k n : Nat) : s.EndsIn true (s.digestInto k n) := by
  obtain ⟨-, heq⟩ | ⟨-, heq⟩ := s.digestInto_cases k n <;> rw [heq]
  · exact .finish rfl nofun
  · exact .raise rfl rfl (by decide)

/-- BUSY and STICKY after a command (R34, R104, R372). -/
theorem status (h : s.EndsIn writes t) : t.busy = false ∧ t.sticky = (s.sticky || decide (t.err ≠ .ok)) := by
  cases h with
  | finish effect _ => rw [effect]; simp
  | raise effect _ error => rw [effect]; simp [error]

/-- The host's side after a command: A0 to A3, the parameters, the program and the last value read (R31). -/
theorem hostSide (h : s.EndsIn writes t) : s.sameOperands t ∧ s.sameHostSide t := by
  cases h with
  | finish effect _ => rw [effect]; exact ⟨⟨rfl, rfl, rfl, rfl⟩, rfl, rfl, rfl⟩
  | raise effect _ _ => rw [effect]; exact ⟨⟨rfl, rfl, rfl, rfl⟩, rfl, rfl, rfl⟩

/-- RESULT changes only by a writer of it that completes without error (R32). -/
theorem result_eq_or (h : s.EndsIn writes t) : t.result = s.result ∨ writes = true ∧ t.err = .ok := by
  cases h with
  | finish _ result => cases writes with
    | false => exact .inl (result rfl)
    | true => exact .inr ⟨rfl, rfl⟩
  | raise _ result _ => exact .inl result

end State.EndsIn

/-- Every command ends, whatever its fields and the state. -/
theorem exec_endsIn (i : Instr) (s : State) : ∃ t, exec i s = .next t ∧ s.EndsIn (writesResult i) t :=
  match i with
  | .nop x y imm => ⟨_, rfl, by
      split
      · exact .finish rfl fun _ => rfl
      · exact .raised (by decide)⟩
  | .init x y imm => ⟨_, rfl, by
      split
      · split
        · exact .finish rfl fun _ => rfl
        · exact .raised (by decide)
      · exact .raised (by decide)⟩
  | .reset x y imm => ⟨_, rfl, .checked (s.ctxError_ne_ok _) (.finish rfl fun _ => rfl)⟩
  | .update1 x y imm => ⟨_, rfl, .checked (s.ctxError_ne_ok _) (.finish rfl fun _ => rfl)⟩
  | .update x y imm => ⟨_, rfl, .checked (s.ctxError_ne_ok _) (.windowed (.finish rfl fun _ => rfl))⟩
  | .digest x y imm => ⟨_, rfl, .checked (s.ctxError_ne_ok _) (.digestInto _ _)⟩
  | .digestn x y imm => ⟨_, rfl, .checked (s.ctxError_ne_ok _) (.digestInto _ _)⟩
  | .copy x y imm => ⟨_, rfl, .checked (s.ctxError_ne_ok _) (.finish rfl fun _ => rfl)⟩
  | .getblk x y imm => ⟨_, rfl, .checked (s.ctxError_ne_ok _) (.finish rfl nofun)⟩
  | .getdlen x y imm => ⟨_, rfl, .checked (s.ctxError_ne_ok _) (.finish rfl nofun)⟩
  | .free x y imm => ⟨_, rfl, by
      split
      · exact .finish rfl fun _ => rfl
      · exact .raised (by decide)⟩
  | .hmacinit x y imm => ⟨_, rfl, .checked (s.ctxError_ne_ok _) (.windowed (.finish rfl fun _ => rfl))⟩
  | .crccfg x y imm => ⟨_, rfl, .checked nofun <| .windowed <| by
      dsimp only
      split
      · next e herr => exact .raised fun he => crcRecordError_ne_ok _ (he ▸ herr)
      · exact .finish rfl fun _ => rfl⟩
  | .crcinit x y imm => ⟨_, rfl, .checked (s.crcError_ne_ok _) (.finish rfl fun _ => rfl)⟩
  | .crcupd x y imm => ⟨_, rfl, .checked (s.crcError_ne_ok _) (.windowed (.finish rfl fun _ => rfl))⟩
  | .crcfin x y imm => ⟨_, rfl, .checked (s.crcError_ne_ok _) (.windowed (.finish rfl nofun))⟩

/-- How a command ended, from the state it left. -/
theorem exec_next_endsIn {i : Instr} {s t : State} (h : exec i s = .next t) : s.EndsIn (writesResult i) t := by
  obtain ⟨u, hexec, hend⟩ := exec_endsIn i s
  cases h.symm.trans hexec
  exact hend

end Endings

/-- Settles O15, by the ways in which a command can end. -/
theorem commandCompletes : Obligations.CommandCompletes := fun i s =>
  have ⟨t, hexec, hend⟩ := exec_endsIn i s
  have ⟨hbusy, hsticky⟩ := hend.status
  ⟨t, hexec, hbusy, hsticky, hend.hostSide⟩

end Sys2Proof.Machine
end

