-- ==== Sys2Proof/Proofs/HostActions.lean ====
section
/-! What a host action does (R75, R76, R104, R400): an equation for each way into the register block, and one inversion of an action
that goes through, from which the writers of STATUS, RESULT and the operand registers derive. -/

namespace Sys2Proof.Machine

section RegisterBlock

/-- What a legal access reaches lies in the 256 bytes of the register block (R30, R75). -/
theorem regTarget_lt {off size : Nat} {t : RegTarget} (h : regTarget off size = some t) : off < 256 := by
  refine Nat.lt_of_not_le fun hoff => ?_
  have hnone : regTarget off size = none := by
    unfold regTarget
    repeat' rw [if_neg (by omega)]
  rw [hnone] at h
  cases h

/-- CMD is reached by a 32-bit access at offset 0 alone (R33, R75). -/
theorem regTarget_eq_cmd {off size : Nat} (h : regTarget off size = some .cmd) : off = 0 ∧ size = 4 := by
  unfold regTarget at h
  repeat' split at h
  all_goals simp_all

/-- An aligned access of 4 or 8 bytes past RESULT reaches a reserved offset (R75, log entry 11). -/
theorem regTarget_reserved {off size : Nat} (hlo : 0x30 ≤ off) (hhi : off + size ≤ 0x100) (halign : off % size = 0)
    (hsize : size = 4 ∨ size = 8) : regTarget off size = some .reserved := by
  unfold regTarget
  repeat rw [if_neg (by omega)]
  exact if_pos ⟨hsize, halign, hhi⟩

theorem regTarget_operand_whole (r : OperandReg) : regTarget (operandOffset r) 8 = some (.operand r .whole) := by cases r <;> rfl

theorem regTarget_operand_low (r : OperandReg) : regTarget (operandOffset r) 4 = some (.operand r .low) := by cases r <;> rfl

theorem regTarget_operand_high (r : OperandReg) : regTarget (operandOffset r + 4) 4 = some (.operand r .high) := by
  cases r <;> rfl

/-- A read of the low half gives the low 32 bits, zero-extended (R75, R77). -/
theorem readPart_low (v : Word64) : readPart .low v = (v.extractLsb' 0 32).setWidth 64 := by
  refine BitVec.eq_of_toNat_eq ?_
  have h : v.toNat &&& 0xFFFFFFFF = v.toNat % 2 ^ 32 := Nat.and_two_pow_sub_one_eq_mod _ 32
  simp [readPart, h]
  omega

/-- A read of the high half gives the high 32 bits, zero-extended (R75, R77). -/
theorem readPart_high (v : Word64) : readPart .high v = (v.extractLsb' 32 32).setWidth 64 := by
  refine BitVec.eq_of_toNat_eq ?_
  simp [readPart, Nat.shiftRight_eq_div_pow]
  omega

variable (s : State)

theorem State.inRegBlock_iff (addr : Nat) :
    s.inRegBlock addr = true ↔ s.platform.regBase ≤ addr ∧ addr < s.platform.regBase + 256 := by
  simp [State.inRegBlock]

theorem State.inRegBlock_add {off : Nat} (h : off < 256) : s.inRegBlock (s.platform.regBase + off) = true := by
  rw [State.inRegBlock_iff]
  omega

variable {s} {off size : Nat} {tgt : RegTarget} (hbusy : s.busy = false) (htgt : regTarget off size = some tgt)
include hbusy htgt

/-- A host read of a register (R75). -/
theorem State.perform_read_reg :
    s.perform (.read (s.platform.regBase + off) size) = .next { s with busData := s.regValue tgt } := by
  simp [State.perform, State.hostRead, State.regRead, s.inRegBlock_add (regTarget_lt htgt), htgt, hbusy]

/-- A host write of a register other than CMD (R75). -/
theorem State.perform_write_reg (hcmd : tgt ≠ .cmd) (v : Word64) :
    s.perform (.write (s.platform.regBase + off) size v) = .next (s.regStore v tgt) := by
  simp [State.perform, State.hostWrite, State.regWrite, s.inRegBlock_add (regTarget_lt htgt), htgt, hbusy, hcmd]

omit hbusy htgt in
/-- A 32-bit host write of CMD is refused while BUSY = 1, else issues the word (R33, R104, R405). -/
theorem State.perform_write_cmd (s : State) (v : Word64) :
    s.perform (.write s.platform.regBase 4 v) =
      if s.busy then .refused (.accessWhileBusy s.platform.regBase) else s.issue (v.setWidth 32) := by
  have hin : s.inRegBlock s.platform.regBase = true := s.inRegBlock_add (by decide : 0 < 256)
  have hcmd : regTarget 0 4 = some .cmd := rfl
  simp [State.perform, State.hostWrite, State.regWrite, hin, hcmd, RegTarget.guarded]

end RegisterBlock

/-- The step that takes a write of a command's word from the host's program (R33, R104). -/
theorem step_cmdWrite {s : State} {w : BitVec 32} {i : Instr} {rest : List HostAction} (hbusy : s.busy = false)
    (hprog : s.program = s.cmdWrite w :: rest) (hdec : decode w = .ok i) :
    step s = exec i { s with program := rest, busy := true } := by
  have hstep : step s = ({ s with program := rest } : State).perform (s.cmdWrite w) := by rw [step, hprog]
  have hword : (w.setWidth 64).setWidth 32 = w := BitVec.setWidth_setWidth_of_le w (by decide)
  have hissue : step s = ({ s with program := rest } : State).issue w := by
    rw [hstep, State.cmdWrite, State.perform_write_cmd { s with program := rest }, if_neg (by simp [hbusy]), hword]
  rw [hissue, State.issue, hdec]
  rfl

/-- Settles O5, by the step of a write to CMD and the step of an idle machine. -/
theorem stepRunsDecodedCommand : Obligations.StepRunsDecodedCommand := by
  refine ⟨fun s w i rest => step_cmdWrite, fun s w i hdec => ?_, fun s hprog => by rw [step, hprog]⟩
  have hword : BitVec.ofNat 32 (w.toNat % 2 ^ 32) = w := by rw [Nat.mod_eq_of_lt w.isLt, BitVec.ofNat_toNat, BitVec.setWidth_eq]
  exact step_cmdWrite (s := s.withFetchWord 32 w.toNat) rfl (by rw [State.withFetchWord, hword]; rfl) hdec

/-- Settles O7, by the register that each offset and width reaches. -/
theorem registerAccesses : Obligations.RegisterAccesses := by
  intro s hbusy
  refine ⟨?_, ?_, fun r => ⟨?_, ?_, ?_⟩, ?_, ?_, ?_, fun v => ?_, fun v r => ⟨?_, ?_, ?_⟩, fun v => ⟨?_, ?_, ?_⟩,
    fun off size v hlo hhi halign hsize => ?_⟩
  · exact State.perform_read_reg (off := 0) (tgt := .cmd) hbusy rfl
  · exact State.perform_read_reg (tgt := .status) hbusy rfl
  · exact State.perform_read_reg hbusy (regTarget_operand_whole r)
  · rw [State.perform_read_reg hbusy (regTarget_operand_low r), State.regValue, readPart_low]
  · rw [Nat.add_assoc, State.perform_read_reg hbusy (regTarget_operand_high r), State.regValue, readPart_high]
  · exact State.perform_read_reg (tgt := .result .whole) hbusy rfl
  · rw [State.perform_read_reg (tgt := .result .low) hbusy rfl, State.regValue, readPart_low]
  · rw [State.perform_read_reg (tgt := .result .high) hbusy rfl, State.regValue, readPart_high]
  · exact State.perform_write_reg (tgt := .status) hbusy rfl nofun v
  · exact State.perform_write_reg hbusy (regTarget_operand_whole r) nofun v
  · exact State.perform_write_reg hbusy (regTarget_operand_low r) nofun v
  · rw [Nat.add_assoc]
    exact State.perform_write_reg hbusy (regTarget_operand_high r) nofun v
  · exact State.perform_write_reg (tgt := .result .whole) hbusy rfl nofun v
  · exact State.perform_write_reg (tgt := .result .low) hbusy rfl nofun v
  · exact State.perform_write_reg (tgt := .result .high) hbusy rfl nofun v
  · have htgt := regTarget_reserved hlo hhi halign hsize
    exact ⟨State.perform_read_reg hbusy htgt, State.perform_write_reg hbusy htgt nofun v⟩

section Inversion

variable {s t : State}

/-- A word written to CMD ends as its command does, or as ILLEGAL_COMMAND (R104, R109). -/
theorem State.issue_endsIn {w : BitVec 32} (h : s.issue w = .next t) :
    (∃ i, decode w = .ok i ∧ s.startCommand.EndsIn (writesResult i) t) ∨ s.startCommand.EndsIn false t := by
  unfold State.issue at h
  split at h
  · next i hdec => exact .inl ⟨i, hdec, exec_next_endsIn h⟩
  · cases h
    exact .inr (.raised (by decide))

/-- BUSY and STICKY after the write of a word to CMD (R34, R104, R384). -/
theorem State.issue_status {w : BitVec 32} (h : s.issue w = .next t) :
    t.busy = false ∧ t.sticky = (s.sticky || decide (t.err ≠ .ok)) := by
  obtain ⟨i, -, hend⟩ | hend := State.issue_endsIn h <;> exact hend.status

/-- The write of a word to CMD keeps A0 to A3 (R31). -/
theorem State.issue_operand {w : BitVec 32} (h : s.issue w = .next t) (r : OperandReg) : t.operand r = s.operand r := by
  have hsame : s.startCommand.sameOperands t := by
    obtain ⟨i, -, hend⟩ | hend := State.issue_endsIn h <;> exact hend.hostSide.1
  obtain ⟨h0, h1, h2, h3⟩ := hsame
  cases r with
  | a0 => exact h0
  | a1 => exact h1
  | a2 => exact h2
  | a3 => exact h3

/-- The write of a word to CMD keeps RESULT unless the word is that of a command which writes it and completes (R32). -/
theorem State.issue_result {w : BitVec 32} (h : s.issue w = .next t) :
    t.result = s.result ∨ ∃ i, decode w = .ok i ∧ writesResult i = true ∧ t.err = .ok := by
  obtain ⟨i, hdec, hend⟩ | hend := State.issue_endsIn h
  · exact hend.result_eq_or.imp_right fun ⟨hwrites, hok⟩ => ⟨i, hdec, hwrites, hok⟩
  · exact hend.result_eq_or.imp_right fun ⟨hwrites, _⟩ => nomatch hwrites

/-- A DMEM access that goes through ends in its body at some address (R76). -/
theorem State.dmemAccess_next {addr size : Nat} {body : Nat → State} (h : s.dmemAccess addr size body = .next t) :
    ∃ a, t = body a := by
  unfold State.dmemAccess at h
  split at h
  · split at h
    · cases h
    · cases h
      exact ⟨_, rfl⟩
  · cases h

/-- A read changes nothing but the last value read (R80, log entry 9). -/
theorem State.hostRead_next {addr size : Nat} (h : s.hostRead addr size = .next t) : ∃ v, t = { s with busData := v } := by
  unfold State.hostRead at h
  split at h
  · unfold State.regRead at h
    split at h
    · cases h
    · split at h
      · cases h
      · cases h
        exact ⟨_, rfl⟩
  · split at h
    · obtain ⟨a, rfl⟩ := State.dmemAccess_next h
      exact ⟨_, rfl⟩
    · cases h

/-- Everything a host write can do: it issues a word written to CMD, stores in a register, or writes DMEM (R75, R76, R104). -/
theorem State.hostWrite_cases {addr size : Nat} {v : Word64} (h : s.hostWrite addr size v = .next t) :
    (addr = s.platform.regBase ∧ size = 4 ∧ s.issue (v.setWidth 32) = .next t) ∨
    (∃ tgt, s.inRegBlock addr = true ∧ regTarget (addr - s.platform.regBase) size = some tgt ∧ t = s.regStore v tgt) ∨
    ∃ a l, t = s.memWrite a l := by
  unfold State.hostWrite at h
  split at h
  · next hin =>
    unfold State.regWrite at h
    split at h
    · cases h
    · next tgt htgt =>
      split at h
      · cases h
      · split at h
        · next hcmd =>
          obtain ⟨hoff, hsize⟩ := regTarget_eq_cmd (hcmd ▸ htgt)
          have hbase := (s.inRegBlock_iff addr).1 hin
          exact .inl ⟨by omega, hsize, h⟩
        · cases h
          exact .inr (.inl ⟨tgt, hin, htgt, rfl⟩)
  · split at h
    · obtain ⟨a, rfl⟩ := State.dmemAccess_next h
      exact .inr (.inr ⟨a, _, rfl⟩)
    · cases h

/-- How a host action that goes through can reach a register: by hardware reset, by the issue of a word, by a store in an operand
register. Any other changes DMEM and the last value read alone (R17, R75, R76, R400). -/
theorem State.perform_cases {a : HostAction} (h : s.perform a = .next t) :
    a = .hwReset ∨
    (∃ v, a = .write s.platform.regBase 4 v ∧ s.issue (v.setWidth 32) = .next t) ∨
    (∃ addr size v r part x, a = .write addr size v ∧ s.inRegBlock addr = true ∧
      regTarget (addr - s.platform.regBase) size = some (.operand r part) ∧ t = s.setOperand r x) ∨
    ∃ m v, t = { s with dmem := m, busData := v } := by
  cases a with
  | hwReset => exact .inl rfl
  | read addr size =>
    obtain ⟨v, rfl⟩ := State.hostRead_next h
    exact .inr (.inr (.inr ⟨s.dmem, v, rfl⟩))
  | write addr size v =>
    obtain ⟨rfl, rfl, hissue⟩ | ⟨tgt, hin, htgt, rfl⟩ | ⟨a, l, rfl⟩ := State.hostWrite_cases h
    · exact .inr (.inl ⟨v, rfl, hissue⟩)
    · cases tgt with
      | operand r part => exact .inr (.inr (.inl ⟨addr, size, v, r, part, _, rfl, hin, htgt, rfl⟩))
      | cmd | status | result | reserved => exact .inr (.inr (.inr ⟨s.dmem, s.busData, rfl⟩))
    · exact .inr (.inr (.inr ⟨s.dmem.setBytes a l, s.busData, rfl⟩))

end Inversion

section Writers

variable (s : State) (r : OperandReg) (v : Word64)

@[simp] theorem State.setOperand_err : (s.setOperand r v).err = s.err := by cases r <;> rfl
@[simp] theorem State.setOperand_sticky : (s.setOperand r v).sticky = s.sticky := by cases r <;> rfl
@[simp] theorem State.setOperand_busy : (s.setOperand r v).busy = s.busy := by cases r <;> rfl
@[simp] theorem State.setOperand_result : (s.setOperand r v).result = s.result := by cases r <;> rfl

/-- An operand register after a write of one: the value written, or as it was. -/
theorem State.operand_setOperand (q : OperandReg) : (s.setOperand r v).operand q = if q = r then v else s.operand q := by
  cases r <;> cases q <;> rfl

variable {s} {t : State} {a : HostAction}

/-- An action that is neither hardware reset nor a write to CMD keeps ERR, STICKY, BUSY and RESULT (R32, R35). -/
theorem State.perform_statusAndResult_cases (h : s.perform a = .next t) :
    a = .hwReset ∨ (∃ v, a = .write s.platform.regBase 4 v ∧ s.issue (v.setWidth 32) = .next t) ∨
      t.err = s.err ∧ t.sticky = s.sticky ∧ t.busy = s.busy ∧ t.result = s.result := by
  refine (State.perform_cases h).imp_right (Or.imp_right ?_)
  rintro (⟨-, -, -, r, -, x, -, -, -, rfl⟩ | ⟨m, v, rfl⟩) <;> simp

/-- A write to CMD that goes through issues its word. -/
theorem State.issue_of_perform {v : Word64} (h : s.perform (.write s.platform.regBase 4 v) = .next t) :
    s.issue (v.setWidth 32) = .next t := by
  rw [State.perform_write_cmd] at h
  split at h
  · cases h
  · exact h

/-- The opcodes of the commands that write RESULT (R32, R108). -/
theorem opcode_of_writesResult {i : Instr} (h : writesResult i = true) : i.opcode ∈ [0x05#8, 0x06, 0x08, 0x09, 0x23] := by
  cases i <;> simp_all [writesResult, Instr.opcode]

end Writers

/-- Settles O24: what is not hardware reset changes RESULT only by the issue of a command that writes it. -/
theorem resultWriters : Obligations.ResultWriters := by
  intro s t a h hne
  obtain hreset | ⟨v, rfl, hissue⟩ | ⟨-, -, -, hsame⟩ := State.perform_statusAndResult_cases h
  · exact .inl hreset
  · obtain hsame | ⟨i, hdec, hwrites, hok⟩ := State.issue_result hissue
    · exact absurd hsame hne
    · exact .inr ⟨i, ⟨v, rfl, hdec⟩, opcode_of_writesResult hwrites, hok⟩
  · exact absurd hsame hne

/-- Settles O26, by what a host action can do and how an issued command ends. -/
theorem statusAndOperandWriters : Obligations.StatusAndOperandWriters := by
  intro s t a h
  refine ⟨fun hne => ?_, fun hset hclear => ?_, fun v ha => ?_, fun r hne => ?_⟩
  · obtain hreset | ⟨v, rfl, -⟩ | ⟨herr, hsticky, hbusy, -⟩ := State.perform_statusAndResult_cases h
    · exact .inl hreset
    · exact .inr ⟨v, rfl⟩
    · simp [herr, hsticky, hbusy] at hne
  · obtain hreset | ⟨v, rfl, hissue⟩ | ⟨-, hsticky, -⟩ := State.perform_statusAndResult_cases h
    · exact hreset
    · have hsticky := (State.issue_status hissue).2
      simp [hset, hclear] at hsticky
    · simp [hset, hclear] at hsticky
  · subst ha
    exact State.issue_status (State.issue_of_perform h)
  · obtain hreset | ⟨v, rfl, hissue⟩ | ⟨addr, size, v, q, part, x, rfl, hin, htgt, rfl⟩ | ⟨m, v, rfl⟩ := State.perform_cases h
    · exact .inl hreset
    · exact absurd (State.issue_operand hissue r) hne
    · have hr : r = q := Decidable.byContradiction fun hrq =>
        hne (by rw [State.operand_setOperand, if_neg hrq])
      exact .inr ⟨addr, size, v, part, rfl, hin, hr ▸ htgt⟩
    · exact absurd (by cases r <;> rfl) hne

end Sys2Proof.Machine
end

