-- ==== Sys2Proof/Proofs/Reset.lean ====
section
/-! STATUS as a word (R34), and hardware reset (R58 to R61, R400): at the start and while running. -/

namespace Sys2Proof.Machine

/-- The word of a STATUS without error, STICKY or BUSY (R34, R58). -/
theorem State.statusWord_clear {s : State} (herr : s.err = .ok) (hsticky : s.sticky = false) (hbusy : s.busy = false) :
    s.statusWord = 0 := by
  rw [State.statusWord, herr, hsticky, hbusy]
  rfl

/-- Settles O10, bit by bit of the word that puts the fields side by side. -/
theorem statusWordFields : Obligations.StatusWordFields := by
  intro s
  refine ⟨?_, ?_, ?_, ?_, rfl, rfl, rfl, rfl, rfl, rfl, rfl⟩
  · exact BitVec.extractLsb'_append_eq_right
  · simp only [State.statusWord, BitVec.getLsbD_append]
    simp
  · simp only [State.statusWord, BitVec.getLsbD_append]
    simp
  · refine BitVec.eq_of_getLsbD_eq fun i hi => ?_
    have habove : ¬ 10 + i < 8 ∧ ¬ 10 + i - 8 < 1 ∧ ¬ 10 + i - 8 - 1 < 1 := by omega
    simp only [State.statusWord, BitVec.getLsbD_extractLsb', BitVec.getLsbD_append]
    simp [habove]

section Reset

variable (s : State)

@[simp] theorem State.resetOn_ctx (p : Platform) (n m : SlotCount) (k : Nat) : (State.resetOn p n m).ctx k = Ctx.atReset := by
  simp only [State.ctx, State.resetOn, List.getD_eq_getElem?_getD, List.getElem?_replicate]
  split <;> rfl

@[simp] theorem State.resetOn_crc (p : Platform) (n m : SlotCount) (u : Nat) : (State.resetOn p n m).crc u = CrcUnit.atReset := by
  simp only [State.crc, State.resetOn, List.getD_eq_getElem?_getD, List.getElem?_replicate]
  split <;> rfl

/-- Hardware reset leaves every slot UNBOUND (R59). -/
theorem State.hwReset_ctx_st (k : Nat) : (s.hwReset.ctx k).st = .unbound := by
  by_cases hk : k < s.hwReset.nctx
  · have hmem : s.hwReset.ctx k ∈ s.hwReset.ctxs := s.hwReset.ctx_mem hk
    obtain ⟨j, -, hj⟩ := List.mem_map.1 hmem
    rw [← hj]
    rfl
  · rw [State.ctx_of_ge _ (Nat.le_of_not_lt hk)]
    rfl

/-- Hardware reset leaves every unit unconfigured (R60). -/
theorem State.hwReset_crc_cfgd (u : Nat) : (s.hwReset.crc u).cfgd = false := by
  by_cases hu : u < s.hwReset.ncrc
  · have hmem : s.hwReset.crc u ∈ s.hwReset.crcs := s.hwReset.crc_mem hu
    obtain ⟨j, -, hj⟩ := List.mem_map.1 hmem
    rw [← hj]
    rfl
  · rw [State.crc_of_ge _ (Nat.le_of_not_lt hu)]
    rfl

/-- What hardware reset leaves rests on the counts, the draws and the host side alone (R400, log entry 20). -/
theorem State.hwReset_congr {s s' : State} (hnctx : s'.nctx = s.nctx) (hncrc : s'.ncrc = s.ncrc) (hdraws : s'.draws = s.draws)
    (hside : s.sameHostSide s') : s'.hwReset = s.hwReset := by
  obtain ⟨hplatform, hprogram, hbusData⟩ := hside
  simp [State.hwReset, hnctx, hncrc, hdraws, hplatform, hprogram, hbusData]

end Reset

/-- Settles O11: every register is 0 and every slot and unit is that of reset. -/
theorem resetState : Obligations.ResetState := by
  intro s h
  obtain ⟨p, n, m, rfl⟩ : ∃ p n m, s = State.resetOn p n m := h.elim (fun hs => ⟨_, _, _, hs⟩) id
  exact ⟨State.statusWord_clear rfl rfl rfl, rfl, rfl, rfl, rfl, rfl, rfl, rfl, rfl,
    fun k => by rw [State.resetOn_ctx]; rfl, fun u => by rw [State.resetOn_crc]; rfl⟩

/-- Settles O12, by what hardware reset leaves and what it rests on. -/
theorem hardwareReset : Obligations.HardwareReset := fun s =>
  ⟨⟨s.hwReset, rfl, State.statusWord_clear rfl rfl rfl, rfl, rfl, rfl, rfl, rfl, s.hwReset_nctx, s.hwReset_ncrc,
    s.hwReset_ctx_st, s.hwReset_crc_cfgd, fun _ => rfl, rfl, rfl, rfl⟩, fun _ => State.hwReset_congr⟩

end Sys2Proof.Machine
end

