-- ==== Sys2Proof/Proofs/UnusableFields.lean ====
section
/-! Noninterference (R59, R60, R375, R377): other contents in a context that is not READY, or in a CRC unit that is not configured, leave
every command's outcome the same. The change of contents is data, so that one pass over the commands serves both kinds: it goes
past every update of the state but a write of the changed slot or unit itself, and no check or reading of a usable one sees it. -/

namespace Sys2Proof.Machine

/-- Other contents for one context slot or one CRC unit. -/
inductive SlotChange where
  | ctx (k : Nat) (c : Ctx)
  | crc (u : Nat) (d : CrcUnit)

namespace SlotChange

/-- The state with the other contents in place. -/
def apply : SlotChange → State → State
  | .ctx k c, s => s.setCtx k c
  | .crc u d, s => s.setCrc u d

/-- Whether the change is of context slot j. -/
def atCtx (ch : SlotChange) (j : Nat) : Bool :=
  match ch with
  | .ctx k _ => j == k
  | .crc .. => false

/-- Whether the change is of CRC unit j. -/
def atCrc (ch : SlotChange) (j : Nat) : Bool :=
  match ch with
  | .ctx .. => false
  | .crc u _ => j == u

/-- Whether command i writes the changed slot or unit when it completes. -/
def writtenBy (ch : SlotChange) (i : Instr) : Bool :=
  match ctxTarget i, crcTarget i with
  | some j, _ => ch.atCtx j
  | none, some j => ch.atCrc j
  | none, none => false

/-- The change is of an existing slot or unit that no command may use, and leaves it unusable in the same way. -/
def Unusable (s : State) : SlotChange → Prop
  | .ctx k c => k < s.nctx ∧ (s.ctx k).st ≠ .ready ∧ c.st = (s.ctx k).st
  | .crc u d => u < s.ncrc ∧ (s.crc u).cfgd = false ∧ d.cfgd = false

/-- The state t with the other contents in place, unless a command that completed without error wrote over them. -/
def after (ch : SlotChange) (written : Bool) (t : State) : State := if t.err = .ok ∧ written = true then t else ch.apply t

section Apply

variable (ch : SlotChange) (s : State)

@[simp] theorem apply_platform : (ch.apply s).platform = s.platform := by cases ch <;> rfl
@[simp] theorem apply_a0 : (ch.apply s).a0 = s.a0 := by cases ch <;> rfl
@[simp] theorem apply_a1 : (ch.apply s).a1 = s.a1 := by cases ch <;> rfl
@[simp] theorem apply_a2 : (ch.apply s).a2 = s.a2 := by cases ch <;> rfl
@[simp] theorem apply_a3 : (ch.apply s).a3 = s.a3 := by cases ch <;> rfl
@[simp] theorem apply_draws : (ch.apply s).draws = s.draws := by cases ch <;> rfl
@[simp] theorem apply_memRead (a n : Nat) : (ch.apply s).memRead a n = s.memRead a n := by cases ch <;> rfl
@[simp] theorem apply_inBounds (a n : Nat) : (ch.apply s).inBounds a n = s.inBounds a n := by cases ch <;> rfl
@[simp] theorem apply_nctx : (ch.apply s).nctx = s.nctx := by cases ch <;> simp [apply]
@[simp] theorem apply_ncrc : (ch.apply s).ncrc = s.ncrc := by cases ch <;> simp [apply]
@[simp] theorem apply_ctxField (x y : BitVec 4) : (ch.apply s).ctxField x y = s.ctxField x y := by simp [State.ctxField]
@[simp] theorem apply_crcField (x y : BitVec 4) : (ch.apply s).crcField x y = s.crcField x y := by simp [State.crcField]

@[simp] theorem raise_apply (e : ErrCode) : (ch.apply s).raise e = ch.apply (s.raise e) := by cases ch <;> rfl
@[simp] theorem finish_apply : (ch.apply s).finish = ch.apply s.finish := by cases ch <;> rfl
@[simp] theorem draw_apply : (ch.apply s).draw = ch.apply s.draw := by cases ch <;> rfl
@[simp] theorem memWrite_apply (a : Nat) (l : List Byte) : (ch.apply s).memWrite a l = ch.apply (s.memWrite a l) := by cases ch <;> rfl
@[simp] theorem setResult_apply (v : Word64) : (ch.apply s).setResult v = ch.apply (s.setResult v) := by cases ch <;> rfl

/-- A slot written after the change: the change is gone if it was of that slot, else it can be made after the write. -/
theorem setCtx_apply (j : Nat) (c : Ctx) :
    (ch.apply s).setCtx j c = if ch.atCtx j then s.setCtx j c else ch.apply (s.setCtx j c) := by
  cases ch with
  | crc u d => rfl
  | ctx k b =>
    by_cases hjk : j = k
    · simp [apply, atCtx, hjk, State.setCtx]
    · simp [apply, atCtx, hjk, State.setCtx, List.set_comm b c (Ne.symm hjk)]

/-- A unit written after the change: the change is gone if it was of that unit, else it can be made after the write. -/
theorem setCrc_apply (j : Nat) (d : CrcUnit) :
    (ch.apply s).setCrc j d = if ch.atCrc j then s.setCrc j d else ch.apply (s.setCrc j d) := by
  cases ch with
  | ctx k c => rfl
  | crc u b =>
    by_cases hju : j = u
    · simp [apply, atCrc, hju, State.setCrc]
    · simp [apply, atCrc, hju, State.setCrc, List.set_comm b d (Ne.symm hju)]

end Apply

section Unusable

variable {ch : SlotChange} {s : State} (h : ch.Unusable s)
include h

/-- The state check of a context does not see the change. -/
theorem Unusable.ctxError (j : Nat) : (ch.apply s).ctxError j = s.ctxError j := by
  cases ch with
  | crc u d => rfl
  | ctx k c =>
    obtain ⟨hk, -, hst⟩ := h
    have hctx : ((s.setCtx k c).ctx j).st = (s.ctx j).st := by
      by_cases hjk : j = k
      · rw [hjk, s.ctx_setCtx_same hk, hst]
      · rw [s.ctx_setCtx_ne hjk]
    simp only [apply, State.ctxError, hctx]

/-- The state check of a CRC unit does not see the change. -/
theorem Unusable.crcError (j : Nat) : (ch.apply s).crcError j = s.crcError j := by
  cases ch with
  | ctx k c => rfl
  | crc u d =>
    obtain ⟨hu, hcfgd, hd⟩ := h
    have hcrc : ((s.setCrc u d).crc j).cfgd = (s.crc j).cfgd := by
      by_cases hju : j = u
      · rw [hju, s.crc_setCrc_same hu, hd, hcfgd]
      · rw [s.crc_setCrc_ne hju]
    simp only [apply, State.crcError, hcrc]

/-- A context that passes its state check is not the changed one. -/
theorem Unusable.of_ctxError_none {j : Nat} (hj : s.ctxError j = none) : ch.atCtx j = false ∧ (ch.apply s).ctx j = s.ctx j := by
  cases ch with
  | crc u d => exact ⟨rfl, rfl⟩
  | ctx k c =>
    have hjk : j ≠ k := fun hjk => h.2.1 (hjk ▸ (s.ctxError_none j).1 hj)
    exact ⟨by simp [atCtx, hjk], s.ctx_setCtx_ne hjk c⟩

/-- A CRC unit that passes its state check is not the changed one. -/
theorem Unusable.of_crcError_none {j : Nat} (hj : s.crcError j = none) : ch.atCrc j = false ∧ (ch.apply s).crc j = s.crc j := by
  cases ch with
  | ctx k c => exact ⟨rfl, rfl⟩
  | crc u d =>
    have hju : j ≠ u := fun hju => by
      have hcfgd := (s.crcError_none j).1 hj
      rw [hju, h.2.1] at hcfgd
      cases hcfgd
    exact ⟨by simp [atCrc, hju], s.crc_setCrc_ne hju d⟩

end Unusable

section Outcomes

variable {ch : SlotChange} {s : State} {written : Bool}

/-- Nothing that changes the slot or unit: the other contents stay. -/
@[simp] theorem after_false (t : State) : ch.after false t = ch.apply t := by simp [after]

/-- An error leaves the other contents in place. -/
theorem raise_apply_after {e : ErrCode} (he : e ≠ .ok) : (ch.apply s).raise e = ch.after written (s.raise e) := by
  simp [after, he]

/-- A slot written, and no error after it. -/
theorem setCtx_finish_apply (j : Nat) (c : Ctx) :
    ((ch.apply s).setCtx j c).finish = ch.after (ch.atCtx j) (s.setCtx j c).finish := by
  rw [setCtx_apply]
  cases ch.atCtx j <;> simp [after]

/-- A unit written, and no error after it. -/
theorem setCrc_finish_apply (j : Nat) (d : CrcUnit) :
    ((ch.apply s).setCrc j d).finish = ch.after (ch.atCrc j) (s.setCrc j d).finish := by
  rw [setCrc_apply]
  cases ch.atCrc j <;> simp [after]

/-- The checks of a command go the same way, if its body does once they have passed. -/
theorem checked_apply {fields fields' : Bool} {e : Option ErrCode} {body body' : State} (hfields : fields' = fields) (he : e ≠ some .ok)
    (hbody : e = none → body' = ch.after written body) :
    (ch.apply s).checked fields' e body' = ch.after written (s.checked fields e body) := by
  subst hfields
  cases fields' with
  | false => exact raise_apply_after (by decide)
  | true =>
    cases e with
    | none => exact hbody rfl
    | some c => exact raise_apply_after fun hc => he (congrArg some hc)

/-- The window check goes the same way. -/
theorem windowed_apply {off n : Nat} {body body' : State} (hbody : body' = ch.after written body) :
    (ch.apply s).windowed off n body' = ch.after written (s.windowed off n body) := by
  unfold State.windowed
  rw [apply_inBounds]
  split
  · exact hbody
  · exact raise_apply_after (by decide)

variable (h : ch.Unusable s) {fields fields' : Bool} {j : Nat}
include h

/-- A command of a READY context goes the same way, if its body does for a slot that is not the changed one. -/
theorem Unusable.checked_ctx {body body' : State} (hfields : fields' = fields)
    (hbody : ch.atCtx j = false → (ch.apply s).ctx j = s.ctx j → body' = ch.after written body) :
    (ch.apply s).checked fields' ((ch.apply s).ctxError j) body' = ch.after written (s.checked fields (s.ctxError j) body) := by
  rw [h.ctxError]
  refine checked_apply hfields (s.ctxError_ne_ok j) fun he => ?_
  obtain ⟨hat, hctx⟩ := h.of_ctxError_none he
  exact hbody hat hctx

/-- A command of a configured CRC unit goes the same way, if its body does for a unit that is not the changed one. -/
theorem Unusable.checked_crc {body body' : State} (hfields : fields' = fields)
    (hbody : ch.atCrc j = false → (ch.apply s).crc j = s.crc j → body' = ch.after written body) :
    (ch.apply s).checked fields' ((ch.apply s).crcError j) body' = ch.after written (s.checked fields (s.crcError j) body) := by
  rw [h.crcError]
  refine checked_apply hfields (s.crcError_ne_ok j) fun he => ?_
  obtain ⟨hat, hcrc⟩ := h.of_crcError_none he
  exact hbody hat hcrc

omit h in
/-- The shared effect of DIGEST and DIGESTN on a context that is not the changed one. -/
theorem digestInto_apply (hat : ch.atCtx j = false) (hctx : (ch.apply s).ctx j = s.ctx j) (n : Nat) :
    (ch.apply s).digestInto j n = ch.apply (s.digestInto j n) := by
  unfold State.digestInto
  rw [apply_a2, apply_inBounds]
  split <;> simp [hctx, setCtx_apply, hat]

end Outcomes

/-- Every command goes the same way with the other contents in place, and leaves them there unless it writes the whole slot or unit
(R59, R60, R375, R377). -/
theorem Unusable.exec_apply {ch : SlotChange} {s : State} (h : ch.Unusable s) (i : Instr) :
    ∃ t, exec i s = .next t ∧ exec i (ch.apply s) = .next (ch.after (ch.writtenBy i) t) :=
  match i with
  | .nop x y imm => ⟨_, rfl, congrArg Host.Outcome.next <|
      show (ch.apply s).checked (x == 0 && y == 0 && imm == 0) none (ch.apply s).finish =
          ch.after false (s.checked (x == 0 && y == 0 && imm == 0) none s.finish) from
        checked_apply rfl nofun fun _ => by simp⟩
  | .init x y imm => ⟨_, rfl, congrArg Host.Outcome.next <| by
      cases initAlg imm with
      | none => exact raise_apply_after (by decide)
      | some a =>
        exact checked_apply (e := none) (apply_ctxField ..) nofun fun _ => by
          rw [draw_apply, apply_draws, apply_a0]
          exact setCtx_finish_apply _ _⟩
  | .reset x y imm => ⟨_, rfl, congrArg Host.Outcome.next <| h.checked_ctx (by simp) fun _ hctx => by
      rw [hctx]
      exact setCtx_finish_apply _ _⟩
  | .update1 x y imm => ⟨_, rfl, congrArg Host.Outcome.next <| h.checked_ctx (by simp) fun _ hctx => by
      rw [hctx]
      exact setCtx_finish_apply _ _⟩
  | .update x y imm => ⟨_, rfl, congrArg Host.Outcome.next <| h.checked_ctx (by simp) fun _ hctx => by
      rw [apply_a0, apply_a1, apply_memRead, hctx]
      exact windowed_apply (setCtx_finish_apply _ _)⟩
  | .digest x y imm => ⟨_, rfl, congrArg Host.Outcome.next <| h.checked_ctx (by simp) fun hat hctx => by
      rw [hctx, digestInto_apply hat hctx]
      simp [writtenBy, ctxTarget, hat]⟩
  | .digestn x y imm => ⟨_, rfl, congrArg Host.Outcome.next <| h.checked_ctx (by simp) fun hat hctx => by
      rw [apply_a3, hctx, digestInto_apply hat hctx]
      simp [writtenBy, ctxTarget, hat]⟩
  | .copy x y imm => ⟨_, rfl, congrArg Host.Outcome.next <| h.checked_ctx (by simp) fun _ hctx => by
      rw [hctx]
      exact setCtx_finish_apply _ _⟩
  | .getblk x y imm => ⟨_, rfl, congrArg Host.Outcome.next <| h.checked_ctx (by simp) fun _ hctx => by
      rw [hctx, setResult_apply, finish_apply]
      exact (after_false _).symm⟩
  | .getdlen x y imm => ⟨_, rfl, congrArg Host.Outcome.next <| h.checked_ctx (by simp) fun _ hctx => by
      rw [hctx, setResult_apply, finish_apply]
      exact (after_false _).symm⟩
  | .free x y imm => ⟨_, rfl, congrArg Host.Outcome.next <|
      checked_apply (e := none) (by simp) nofun fun _ => by
        rw [draw_apply, apply_draws]
        exact setCtx_finish_apply _ _⟩
  | .hmacinit x y imm => ⟨_, rfl, congrArg Host.Outcome.next <| h.checked_ctx (by simp) fun _ hctx => by
      rw [apply_a0, apply_a1, apply_a3, apply_platform, apply_memRead, hctx]
      exact windowed_apply (setCtx_finish_apply _ _)⟩
  | .crccfg x y imm => ⟨_, rfl, congrArg Host.Outcome.next <| by
      refine checked_apply (by simp) nofun fun _ => ?_
      rw [apply_a0, apply_memRead]
      refine windowed_apply ?_
      dsimp only
      cases hrecord : crcRecordError (s.memRead s.a0.toNat crcRecordLen) with
      | none => exact setCrc_finish_apply _ _
      | some e => exact raise_apply_after fun he => crcRecordError_ne_ok _ (he ▸ hrecord)⟩
  | .crcinit x y imm => ⟨_, rfl, congrArg Host.Outcome.next <| h.checked_crc (by simp) fun _ hcrc => by
      rw [hcrc]
      exact setCrc_finish_apply _ _⟩
  | .crcupd x y imm => ⟨_, rfl, congrArg Host.Outcome.next <| h.checked_crc (by simp) fun _ hcrc => by
      rw [apply_a0, apply_a1, apply_memRead, hcrc]
      exact windowed_apply (setCrc_finish_apply _ _)⟩
  | .crcfin x y imm => ⟨_, rfl, congrArg Host.Outcome.next <| h.checked_crc (by simp) fun _ hcrc => by
      rw [apply_a2, hcrc, memWrite_apply, setResult_apply]
      exact windowed_apply (setCrc_finish_apply _ _)⟩

theorem writtenBy_ctx (k : Nat) (c : Ctx) (i : Instr) : (SlotChange.ctx k c).writtenBy i = true ↔ ctxTarget i = some k := by
  unfold writtenBy
  cases ctxTarget i <;> cases crcTarget i <;> simp [atCtx, atCrc]

theorem writtenBy_crc (u : Nat) (d : CrcUnit) (i : Instr) : (SlotChange.crc u d).writtenBy i = true ↔ crcTarget i = some u := by
  cases i <;> simp [writtenBy, ctxTarget, crcTarget, atCtx, atCrc]

end SlotChange

/-- Settles O59, by the change of contents in one slot and in one unit. -/
theorem unusableFieldsUnread : Obligations.UnusableFieldsUnread := by
  refine fun i s k => ⟨fun c hk hst hc => ?_, fun d hk hcfgd hd => ?_⟩
  · have hunusable : (SlotChange.ctx k c).Unusable s := ⟨hk, hst, hc⟩
    obtain ⟨t, hexec, happly⟩ := hunusable.exec_apply i
    simp only [SlotChange.after, SlotChange.writtenBy_ctx] at happly
    exact ⟨t, hexec, happly⟩
  · have hunusable : (SlotChange.crc k d).Unusable s := ⟨hk, hcfgd, hd⟩
    obtain ⟨t, hexec, happly⟩ := hunusable.exec_apply i
    simp only [SlotChange.after, SlotChange.writtenBy_crc] at happly
    exact ⟨t, hexec, happly⟩

end Sys2Proof.Machine
end

