-- ==== Sys2Proof/Proofs/BusAccess.lean ====
section
/-! Which host accesses go through (R75, R76, R405): an equation for each way in which an access to the register block or to DMEM
ends, and the bytes that a legal access to DMEM moves (R76, R77). -/

namespace Sys2Proof.Machine

section Registers

/-- The accesses to CMD, A0 to A3 and RESULT that have a meaning, as offset and size (R30, R75). -/
def guardedAccesses : List (Nat × Nat) :=
  [(0x00, 4), (0x08, 8), (0x08, 4), (0x0C, 4), (0x10, 8), (0x10, 4), (0x14, 4), (0x18, 8), (0x18, 4), (0x1C, 4), (0x20, 8), (0x20, 4),
    (0x24, 4), (0x28, 8), (0x28, 4), (0x2C, 4)]

/-- Each of them reaches a register that BUSY = 1 guards (R405, log entry 12). -/
theorem regTarget_guardedAccesses {off size : Nat} (h : (off, size) ∈ guardedAccesses) :
    ∃ tgt, regTarget off size = some tgt ∧ tgt.guarded = true := by
  have hall : ∀ p ∈ guardedAccesses, (regTarget p.1 p.2).any RegTarget.guarded = true := by decide
  simpa [Option.any_eq_true] using hall _ h

/-- Only accesses of 4 and 8 bytes reach a register (R75). -/
theorem regTarget_of_size {off size : Nat} (hsize : size ∉ [4, 8]) : regTarget off size = none := by
  obtain ⟨h4, h8⟩ : size ≠ 4 ∧ size ≠ 8 := by simpa using hsize
  simp [regTarget, wordPart, h4, h8]

/-- Below the reserved offsets, no access but the guarded ones and the one to STATUS reaches a register (R30, R75). -/
theorem regTarget_eq_none {off size : Nat} (hoff : off < 0x30) (hstatus : (off, size) ≠ (0x04, 4))
    (hguarded : (off, size) ∉ guardedAccesses) : regTarget off size = none := by
  have hall : ∀ size ∈ [4, 8], ∀ off, off < 0x30 → (off, size) ≠ (0x04, 4) → (off, size) ∉ guardedAccesses →
      regTarget off size = none := by decide
  by_cases hsize : size ∈ [4, 8]
  · exact hall size hsize off hoff hstatus hguarded
  · exact regTarget_of_size hsize

variable {s : State} {off size : Nat} (v : Word64)

/-- An access that reaches no register is refused (R75). -/
theorem State.perform_reg_refused (hoff : off < 256) (htgt : regTarget off size = none) :
    s.perform (.read (s.platform.regBase + off) size) = .refused (.badRegisterAccess off size) ∧
      s.perform (.write (s.platform.regBase + off) size v) = .refused (.badRegisterAccess off size) := by
  simp [State.perform, State.hostRead, State.hostWrite, State.regRead, State.regWrite, s.inRegBlock_add hoff, htgt]

/-- An access to a guarded register is refused while BUSY = 1 (R405). -/
theorem State.perform_reg_busy {tgt : RegTarget} (hbusy : s.busy = true) (htgt : regTarget off size = some tgt)
    (hguarded : tgt.guarded = true) :
    s.perform (.read (s.platform.regBase + off) size) = .refused (.accessWhileBusy (s.platform.regBase + off)) ∧
      s.perform (.write (s.platform.regBase + off) size v) = .refused (.accessWhileBusy (s.platform.regBase + off)) := by
  simp [State.perform, State.hostRead, State.hostWrite, State.regRead, State.regWrite, s.inRegBlock_add (regTarget_lt htgt), htgt,
    hbusy, hguarded]

end Registers

section Dmem

variable {s : State} {a addr size : Nat}

/-- An access to DMEM moves 1 to 8 bytes (R76). -/
theorem dmemAccess_size_range (h : size ∈ [1, 2, 4, 8]) : 1 ≤ size ∧ size ≤ 8 := by
  have hall : ∀ n ∈ [1, 2, 4, 8], 1 ≤ n ∧ n ≤ 8 := by decide
  exact hall size h

/-- What makes an access that starts at DMEM address a legal (R76, log entry 14). -/
theorem State.dmemAccessOk_iff : s.dmemAccessOk (s.platform.dmemBase + a) size = true ↔
    size ∈ [1, 2, 4, 8] ∧ (s.platform.dmemBase + a) % size = 0 ∧ a + size ≤ s.platform.dmemSize := by
  simp only [State.dmemAccessOk, Bool.and_eq_true, List.contains_iff_mem, beq_iff_eq, decide_eq_true_eq, Nat.add_assoc,
    Nat.add_le_add_iff_left, and_assoc]

/-- A bus access inside DMEM is outside the register block, and reads and writes by `dmemAccess` (R76). -/
theorem State.perform_dmem (hwf : s.platform.wf) (ha : a < s.platform.dmemSize) (v : Word64) :
    s.perform (.read (s.platform.dmemBase + a) size) = s.dmemAccess (s.platform.dmemBase + a) size (fun a =>
        { s with busData := BitVec.ofNat 64 (leDecode (s.memRead a size)) }) ∧
      s.perform (.write (s.platform.dmemBase + a) size v) = s.dmemAccess (s.platform.dmemBase + a) size (fun a =>
        s.memWrite a (leEncode v.toNat size)) := by
  obtain ⟨-, -, -, hwindows⟩ := hwf
  have hreg : s.inRegBlock (s.platform.dmemBase + a) = false := by
    rw [Bool.eq_false_iff, Ne, State.inRegBlock_iff]
    omega
  have hdmem : s.inDmem (s.platform.dmemBase + a) = true := by simp [State.inDmem, ha]
  simp [State.perform, State.hostRead, State.hostWrite, hreg, hdmem]

/-- An access to DMEM without a meaning is refused (R76). -/
theorem State.dmemAccess_refused (h : s.dmemAccessOk addr size = false) (body : Nat → State) :
    s.dmemAccess addr size body = .refused (.badDmemAccess addr size) := by simp [State.dmemAccess, h]

/-- An access to DMEM is refused while BUSY = 1 (R405). -/
theorem State.dmemAccess_busy (h : s.dmemAccessOk addr size = true) (hbusy : s.busy = true) (body : Nat → State) :
    s.dmemAccess addr size body = .refused (.accessWhileBusy addr) := by simp [State.dmemAccess, h, hbusy]

/-- A legal access to DMEM goes through at the DMEM address of its bus address (R76). -/
theorem State.dmemAccess_idle (h : s.dmemAccessOk addr size = true) (hbusy : s.busy = false) (body : Nat → State) :
    s.dmemAccess addr size body = .next (body (addr - s.platform.dmemBase)) := by simp [State.dmemAccess, h, hbusy]

end Dmem

/-- Settles O8, by the three ways in which an access can be refused. -/
theorem meaninglessAccessesRefused : Obligations.MeaninglessAccessesRefused := by
  intro s size v hwf
  refine ⟨fun off hoff hplace => ?_, fun a ha hbad => ?_, fun hbusy => ⟨fun off hplace => ?_, fun a hsize halign hin => ?_⟩⟩
  · have hstatus : (off, size) ≠ (0x04, 4) := fun h => hplace (by simp [h])
    have hguarded : (off, size) ∉ guardedAccesses := fun h => hplace <|
      (List.mem_cons.1 h).elim (fun h => by simp [h]) fun h => List.mem_cons_of_mem _ (List.mem_cons_of_mem _ h)
    exact State.perform_reg_refused v (by omega) (regTarget_eq_none hoff hstatus hguarded)
  · have hrefused : s.dmemAccessOk (s.platform.dmemBase + a) size = false := by
      rw [Bool.eq_false_iff, Ne, State.dmemAccessOk_iff]
      rintro ⟨hsize, halign, hin⟩
      obtain h | h | h := hbad
      · exact h hsize
      · exact h halign
      · omega
    obtain ⟨hread, hwrite⟩ := State.perform_dmem hwf ha v
    exact ⟨hread.trans (State.dmemAccess_refused hrefused _), hwrite.trans (State.dmemAccess_refused hrefused _)⟩
  · obtain ⟨tgt, htgt, hguarded⟩ := regTarget_guardedAccesses hplace
    exact State.perform_reg_busy v hbusy htgt hguarded
  · have hok := State.dmemAccessOk_iff.2 ⟨hsize, halign, hin⟩
    have hpos := (dmemAccess_size_range hsize).1
    obtain ⟨hread, hwrite⟩ := State.perform_dmem (size := size) hwf (show a < s.platform.dmemSize by omega) v
    exact ⟨hread.trans (State.dmemAccess_busy hok hbusy _), hwrite.trans (State.dmemAccess_busy hok hbusy _)⟩

section Progress

/-- What an outcome says of the action that a state performed: it went through if it was legal, else it was refused, or faulted at a
bus address in neither window. -/
def State.Answers (s : State) (legal : Bool) : Host.Outcome State Fault Refusal → Prop
  | .next _ => legal = true
  | .refused _ => legal = false
  | .fault f => legal = false ∧ ∃ addr, f = .unmappedBusAddress addr ∧ s.inRegBlock addr = false ∧ s.inDmem addr = false

/-- An answer goes on with a state exactly if the action was legal. -/
theorem State.Answers.next_iff {s : State} {legal : Bool} {o : Host.Outcome State Fault Refusal} (h : s.Answers legal o) :
    (∃ t, o = .next t) ↔ legal = true := by
  cases o with
  | next t => exact ⟨fun _ => h, fun _ => ⟨t, rfl⟩⟩
  | fault f => simp [h.1]
  | refused r => simp [show legal = false from h]

/-- A word written to CMD always ends its command (R104, R109). -/
theorem State.issue_answers (s : State) (c : BitVec 32) : s.Answers true (s.issue c) := by
  unfold State.issue
  split
  · obtain ⟨t, ht, -⟩ := exec_endsIn _ s.startCommand
    rw [ht]
    rfl
  · rfl

variable {s : State} (hbusy : s.busy = false)
include hbusy

/-- A read of the register block goes through where it reaches a register (R75). -/
theorem State.regRead_answers (off size : Nat) : s.Answers (regTarget off size).isSome (s.regRead off size) := by
  unfold State.regRead
  cases regTarget off size with
  | none => rfl
  | some tgt => simp [hbusy, State.Answers]

/-- A write of the register block goes through where it reaches a register (R75). -/
theorem State.regWrite_answers (off size : Nat) (v : Word64) : s.Answers (regTarget off size).isSome (s.regWrite off size v) := by
  unfold State.regWrite
  cases regTarget off size with
  | none => rfl
  | some tgt =>
    by_cases hcmd : tgt = .cmd
    · simpa [hbusy, hcmd] using s.issue_answers _
    · simp [hbusy, hcmd, State.Answers]

/-- An access to DMEM goes through where R76 gives it a meaning. -/
theorem State.dmemAccess_answers (addr size : Nat) (body : Nat → State) :
    s.Answers (s.dmemAccessOk addr size) (s.dmemAccess addr size body) := by
  cases hok : s.dmemAccessOk addr size
  · rw [State.dmemAccess_refused hok]; rfl
  · rw [State.dmemAccess_idle hok hbusy]; rfl

omit hbusy in
/-- A bus access is answered by the window that its address lies in (R75, R76, log entry 13). -/
theorem State.access_answers {addr size : Nat} {reg dmem : Host.Outcome State Fault Refusal}
    (hreg : s.Answers (regTarget (addr - s.platform.regBase) size).isSome reg) (hdmem : s.Answers (s.dmemAccessOk addr size) dmem) :
    s.Answers (s.accessLegal addr size)
      (if s.inRegBlock addr then reg else if s.inDmem addr then dmem else .fault (.unmappedBusAddress addr)) := by
  unfold State.accessLegal
  cases hinReg : s.inRegBlock addr
  · cases hinDmem : s.inDmem addr
    · exact ⟨rfl, addr, rfl, hinReg, hinDmem⟩
    · exact hdmem
  · exact hreg

/-- With BUSY = 0, a host action is answered by whether it is legal (R75, R76, R400). -/
theorem State.perform_answers (a : HostAction) : s.Answers (s.legal a) (s.perform a) :=
  match a with
  | .write addr size v =>
    State.access_answers (State.regWrite_answers hbusy _ size v) (State.dmemAccess_answers hbusy addr size _)
  | .read addr size => State.access_answers (State.regRead_answers hbusy _ size) (State.dmemAccess_answers hbusy addr size _)
  | .hwReset => rfl

end Progress

/-- Settles O6, by how an action that is legal, and one that is not, is answered. -/
theorem legalActionsProgress : Obligations.LegalActionsProgress := by
  intro s a rest hbusy
  have hanswers := State.perform_answers hbusy a
  refine ⟨fun hprog => by rw [step, hprog], hanswers.next_iff, fun f hf => ?_, fun addr size t ha ht => ?_⟩
  · rw [hf] at hanswers
    exact hanswers.2
  · subst ha
    obtain ⟨v, rfl⟩ := State.hostRead_next ht
    rfl

section Bytes

/-- Byte i of a number's little-endian bytes holds its bits from 8i on (R20). -/
theorem getElem_leEncode (v n i : Nat) (h : i < (leEncode v n).length) : (leEncode v n)[i] = BitVec.ofNat 8 (v >>> (8 * i)) := by
  induction n generalizing v i with
  | zero => simp [leEncode] at h
  | succ n ih =>
    cases i with
    | zero => rfl
    | succ i =>
      have hdiv : v / 256 = v >>> 8 := (Nat.shiftRight_eq_div_pow v 8).symm
      simp only [leEncode, List.getElem_cons_succ, ih, hdiv]
      rw [← Nat.shiftRight_add, Nat.mul_add, Nat.add_comm]

/-- The number that n little-endian bytes stand for is below 256^n (R20). -/
theorem leDecode_lt (l : List Byte) : leDecode l < 2 ^ (8 * l.length) := by
  induction l with
  | nil => decide
  | cons b l ih =>
    simp only [leDecode, List.length_cons, Nat.mul_add, Nat.pow_add]
    omega

/-- Byte i of the number that little-endian bytes stand for is the i-th of them (R20). -/
theorem leDecode_byte (l : List Byte) (i : Nat) (h : i < l.length) : BitVec.ofNat 8 (leDecode l >>> (8 * i)) = l[i] := by
  induction l generalizing i with
  | nil => simp at h
  | cons b l ih =>
    cases i with
    | zero =>
      refine BitVec.eq_of_toNat_eq ?_
      simp [leDecode]
      omega
    | succ i =>
      have hdiv : leDecode (b :: l) >>> 8 = leDecode l := by
        simp [leDecode, Nat.shiftRight_eq_div_pow]
        omega
      rw [show 8 * (i + 1) = 8 + 8 * i by omega, Nat.shiftRight_add, hdiv, ih i (by simpa using h)]
      rfl

end Bytes

/-- Settles O9, by the bytes that a legal access writes or reads. -/
theorem hostDmemAccess : Obligations.HostDmemAccess := by
  intro s a size v hwf hbusy hsize halign hin
  have hok := State.dmemAccessOk_iff.2 ⟨hsize, halign, hin⟩
  obtain ⟨hpos, hle⟩ := dmemAccess_size_range hsize
  obtain ⟨hread, hwrite⟩ := State.perform_dmem (size := size) hwf (show a < s.platform.dmemSize by omega) v
  rw [State.dmemAccess_idle hok hbusy, Nat.add_sub_cancel_left] at hread hwrite
  have hlen : (leEncode v.toNat size).length = size := length_leEncode _ _
  have hlt : leDecode (s.memRead a size) < 2 ^ (8 * size) := by simpa using leDecode_lt (s.memRead a size)
  have hvalue : (BitVec.ofNat 64 (leDecode (s.memRead a size))).toNat = leDecode (s.memRead a size) := by
    rw [BitVec.toNat_ofNat, Nat.mod_eq_of_lt (Nat.lt_of_lt_of_le hlt (Nat.pow_le_pow_right (by decide) (by omega)))]
  refine ⟨⟨_, hwrite, fun i hi => ?_, fun b hb => ?_, rfl⟩, _, hread, fun i hi => ?_, ?_⟩
  · rw [s.readByte_memWrite_inside _ a i (by omega), getElem_leEncode]
    rfl
  · exact s.readByte_memWrite_outside _ (by omega)
  · have hbyte := leDecode_byte (s.memRead a size) i (by simpa using hi)
    rw [BitVec.extractLsb', hvalue, hbyte]
    simp [State.memRead]
  · refine BitVec.eq_of_toNat_eq ?_
    rw [BitVec.toNat_ushiftRight, hvalue, Nat.shiftRight_eq_div_pow, Nat.div_eq_of_lt hlt]
    rfl

end Sys2Proof.Machine
end

