-- ==== Sys2Proof/Proofs/Writers.lean ====
section
/-! What a command writes: the one context slot or CRC unit it names (R88, R342), and DMEM inside its window, with bytes that rest on no
byte of DMEM outside it (R71, R376). Each is said once for all sixteen commands; the statements about host actions derive from it. -/

namespace Sys2Proof.Machine

section Slots

/-- What t holds in the contexts and CRC units of s: the same, or another content in the one slot or unit that may be written. -/
inductive State.WritesSlot (s t : State) : Option Nat → Option Nat → Prop where
  | none {ctx crc : Option Nat} (hctxs : t.ctxs = s.ctxs) (hcrcs : t.crcs = s.crcs) : WritesSlot s t ctx crc
  | ctx {crc : Option Nat} (k : Nat) (c : Ctx) (hctxs : t.ctxs = s.ctxs.set k c) (hcrcs : t.crcs = s.crcs) : WritesSlot s t (some k) crc
  | crc {ctx : Option Nat} (u : Nat) (d : CrcUnit) (hctxs : t.ctxs = s.ctxs) (hcrcs : t.crcs = s.crcs.set u d) :
      WritesSlot s t ctx (some u)

namespace State.WritesSlot

variable {s t : State} {ctx crc : Option Nat}

theorem checked {fields : Bool} {e : Option ErrCode} {body : State} (hbody : s.WritesSlot body ctx crc) :
    s.WritesSlot (s.checked fields e body) ctx crc := by
  obtain ⟨-, heq⟩ | ⟨-, c, -, heq⟩ | ⟨-, -, heq⟩ := s.checked_cases fields e body <;> rw [heq]
  · exact .none rfl rfl
  · exact .none rfl rfl
  · exact hbody

theorem windowed {off n : Nat} {body : State} (hbody : s.WritesSlot body ctx crc) :
    s.WritesSlot (s.windowed off n body) ctx crc := by
  obtain ⟨-, heq⟩ | ⟨-, heq⟩ := s.windowed_cases off n body <;> rw [heq]
  · exact .none rfl rfl
  · exact hbody

/-- DIGEST and DIGESTN write their context, reset or UNDEF (R150 to R152). -/
theorem digestInto (k n : Nat) : s.WritesSlot (s.digestInto k n) (some k) crc := by
  obtain ⟨-, heq⟩ | ⟨-, heq⟩ := s.digestInto_cases k n <;> rw [heq] <;> exact .ctx k _ rfl rfl

/-- The issue of a command leaves contexts and units to the command (R104). -/
theorem of_startCommand (h : s.startCommand.WritesSlot t ctx crc) : s.WritesSlot t ctx crc := by
  cases h with
  | none hctxs hcrcs => exact .none hctxs hcrcs
  | ctx k c hctxs hcrcs => exact .ctx k c hctxs hcrcs
  | crc u d hctxs hcrcs => exact .crc u d hctxs hcrcs

/-- The numbers of slots and units stay. -/
theorem counts (h : s.WritesSlot t ctx crc) : t.nctx = s.nctx ∧ t.ncrc = s.ncrc := by
  cases h with
  | none hctxs hcrcs => simp [State.nctx, State.ncrc, hctxs, hcrcs]
  | ctx k c hctxs hcrcs => simp [State.nctx, State.ncrc, hctxs, hcrcs]
  | crc u d hctxs hcrcs => simp [State.nctx, State.ncrc, hctxs, hcrcs]

/-- Every slot stays but the one that may be written. -/
theorem ctx_eq (h : s.WritesSlot t ctx crc) {j : Nat} (hj : ctx ≠ some j) : t.ctx j = s.ctx j := by
  cases h with
  | none hctxs _ => simp [State.ctx, hctxs]
  | crc u d hctxs _ => simp [State.ctx, hctxs]
  | ctx k c hctxs _ =>
    have hkj : k ≠ j := fun hkj => hj (congrArg some hkj)
    simp [State.ctx, hctxs, hkj]

/-- Every unit stays but the one that may be written. -/
theorem crc_eq (h : s.WritesSlot t ctx crc) {j : Nat} (hj : crc ≠ some j) : t.crc j = s.crc j := by
  cases h with
  | none _ hcrcs => simp [State.crc, hcrcs]
  | ctx k c _ hcrcs => simp [State.crc, hcrcs]
  | crc u d _ hcrcs =>
    have huj : u ≠ j := fun huj => hj (congrArg some huj)
    simp [State.crc, hcrcs, huj]

end State.WritesSlot

/-- A command writes no slot or unit but the one it names (R88, R102, R342). -/
theorem exec_writesSlot (i : Instr) (s : State) : ∃ t, exec i s = .next t ∧ s.WritesSlot t (ctxTarget i) (crcTarget i) :=
  match i with
  | .nop x y imm => ⟨_, rfl, by split <;> exact .none rfl rfl⟩
  | .init x y imm => ⟨_, rfl, by
      split
      · split
        · exact .ctx _ _ rfl rfl
        · exact .none rfl rfl
      · exact .none rfl rfl⟩
  | .reset x y imm => ⟨_, rfl, .checked (.ctx _ _ rfl rfl)⟩
  | .update1 x y imm => ⟨_, rfl, .checked (.ctx _ _ rfl rfl)⟩
  | .update x y imm => ⟨_, rfl, .checked (.windowed (.ctx _ _ rfl rfl))⟩
  | .digest x y imm => ⟨_, rfl, .checked (.digestInto _ _)⟩
  | .digestn x y imm => ⟨_, rfl, .checked (.digestInto _ _)⟩
  | .copy x y imm => ⟨_, rfl, .checked (.ctx _ _ rfl rfl)⟩
  | .getblk x y imm => ⟨_, rfl, .checked (.none rfl rfl)⟩
  | .getdlen x y imm => ⟨_, rfl, .checked (.none rfl rfl)⟩
  | .free x y imm => ⟨_, rfl, by
      split
      · exact .ctx _ _ rfl rfl
      · exact .none rfl rfl⟩
  | .hmacinit x y imm => ⟨_, rfl, .checked (.windowed (.ctx _ _ rfl rfl))⟩
  | .crccfg x y imm => ⟨_, rfl, .checked <| .windowed <| by
      dsimp only
      split
      · exact .none rfl rfl
      · exact .crc _ _ rfl rfl⟩
  | .crcinit x y imm => ⟨_, rfl, .checked (.crc _ _ rfl rfl)⟩
  | .crcupd x y imm => ⟨_, rfl, .checked (.windowed (.crc _ _ rfl rfl))⟩
  | .crcfin x y imm => ⟨_, rfl, .checked (.windowed (.crc _ _ rfl rfl))⟩

variable {s t : State}

/-- A host action other than hardware reset writes no context or CRC unit but by a command, and that only the one it names (R88, R342). -/
theorem State.perform_writesSlot {a : HostAction} (h : s.perform a = .next t) (hne : a ≠ .hwReset) :
    (∃ i, s.issues a i ∧ s.WritesSlot t (ctxTarget i) (crcTarget i)) ∨ s.WritesSlot t none none := by
  obtain hreset | ⟨v, rfl, hissue⟩ | ⟨-, -, -, r, -, x, -, -, -, rfl⟩ | ⟨m, v, rfl⟩ := State.perform_cases h
  · exact absurd hreset hne
  · unfold State.issue at hissue
    split at hissue
    · next i hdec =>
      obtain ⟨u, hexec, hwrites⟩ := exec_writesSlot i s.startCommand
      cases hissue.symm.trans hexec
      exact .inl ⟨i, ⟨v, rfl, hdec⟩, hwrites.of_startCommand⟩
    · cases hissue
      exact .inr (.none rfl rfl)
  · exact .inr (by cases r <;> exact .none rfl rfl)
  · exact .inr (.none rfl rfl)

end Slots

/-- Settles O23, by the one slot or unit that an issued command writes. -/
theorem contextAndUnitWriters : Obligations.ContextAndUnitWriters := by
  intro s t a h hne
  obtain ⟨i, hissues, hwrites⟩ | hwrites := State.perform_writesSlot h hne <;> obtain ⟨hnctx, hncrc⟩ := hwrites.counts
  · exact ⟨hnctx, hncrc, fun k hk => ⟨i, hissues, Decidable.byContradiction fun htarget => hk (hwrites.ctx_eq htarget)⟩,
      fun u hu => ⟨i, hissues, Decidable.byContradiction fun htarget => hu (hwrites.crc_eq htarget)⟩⟩
  · exact ⟨hnctx, hncrc, fun k hk => absurd (hwrites.ctx_eq (j := k) nofun) hk, fun u hu => absurd (hwrites.crc_eq (j := u) nofun) hu⟩

section Dmem

/-- The state with other contents of DMEM. -/
def State.withDmem (s : State) (m : Memory) : State := { s with dmem := m }

@[simp] theorem State.withDmem_a0 (s : State) (m : Memory) : (s.withDmem m).a0 = s.a0 := rfl
@[simp] theorem State.withDmem_a1 (s : State) (m : Memory) : (s.withDmem m).a1 = s.a1 := rfl
@[simp] theorem State.withDmem_a2 (s : State) (m : Memory) : (s.withDmem m).a2 = s.a2 := rfl
@[simp] theorem State.withDmem_inBounds (s : State) (m : Memory) (off n : Nat) :
    (s.withDmem m).inBounds off n = s.inBounds off n := rfl

/-- How command i leaves DMEM when it takes s to t, and how it leaves other contents m of DMEM when it takes the state with them to t':
as they were, or, if it completes without error, with the same bytes written inside its window. Nothing else of t and t' differs. -/
inductive State.DmemOutcome (s : State) (m : Memory) (i : Instr) : State → State → Prop where
  | kept {t : State} (hdmem : t.dmem = s.dmem) : DmemOutcome s m i t (t.withDmem m)
  | written {t : State} (off n : Nat) (l : List Byte) (hwrites : writesDmem i = true)
      (hwindow : dmemWindow s i = some (off, n)) (hok : t.err = .ok) (hlen : l.length ≤ n) (hdmem : t.dmem = s.dmem.setBytes off l) :
      DmemOutcome s m i t (t.withDmem (m.setBytes off l))

namespace State.DmemOutcome

variable {s : State} {m : Memory} {i : Instr} {t t' : State}

theorem checked {fields : Bool} {e : Option ErrCode} (h : s.DmemOutcome m i t t') :
    s.DmemOutcome m i (s.checked fields e t) ((s.withDmem m).checked fields e t') := by
  cases fields with
  | false => exact .kept rfl
  | true =>
    cases e with
    | some c => exact .kept rfl
    | none => exact h

theorem windowed {off n : Nat} (h : s.DmemOutcome m i t t') :
    s.DmemOutcome m i (s.windowed off n t) ((s.withDmem m).windowed off n t') := by
  obtain ⟨hin, heq⟩ | ⟨hin, heq⟩ := s.windowed_cases off n t <;> rw [heq]
  · rw [State.windowed_out (s.withDmem m) hin]
    exact .kept rfl
  · rw [State.windowed_in (s.withDmem m) hin]
    exact h

/-- DIGEST and DIGESTN write an output that rests on the context alone (R150 to R152). -/
theorem digestInto {k n : Nat} (hwrites : writesDmem i = true) (hwindow : dmemWindow s i = some (s.a2.toNat, n)) :
    s.DmemOutcome m i (s.digestInto k n) ((s.withDmem m).digestInto k n) := by
  unfold State.digestInto
  rw [State.withDmem_a2, State.withDmem_inBounds]
  split
  · exact .written _ _ _ hwrites hwindow rfl (List.length_take_le ..) rfl
  · exact .kept rfl

end State.DmemOutcome

/-- Other contents of DMEM that agree on a window read the same there. -/
theorem State.memRead_withDmem {s : State} {m : Memory} {off n : Nat}
    (h : ∀ a, off ≤ a → a < off + n → (s.withDmem m).readByte a = s.readByte a) : (s.withDmem m).memRead off n = s.memRead off n :=
  List.map_congr_left fun j hj => h (off + j) (by omega) (by have := List.mem_range.1 hj; omega)

/-- Every command leaves other contents of DMEM as it leaves the state's own, if the two agree on the window that it reads
(R71, R376). -/
theorem exec_dmemOutcome (i : Instr) (s : State) (m : Memory)
    (h : writesDmem i = false → ∀ off n, dmemWindow s i = some (off, n) → (s.withDmem m).memRead off n = s.memRead off n) :
    ∃ t t', exec i s = .next t ∧ exec i (s.withDmem m) = .next t' ∧ s.DmemOutcome m i t t' :=
  match i with
  | .nop x y imm => ⟨_, _, rfl, rfl, by split <;> exact .kept rfl⟩
  | .init x y imm => ⟨_, _, rfl, rfl, by
      cases initAlg imm with
      | none => exact .kept rfl
      | some a => exact .checked (e := none) (.kept rfl)⟩
  | .reset x y imm => ⟨_, _, rfl, rfl, .checked (.kept rfl)⟩
  | .update1 x y imm => ⟨_, _, rfl, rfl, .checked (.kept rfl)⟩
  | .update x y imm => ⟨_, _, rfl, rfl, .checked <| .windowed <| by
      rw [State.withDmem_a0, State.withDmem_a1, h rfl _ _ rfl]
      exact .kept rfl⟩
  | .digest x y imm => ⟨_, _, rfl, rfl, .checked (.digestInto rfl rfl)⟩
  | .digestn x y imm => ⟨_, _, rfl, rfl, .checked (.digestInto rfl rfl)⟩
  | .copy x y imm => ⟨_, _, rfl, rfl, .checked (.kept rfl)⟩
  | .getblk x y imm => ⟨_, _, rfl, rfl, .checked (.kept rfl)⟩
  | .getdlen x y imm => ⟨_, _, rfl, rfl, .checked (.kept rfl)⟩
  | .free x y imm => ⟨_, _, rfl, rfl, .checked (e := none) (.kept rfl)⟩
  | .hmacinit x y imm => ⟨_, _, rfl, rfl, .checked <| .windowed <| by
      rw [State.withDmem_a0, State.withDmem_a1, h rfl _ _ rfl]
      exact .kept rfl⟩
  | .crccfg x y imm => ⟨_, _, rfl, rfl, .checked <| .windowed <| by
      rw [State.withDmem_a0, h rfl _ _ rfl]
      dsimp only
      split <;> exact .kept rfl⟩
  | .crcinit x y imm => ⟨_, _, rfl, rfl, .checked (.kept rfl)⟩
  | .crcupd x y imm => ⟨_, _, rfl, rfl, .checked <| .windowed <| by
      rw [State.withDmem_a0, State.withDmem_a1, h rfl _ _ rfl]
      exact .kept rfl⟩
  | .crcfin x y imm => ⟨_, _, rfl, rfl, .checked <| .windowed <|
      .written _ _ _ rfl rfl rfl (Nat.le_of_eq (length_beEncode ..)) rfl⟩

/-- A byte of DMEM after bytes were written: the one written there, or as it was. -/
theorem Memory.get_setBytes (m : Memory) (off a : Nat) (l : List Byte) :
    (m.setBytes off l).get a = if off ≤ a ∧ a < off + l.length then l[a - off]? else m.get a := by
  split
  · next h =>
    have hi : a - off < l.length := by omega
    rw [List.getElem?_eq_getElem hi, ← Memory.get_setBytes_inside l m off _ hi, Nat.add_sub_cancel' h.1]
  · next h => exact Memory.get_setBytes_outside l m (by omega)

/-- No command changes the draw that unwritten bytes of DMEM take their values from (log entry 10). -/
theorem State.EndsIn.dmemEpoch_eq {writes : Bool} {s t : State} (h : s.EndsIn writes t) : t.dmemEpoch = s.dmemEpoch := by
  cases h with
  | finish effect _ => rw [effect]; rfl
  | raise effect _ _ => rw [effect]; rfl

/-- A byte of DMEM rests on the draw of unwritten bytes and on what is listed at its address. -/
theorem State.readByte_congr {s t : State} {a : Nat} (hepoch : t.dmemEpoch = s.dmemEpoch) (hget : t.dmem.get a = s.dmem.get a) :
    t.readByte a = s.readByte a := by
  rw [State.readByte, State.readByte, hepoch, hget]

namespace State.DmemOutcome

variable {s : State} {m : Memory} {i : Instr} {t t' : State} (h : s.DmemOutcome m i t t')
include h

/-- What a command leaves differs in DMEM alone. -/
theorem eq_of_dmem : t' = { t with dmem := t'.dmem } := by
  cases h <;> rfl

/-- A byte that agrees before the command agrees after it (R71). -/
theorem readByte_agree (hepoch : t.dmemEpoch = s.dmemEpoch) {a : Nat} (ha : (s.withDmem m).readByte a = s.readByte a) :
    t'.readByte a = t.readByte a := by
  cases h with
  | kept hdmem =>
    calc (t.withDmem m).readByte a = (s.withDmem m).readByte a := State.readByte_congr hepoch rfl
      _ = s.readByte a := ha
      _ = t.readByte a := (State.readByte_congr hepoch (by rw [hdmem])).symm
  | written off n l _ _ _ _ hdmem =>
    by_cases hin : off ≤ a ∧ a < off + l.length
    · exact State.readByte_congr rfl (by simp [State.withDmem, hdmem, Memory.get_setBytes, hin])
    · calc (t.withDmem (m.setBytes off l)).readByte a = (s.withDmem m).readByte a :=
            State.readByte_congr hepoch (by simp [State.withDmem, Memory.get_setBytes, hin])
        _ = s.readByte a := ha
        _ = t.readByte a := (State.readByte_congr hepoch (by simp [hdmem, Memory.get_setBytes, hin])).symm

/-- A byte that the command changes lies in the window that it writes (R71, R107). -/
theorem window_of_ne (hepoch : t.dmemEpoch = s.dmemEpoch) {b : Nat} (hb : t.readByte b ≠ s.readByte b) :
    ∃ off n, writesDmem i = true ∧ t.err = .ok ∧ dmemWindow s i = some (off, n) ∧ off ≤ b ∧ b < off + n := by
  cases h with
  | kept hdmem => exact absurd (State.readByte_congr hepoch (by rw [hdmem])) hb
  | written off n l hwrites hwindow hok hlen hdmem =>
    have hin : off ≤ b ∧ b < off + l.length := Decidable.byContradiction fun hout =>
      hb (State.readByte_congr hepoch (by simp [hdmem, Memory.get_setBytes, hout]))
    exact ⟨off, n, hwrites, hok, hwindow, hin.1, by omega⟩

end State.DmemOutcome

/-- A byte of DMEM that a command changes lies in the window that it writes, and the command completes without error (R71, R107). -/
theorem exec_window_of_ne {i : Instr} {s t : State} (h : exec i s = .next t) {b : Nat} (hb : t.readByte b ≠ s.readByte b) :
    ∃ off n, writesDmem i = true ∧ t.err = .ok ∧ dmemWindow s i = some (off, n) ∧ off ≤ b ∧ b < off + n := by
  obtain ⟨u, u', hexec, -, houtcome⟩ := exec_dmemOutcome i s s.dmem fun _ _ _ _ => rfl
  cases h.symm.trans hexec
  exact houtcome.window_of_ne (exec_next_endsIn h).dmemEpoch_eq hb

/-- The opcodes of the commands that write DMEM (R71, R108). -/
theorem opcode_of_writesDmem {i : Instr} (h : writesDmem i = true) : i.opcode ∈ [0x05#8, 0x06, 0x23] := by
  cases i <;> simp_all [writesDmem, Instr.opcode]

/-- The issue of a command leaves its window as it was (R104). -/
theorem dmemWindow_startCommand (s : State) (i : Instr) : dmemWindow s.startCommand i = dmemWindow s i := by
  cases i <;> rfl

end Dmem

/-- Settles O60, by the command's two outcomes with the state's own DMEM and with the other contents. -/
theorem commandsReadOnlyTheirWindow : Obligations.CommandsReadOnlyTheirWindow := by
  intro i s m hagree
  obtain ⟨t, t', hexec, hexec', houtcome⟩ := exec_dmemOutcome i s m fun hreads off n hwindow =>
    State.memRead_withDmem (hagree hreads off n hwindow)
  exact ⟨t, t', hexec, hexec', houtcome.eq_of_dmem, fun a => houtcome.readByte_agree (exec_next_endsIn hexec).dmemEpoch_eq⟩

section HostWrites

variable {s t : State}

/-- A byte of DMEM that a word written to CMD changes lies in the window that its command writes (R71, R104, R107). -/
theorem State.issue_window_of_ne {w : BitVec 32} (h : s.issue w = .next t) {b : Nat} (hb : t.readByte b ≠ s.readByte b) :
    ∃ i off n, decode w = .ok i ∧ writesDmem i = true ∧ t.err = .ok ∧ dmemWindow s i = some (off, n) ∧ off ≤ b ∧ b < off + n := by
  unfold State.issue at h
  split at h
  · next i hdec =>
    obtain ⟨off, n, hwrites, hok, hwindow, hin⟩ := exec_window_of_ne h hb
    exact ⟨i, off, n, hdec, hwrites, hok, dmemWindow_startCommand s i ▸ hwindow, hin⟩
  · cases h
    exact absurd rfl hb

/-- A store in the register block leaves DMEM as it was. -/
theorem State.readByte_regStore (v : Word64) (tgt : RegTarget) (b : Nat) : (s.regStore v tgt).readByte b = s.readByte b := by
  cases tgt with
  | operand r p => cases r <;> rfl
  | cmd | status | result | reserved => rfl

/-- Everything a write of the register block can do: it issues a word written to CMD, or stores in a register (R75, R104). -/
theorem State.regWrite_cases {off size : Nat} {v : Word64} (h : s.regWrite off size v = .next t) :
    (off = 0 ∧ size = 4 ∧ s.issue (v.setWidth 32) = .next t) ∨ ∃ tgt, t = s.regStore v tgt := by
  unfold State.regWrite at h
  split at h
  · cases h
  · next tgt htgt =>
    split at h
    · cases h
    · split at h
      · next hcmd =>
        obtain ⟨hoff, hsize⟩ := regTarget_eq_cmd (hcmd ▸ htgt)
        exact .inl ⟨hoff, hsize, h⟩
      · cases h
        exact .inr ⟨tgt, rfl⟩

/-- An access to DMEM that goes through reaches the DMEM address of its bus address (R76). -/
theorem State.dmemAccess_next_at {addr size : Nat} {body : Nat → State} (h : s.dmemAccess addr size body = .next t) :
    t = body (addr - s.platform.dmemBase) := by
  unfold State.dmemAccess at h
  split at h
  · split at h
    · cases h
    · cases h
      rfl
  · cases h

end HostWrites

/-- Settles O25, by what a write can do: issue a command, store in a register, or write the bytes of DMEM that it covers. -/
theorem dmemWriters : Obligations.DmemWriters := by
  intro s t a b h hb
  cases a with
  | hwReset => exact .inl rfl
  | read addr size =>
    obtain ⟨v, rfl⟩ := State.hostRead_next h
    exact absurd rfl hb
  | write addr size v =>
    replace h : s.hostWrite addr size v = .next t := h
    unfold State.hostWrite at h
    split at h
    · next hreg =>
      obtain ⟨hoff, rfl, hissue⟩ | ⟨tgt, rfl⟩ := State.regWrite_cases h
      · obtain ⟨i, off, n, hdec, hwrites, hok, hwindow, hlo, hhi⟩ := State.issue_window_of_ne hissue hb
        have hbase := (s.inRegBlock_iff addr).1 hreg
        obtain rfl : addr = s.platform.regBase := by omega
        exact .inr (.inr ⟨i, off, n, ⟨v, rfl, hdec⟩, opcode_of_writesDmem hwrites, hok, hwindow, hlo, hhi⟩)
      · exact absurd (State.readByte_regStore v tgt b) hb
    · next hreg =>
      split at h
      · next hdmem =>
        have hbase : s.platform.dmemBase ≤ addr := by
          simp only [State.inDmem, Bool.and_eq_true, decide_eq_true_eq] at hdmem
          exact hdmem.1
        obtain rfl := State.dmemAccess_next_at h
        have hin : ¬ (b < addr - s.platform.dmemBase ∨
            addr - s.platform.dmemBase + (leEncode v.toNat size).length ≤ b) := fun hout =>
          hb (s.readByte_memWrite_outside _ hout)
        rw [length_leEncode] at hin
        exact .inr (.inl ⟨addr, size, v, rfl, Bool.eq_false_iff.2 hreg, by omega, by omega⟩)
      · cases h

end Sys2Proof.Machine
end

