-- ==== Sys2Proof/Proofs/Absorption.lean ====
section
/-! Messages absorbed piece by piece (R148, R149, R159): what the pieces leave of the state, and that a copied context and its source
absorb independently (R88, R156). -/

namespace Sys2Proof.Machine

/-- What the absorption of the bytes l into context slot k keeps and changes, from s to t. -/
structure State.Absorbs (k : Nat) (l : List Byte) (s t : State) : Prop where
  ctx_eq : t.ctx k = (s.ctx k).absorbAll l
  others : s.sameCtxsBut k t
  dmem : s.sameDmem t
  platform : t.platform = s.platform

namespace State.Absorbs

variable {s t u : State} {k : Nat} {l l' : List Byte}

theorem refl (k : Nat) (s : State) : Absorbs k [] s s := ⟨rfl, ⟨rfl, fun _ _ => rfl⟩, fun _ => rfl, rfl⟩

theorem trans (h : Absorbs k l s t) (h' : Absorbs k l' t u) : Absorbs k (l ++ l') s u where
  ctx_eq := by rw [h'.ctx_eq, h.ctx_eq, Ctx.absorbAll_append]
  others := ⟨h'.others.1.trans h.others.1, fun j hj => (h'.others.2 j hj).trans (h.others.2 j hj)⟩
  dmem a := (h'.dmem a).trans (h.dmem a)
  platform := h'.platform.trans h.platform

/-- Absorption keeps the lifecycle state of its context (R143). -/
theorem st_eq (h : Absorbs k l s t) : (t.ctx k).st = (s.ctx k).st := by
  rw [h.ctx_eq]
  exact (Ctx.absorbAll_config _ l).1

end State.Absorbs

section Chunks

variable {s t : State}

/-- Whether a piece can be read rests on the parameters alone (R73). -/
theorem State.chunkOk_congr (h : t.platform = s.platform) (c : Chunk) : t.chunkOk c = s.chunkOk c := by
  cases c <;> simp [State.chunkOk, State.inBounds, h]

/-- The bytes of a piece rest on DMEM alone. -/
theorem State.chunkBytes_congr (h : s.sameDmem t) : t.chunkBytes = s.chunkBytes := by
  funext c
  cases c with
  | byte b => rfl
  | window off len => exact List.map_congr_left fun j _ => h _

/-- The effect that UPDATE1 and UPDATE share is an absorption. -/
theorem State.absorbs_setCtx_finish {k : Nat} (hk : k < s.nctx) (l : List Byte) :
    State.Absorbs k l s (s.setCtx k ((s.ctx k).absorbAll l)).finish where
  ctx_eq := s.ctx_setCtx_same hk _
  others := ⟨s.setCtx_nctx _ _, fun _ hj => s.ctx_setCtx_ne hj _⟩
  dmem _ := rfl
  platform := rfl

variable {x : BitVec 4} (hx : x.toNat < s.nctx) (hready : (s.ctx x.toNat).st = .ready)
include hx

/-- The field check of a command that names an existing slot and has Y = 0 (R102, R103). -/
theorem State.ctxField_of_lt : s.ctxField x 0 = true := by
  rw [State.ctxField_zero, decide_eq_true_iff]
  exact hx

include hready

/-- UPDATE1 on a READY context absorbs its byte (R148). -/
theorem exec_update1_ready (b : Byte) :
    exec (.update1 x 0 ((0 : BitVec 8) ++ b)) s = .next (s.setCtx x.toNat ((s.ctx x.toNat).absorb b)).finish := by
  have hstate := (s.ctxError_none x.toNat).2 hready
  have hbyte : immByte ((0 : BitVec 8) ++ b) = b := BitVec.extractLsb'_append_eq_right
  have hhigh : ((0 : BitVec 8) ++ b).extractLsb' 8 8 = 0 := BitVec.extractLsb'_append_eq_left
  have hfields : (s.ctxField x 0 && ((0 : BitVec 8) ++ b).extractLsb' 8 8 == 0) = true := by
    rw [State.ctxField_of_lt hx, hhigh]
    rfl
  refine congrArg Host.Outcome.next ?_
  rw [hfields, hstate, State.checked_none, hbyte]

/-- UPDATE on a READY context absorbs its window, if that is in bounds (R149). -/
theorem exec_update_ready (hin : s.inBounds s.a0.toNat s.a1.toNat = true) :
    exec (.update x 0 0) s =
      .next (s.setCtx x.toNat ((s.ctx x.toNat).absorbAll (s.memRead s.a0.toNat s.a1.toNat))).finish := by
  have hstate := (s.ctxError_none x.toNat).2 hready
  refine congrArg Host.Outcome.next ?_
  rw [State.ctxField_of_lt hx, hstate, Bool.true_and, beq_self_eq_true, State.checked_none, s.windowed_in hin]

/-- A piece that can be read is absorbed into a READY context by its command (R148, R149). -/
theorem State.absorbChunk_absorbs {c : Chunk} (hok : s.chunkOk c = true) :
    ∃ t, s.absorbChunk x c = .next t ∧ State.Absorbs x.toNat (s.chunkBytes c) s t := by
  cases c with
  | byte b => exact ⟨_, exec_update1_ready hx hready b, State.absorbs_setCtx_finish hx [b]⟩
  | window off len =>
    have habsorbs := State.absorbs_setCtx_finish (s := { s with a0 := off, a1 := len }) hx (s.memRead off.toNat len.toNat)
    exact ⟨_, exec_update_ready (s := { s with a0 := off, a1 := len }) hx hready hok,
      ⟨habsorbs.ctx_eq, habsorbs.others, habsorbs.dmem, habsorbs.platform⟩⟩

/-- A message whose pieces can be read is absorbed into a READY context (R159). -/
theorem State.absorbChunks_absorbs {cs : List Chunk} (hok : ∀ c ∈ cs, s.chunkOk c = true) :
    ∃ t, State.absorbChunks x cs s = .next t ∧ State.Absorbs x.toNat (cs.flatMap s.chunkBytes) s t := by
  induction cs generalizing s with
  | nil => exact ⟨s, rfl, .refl _ s⟩
  | cons c cs ih =>
    obtain ⟨t, ht, habsorbs⟩ := State.absorbChunk_absorbs hx hready (hok c List.mem_cons_self)
    obtain ⟨u, hu, habsorbs'⟩ := ih (s := t) (habsorbs.others.1.symm ▸ hx) (habsorbs.st_eq.trans hready) fun d hd =>
      (State.chunkOk_congr habsorbs.platform d).trans (hok d (List.mem_cons_of_mem c hd))
    rw [State.chunkBytes_congr habsorbs.dmem] at habsorbs'
    exact ⟨u, by rw [State.absorbChunks, ht]; exact hu, by rw [List.flatMap_cons]; exact habsorbs.trans habsorbs'⟩

end Chunks

/-- COPY from a READY context to any slot leaves the source's content there and every other slot, DMEM and the parameters (R156). -/
theorem exec_copy_ready {s : State} {x y : BitVec 4} (hx : x.toNat < s.nctx) (hy : y.toNat < s.nctx)
    (hready : (s.ctx x.toNat).st = .ready) :
    ∃ t, exec (.copy x y 0) s = .next t ∧ t.ctx y.toNat = s.ctx x.toNat ∧ s.sameCtxsBut y.toNat t ∧ s.sameDmem t ∧
      t.platform = s.platform := by
  have hexec : exec (.copy x y 0) s = .next (s.setCtx y.toNat (s.ctx x.toNat)).finish := by
    have hstate := (s.ctxError_none x.toNat).2 hready
    simp [exec, execCopy, hx, hy, hstate]
  exact ⟨_, hexec, s.ctx_setCtx_same hy _, ⟨s.setCtx_nctx _ _, fun _ hj => s.ctx_setCtx_ne hj _⟩, fun _ => rfl, rfl⟩

/-- Settles O39: each message is absorbed into its own slot and leaves the other slot and the bytes of DMEM. -/
theorem copyIndependence : Obligations.CopyIndependence := by
  intro s x y xs ys hx hy hne hready hok
  have hxy : x.toNat ≠ y.toNat := fun h => hne (BitVec.eq_of_toNat_eq h)
  obtain ⟨t1, hcopy, hcopied, ⟨hcount, hothers⟩, hdmem, hplatform⟩ := exec_copy_ready hx hy hready
  have hsource : t1.ctx x.toNat = s.ctx x.toNat := hothers _ hxy
  obtain ⟨t2, hxs, habsorbs⟩ := State.absorbChunks_absorbs (hcount ▸ hx) (hsource ▸ hready) fun c hc =>
    (State.chunkOk_congr hplatform c).trans (hok c (List.mem_append_left ys hc))
  have hkept : t2.ctx y.toNat = s.ctx x.toNat := (habsorbs.others.2 _ hxy.symm).trans hcopied
  have hplatform2 : t2.platform = s.platform := habsorbs.platform.trans hplatform
  obtain ⟨t3, hys, habsorbs'⟩ := State.absorbChunks_absorbs (habsorbs.others.1.trans hcount ▸ hy) (hkept ▸ hready) fun c hc =>
    (State.chunkOk_congr hplatform2 c).trans (hok c (List.mem_append_right xs hc))
  refine ⟨t1, t2, t3, hcopy, hxs, hys, ?_, ?_⟩
  · rw [habsorbs'.others.2 _ hxy, habsorbs.ctx_eq, hsource, State.chunkBytes_congr hdmem]
  · rw [habsorbs'.ctx_eq, hkept, State.chunkBytes_congr habsorbs.dmem, State.chunkBytes_congr hdmem]

end Sys2Proof.Machine
end

