-- ==== Sys2Proof/Proofs/Encoding.lean ====
section
/-! The command word and the algorithm codes (R100, R108, R109, R111). A word decodes to a command exactly when it is the command's
word, and has an unassigned opcode otherwise; a code names an algorithm exactly when it is the algorithm's code. -/

namespace Sys2Proof

section CommandWords

variable {i : Instr} {w : BitVec 32}

/-- The fields of a word are a command's opcode and fields (R100, R108). -/
structure Instr.HasWord (i : Instr) (w : BitVec 32) : Prop where
  op : wordOp w = i.opcode
  x : wordX w = i.x
  y : wordY w = i.y
  imm : wordImm w = i.imm

/-- OP, X, Y and IMM side by side are the whole word (R100). -/
theorem append_word_fields (w : BitVec 32) : wordOp w ++ wordX w ++ wordY w ++ wordImm w = w := by
  have hopx : wordOp w ++ wordX w = w.extractLsb' 20 12 := BitVec.extractLsb'_append_extractLsb'_eq_extractLsb' rfl
  have hopxy : w.extractLsb' 20 12 ++ wordY w = w.extractLsb' 16 16 := BitVec.extractLsb'_append_extractLsb'_eq_extractLsb' rfl
  have hall : w.extractLsb' 16 16 ++ wordImm w = w.extractLsb' 0 32 := BitVec.extractLsb'_append_extractLsb'_eq_extractLsb' rfl
  rw [hopx, hopxy, hall, BitVec.extractLsb'_eq_self]

/-- A command's word is the one word with its opcode and fields (R100). -/
theorem Instr.hasWord_iff_encode : i.HasWord w ↔ encode i = w := by
  constructor
  · rintro ⟨hop, hx, hy, himm⟩
    rw [encode, ← hop, ← hx, ← hy, ← himm, append_word_fields]
  · rintro rfl
    obtain ⟨hop, hx, hy, himm⟩ := Laws.OpcodeField.fields_of_append i.opcode i.x i.y i.imm
    exact ⟨hop, hx, hy, himm⟩

/-- The opcodes that the opcode map leaves unassigned (R109). -/
abbrev UnassignedOp (op : BitVec 8) : Prop :=
  (0x0B ≤ op.toNat ∧ op.toNat ≤ 0x0F) ∨ (0x11 ≤ op.toNat ∧ op.toNat ≤ 0x1F) ∨ 0x24 ≤ op.toNat

/-- No command has an unassigned opcode (R108, R109). -/
theorem Instr.opcode_assigned (i : Instr) : ¬ UnassignedOp i.opcode := by cases i <;> simp [Instr.opcode]

/-- The decoder is total: a word is that of the command it decodes to, or is rejected for its unassigned opcode (R108, R109). -/
theorem decode_cases (w : BitVec 32) :
    (∃ i : Instr, decode w = .ok i ∧ i.HasWord w) ∨
      UnassignedOp (wordOp w) ∧ decode w = .error (.illegalOp (wordOp w)) := by
  unfold decode
  split
  case h_17 =>
    refine .inr ⟨?_, rfl⟩
    simp only [imp_false] at *
    omega
  all_goals next hop => exact .inl ⟨_, rfl, BitVec.eq_of_toNat_eq hop, rfl, rfl, rfl⟩

/-- A word with a command's opcode and fields decodes to that command (R108). -/
theorem Instr.HasWord.decode_eq (h : i.HasWord w) : decode w = .ok i := by
  simp only [decode, h.op, h.x, h.y, h.imm]
  cases i <;> rfl

/-- A word decodes to a command exactly when it is the command's word (R100, R113). -/
theorem decode_eq_ok_iff : decode w = .ok i ↔ encode i = w := by
  refine ⟨fun h => ?_, fun h => (Instr.hasWord_iff_encode.2 h).decode_eq⟩
  obtain ⟨j, hj, hword⟩ | ⟨-, herror⟩ := decode_cases w
  · cases h.symm.trans hj
    exact Instr.hasWord_iff_encode.1 hword
  · cases h.symm.trans herror

/-- The word of a command decodes to it (R113). -/
@[simp] theorem decode_encode (i : Instr) : decode (encode i) = .ok i := decode_eq_ok_iff.2 rfl

/-- The decoder rejects a word exactly when its opcode is unassigned (R109). -/
theorem decode_eq_error_iff : decode w = .error (.illegalOp (wordOp w)) ↔ UnassignedOp (wordOp w) := by
  obtain ⟨i, hi, hword⟩ | ⟨hop, herror⟩ := decode_cases w
  · rw [hi, hword.op]
    exact iff_of_false nofun i.opcode_assigned
  · exact iff_of_true herror hop

/-- A word whose opcode is assigned is a command (R108). -/
theorem exists_decode_of_assigned (hop : ¬ UnassignedOp (wordOp w)) : ∃ i, decode w = .ok i := by
  obtain ⟨i, hi, -⟩ | ⟨hun, -⟩ := decode_cases w
  · exact ⟨i, hi⟩
  · exact absurd hun hop

end CommandWords

/-- Settles O1, by the characterisation of the word that decodes to a command. -/
theorem decodeEncodeRoundTrip : Obligations.DecodeEncodeRoundTrip := ⟨decode_encode, fun _ _ => decode_eq_ok_iff.1⟩

/-- Settles O2: each of the sixteen words is the word of its command. -/
theorem opcodeMap : Obligations.OpcodeMap := fun x y imm =>
  ⟨decode_encode (.nop x y imm), decode_encode (.init x y imm), decode_encode (.reset x y imm), decode_encode (.update1 x y imm),
    decode_encode (.update x y imm), decode_encode (.digest x y imm), decode_encode (.digestn x y imm),
    decode_encode (.copy x y imm), decode_encode (.getblk x y imm), decode_encode (.getdlen x y imm),
    decode_encode (.free x y imm), decode_encode (.hmacinit x y imm), decode_encode (.crccfg x y imm),
    decode_encode (.crcinit x y imm), decode_encode (.crcupd x y imm), decode_encode (.crcfin x y imm)⟩

/-- Settles O3: the words are evaluated by the encoder, and the round trip gives the way back. -/
theorem encodingExamples : Obligations.EncodingExamples := by
  intro p hp
  have hword : encode p.1 = p.2 := by revert p; decide
  exact ⟨hword, decode_eq_ok_iff.2 hword⟩

namespace Machine

section IllegalCommand

variable {s : State} {w : BitVec 32} {rest : List HostAction}

/-- The step that takes a write of a word to CMD from the host's program issues the word (R33, R104). -/
theorem step_cmdWrite_eq_issue (hbusy : s.busy = false) (hprog : s.program = s.cmdWrite w :: rest) :
    step s = ({ s with program := rest } : State).issue w := by
  have hword : (w.setWidth 64).setWidth 32 = w := BitVec.setWidth_setWidth_of_le w (by decide)
  have hstep : step s = ({ s with program := rest } : State).perform (s.cmdWrite w) := by rw [step, hprog]
  rw [hstep, State.cmdWrite, State.perform_write_cmd { s with program := rest }, if_neg (by simp [hbusy]), hword]

/-- A word that the decoder rejects raises ILLEGAL_COMMAND and changes nothing but STATUS (R109, R373). -/
theorem State.issue_of_decode_error {r : DecodeReject} (h : decode w = .error r) :
    s.issue w = .next { s with err := .illegalCommand, sticky := true, busy := false } := by
  rw [State.issue, h]
  rfl

end IllegalCommand

/-- Settles O4, by the opcodes that the decoder rejects. -/
theorem illegalOpcodeRaises : Obligations.IllegalOpcodeRaises := by
  intro w s rest hbusy hprog
  split
  · next hop =>
    have herror := decode_eq_error_iff.2 hop
    exact ⟨herror, by rw [step_cmdWrite_eq_issue hbusy hprog, State.issue_of_decode_error herror]⟩
  · next hop => exact exists_decode_of_assigned hop

section AlgorithmTable

variable {a : Alg} {c : BitVec 8}

/-- The ALG code of each algorithm (R111). -/
def algCode : Alg → BitVec 8
  | .bmw224 => 0x01
  | .bmw256 => 0x02
  | .bmw384 => 0x03
  | .bmw512 => 0x04
  | .skein224 => 0x11
  | .skein256 => 0x12
  | .skein384 => 0x13
  | .skein512 => 0x14
  | .tiger => 0x21
  | .tiger2 => 0x22

/-- A code names an algorithm exactly when it is that algorithm's code (R111). -/
theorem algOfCode_eq_some_iff : algOfCode c = some a ↔ algCode a = c := by
  constructor
  · intro h
    unfold algOfCode at h
    split at h
    case h_11 => cases h
    all_goals next hc => cases h; exact (BitVec.eq_of_toNat_eq hc).symm
  · rintro rfl
    cases a <;> rfl

/-- A code that is no algorithm's names none (R111). -/
theorem algOfCode_eq_none (hc : ∀ a, algCode a ≠ c) : algOfCode c = none :=
  Option.eq_none_iff_forall_ne_some.2 fun a ha => hc a (algOfCode_eq_some_iff.1 ha)

/-- What the shape of a chaining value says of its words (R44). -/
theorem ChainVal.fits_iff (h : ChainVal) : h.fits a = true ↔
    if algSmallWords a then ∃ ws, h = .w32 ws ∧ ws.length = algWords a else ∃ ws, h = .w64 ws ∧ ws.length = algWords a := by
  cases h <;> cases hs : algSmallWords a <;> simp [ChainVal.fits, hs]

end AlgorithmTable

/-- Settles O29, by the code of each algorithm and the shape of its initial value. -/
theorem algorithmCodes : Obligations.AlgorithmCodes := by
  refine ⟨by decide, by decide, fun c hc => algOfCode_eq_none fun a ha => hc ?_, fun a => ⟨_, rfl, ?_⟩⟩
  · subst ha
    cases a <;> decide
  · have hshape := (ChainVal.fits_iff _).1 (algIv_fits a)
    cases a <;> exact hshape

end Machine

end Sys2Proof
end

