-- ==== Sys2Proof/Proofs/EngineCommands.lean ====
section
/-! The commands of the streaming digest engine (spec/40_engine.md section 3) complete with their results. A command that passes its
checks answers its body, said once for each command; what a command leaves unchanged is read off the slot, the window and the register
that it may write at all. -/

namespace Sys2Proof.Machine

section Frame

variable {i : Instr} {s t : State}

/-- A command that ends with ERR = 0 leaves STICKY, the operand registers and the host side (R31, R34, R104). -/
theorem State.runsOk_of_exec (h : exec i s = .next t) (hok : t.err = .ok) : s.runsOk i t := by
  have hend := exec_next_endsIn h
  obtain ⟨hbusy, hsticky⟩ := hend.status
  rw [hok] at hsticky
  exact ⟨h, ⟨hok, by simpa using hsticky, hbusy⟩, hend.hostSide⟩

/-- Every slot stays but the one that the command names (R88). -/
theorem exec_sameCtxsBut {k : Nat} (h : exec i s = .next t) (hctx : ctxTarget i = some k) : s.sameCtxsBut k t := by
  obtain ⟨u, hexec, hwrites⟩ := exec_writesSlot i s
  cases h.symm.trans hexec
  exact ⟨hwrites.counts.1, fun j hj => hwrites.ctx_eq (by simp [hctx, hj.symm])⟩

/-- A command that names no CRC unit leaves every unit (R342). -/
theorem exec_sameCrcs (h : exec i s = .next t) (hcrc : crcTarget i = none) : s.sameCrcs t := by
  obtain ⟨u, hexec, hwrites⟩ := exec_writesSlot i s
  cases h.symm.trans hexec
  exact ⟨hwrites.counts.2, fun j => hwrites.crc_eq (by simp [hcrc])⟩

/-- DMEM stays outside the window of the command (R71, R107). -/
theorem exec_sameDmemOutside {off n : Nat} (h : exec i s = .next t) (hwindow : dmemWindow s i = some (off, n)) :
    s.sameDmemOutside off n t := by
  refine fun a ha => Decidable.byContradiction fun hne => ?_
  obtain ⟨off', n', -, -, hwindow', hlo, hhi⟩ := exec_window_of_ne h hne
  cases hwindow.symm.trans hwindow'
  omega

/-- A command that writes no window leaves DMEM (R71). -/
theorem exec_sameDmem (h : exec i s = .next t) (hdmem : writesDmem i = false) : s.sameDmem t := by
  refine fun a => Decidable.byContradiction fun hne => ?_
  obtain ⟨-, -, hwrites, -⟩ := exec_window_of_ne h hne
  exact Bool.false_ne_true (hdmem.symm.trans hwrites)

/-- A command that writes its slot alone leaves every other slot, every CRC unit, DMEM and RESULT (R32, R71, R88). -/
theorem exec_slot_frame {k : Nat} (h : exec i s = .next t) (hctx : ctxTarget i = some k) (hcrc : crcTarget i = none)
    (hdmem : writesDmem i = false) (hresult : writesResult i = false) :
    s.sameCtxsBut k t ∧ s.sameCrcs t ∧ s.sameDmem t ∧ t.result = s.result := by
  refine ⟨exec_sameCtxsBut h hctx, exec_sameCrcs h hcrc, exec_sameDmem h hdmem, ?_⟩
  obtain hsame | ⟨hwrites, -⟩ := (exec_next_endsIn h).result_eq_or
  · exact hsame
  · exact absurd (hresult.symm.trans hwrites) Bool.false_ne_true

/-- A command whose effect is to write its slot completes with that content there, and leaves the rest. -/
theorem exec_slot_completes {u : State} {k : Nat} {c : Ctx} (h : exec i s = .next (u.setCtx k c).finish) (hk : k < u.nctx)
    (hctx : ctxTarget i = some k) (hcrc : crcTarget i = none) (hdmem : writesDmem i = false) (hresult : writesResult i = false) :
    ∃ t, s.runsOk i t ∧ t.ctx k = c ∧ s.sameCtxsBut k t ∧ s.sameCrcs t ∧ s.sameDmem t ∧ t.result = s.result :=
  ⟨_, State.runsOk_of_exec h rfl, u.ctx_setCtx_same hk c, exec_slot_frame h hctx hcrc hdmem hresult⟩

end Frame

section Checks

variable (s : State)

/-- The fields and the state of a READY context pass (R371). -/
theorem State.checked_ready {fields : Bool} {k : Nat} (hfields : fields = true) (hready : (s.ctx k).st = .ready) (body : State) :
    s.checked fields (s.ctxError k) body = body := by
  rw [hfields, (s.ctxError_none k).2 hready, State.checked_none]

variable {s}

/-- A command whose context field passes names an existing slot (R102). -/
theorem State.lt_nctx_of_ctxField {x y : BitVec 4} {b : Bool} (h : (s.ctxField x y && b) = true) : x.toNat < s.nctx := by
  simp only [State.ctxField, Bool.and_eq_true, decide_eq_true_eq] at h
  exact h.1.1

/-- Writing back what a slot holds changes nothing. -/
theorem State.setCtx_ctx (s : State) (k : Nat) : s.setCtx k (s.ctx k) = s := by
  have hset : s.ctxs.set k (s.ctx k) = s.ctxs := by
    by_cases hk : k < s.ctxs.length
    · simp [State.ctx, hk]
    · exact List.set_eq_of_length_le (Nat.le_of_not_lt hk)
  rw [State.setCtx, hset]

end Checks

section Bodies

/-! What each command answers on a READY context once its fields pass: its body (R371). -/

variable {s : State} {x y : BitVec 4} {imm : BitVec 16}

theorem exec_reset_of_wellFormed (hwf : (Instr.reset x y imm).wellFormed s.nctx s.ncrc = true) (hready : (s.ctx x.toNat).st = .ready) :
    exec (.reset x y imm) s = .next (s.setCtx x.toNat (s.ctx x.toNat).reset).finish :=
  congrArg Host.Outcome.next (s.checked_ready hwf hready _)

theorem exec_update1_of_wellFormed (hwf : (Instr.update1 x y imm).wellFormed s.nctx s.ncrc = true)
    (hready : (s.ctx x.toNat).st = .ready) :
    exec (.update1 x y imm) s = .next (s.setCtx x.toNat ((s.ctx x.toNat).absorb (immByte imm))).finish :=
  congrArg Host.Outcome.next (s.checked_ready hwf hready _)

theorem exec_update_of_wellFormed (hwf : (Instr.update x y imm).wellFormed s.nctx s.ncrc = true)
    (hready : (s.ctx x.toNat).st = .ready) (hin : s.a0.toNat + s.a1.toNat ≤ s.platform.dmemSize) :
    exec (.update x y imm) s =
      .next (s.setCtx x.toNat ((s.ctx x.toNat).absorbAll (s.memRead s.a0.toNat s.a1.toNat))).finish :=
  congrArg Host.Outcome.next
    ((s.checked_ready hwf hready _).trans (s.windowed_in ((s.inBounds_iff _ _).2 hin) _))

theorem exec_digest_of_wellFormed (hwf : (Instr.digest x y imm).wellFormed s.nctx s.ncrc = true)
    (hready : (s.ctx x.toNat).st = .ready) :
    exec (.digest x y imm) s = .next (s.digestInto x.toNat (s.ctx x.toNat).natLen) :=
  congrArg Host.Outcome.next (s.checked_ready hwf hready _)

theorem exec_digestn_of_wellFormed (hwf : (Instr.digestn x y imm).wellFormed s.nctx s.ncrc = true)
    (hready : (s.ctx x.toNat).st = .ready) :
    exec (.digestn x y imm) s = .next (s.digestInto x.toNat (min s.a3.toNat (s.ctx x.toNat).natLen)) :=
  congrArg Host.Outcome.next (s.checked_ready hwf hready _)

theorem exec_copy_of_wellFormed (hwf : (Instr.copy x y imm).wellFormed s.nctx s.ncrc = true) (hready : (s.ctx x.toNat).st = .ready) :
    exec (.copy x y imm) s = .next (s.setCtx y.toNat (s.ctx x.toNat)).finish :=
  congrArg Host.Outcome.next (s.checked_ready hwf hready _)

theorem exec_getblk_of_wellFormed (hwf : (Instr.getblk x y imm).wellFormed s.nctx s.ncrc = true)
    (hready : (s.ctx x.toNat).st = .ready) :
    exec (.getblk x y imm) s = .next (s.setResult (BitVec.ofNat 64 (s.ctx x.toNat).blockLen)).finish :=
  congrArg Host.Outcome.next (s.checked_ready hwf hready _)

theorem exec_getdlen_of_wellFormed (hwf : (Instr.getdlen x y imm).wellFormed s.nctx s.ncrc = true)
    (hready : (s.ctx x.toNat).st = .ready) :
    exec (.getdlen x y imm) s = .next (s.setResult (BitVec.ofNat 64 (s.ctx x.toNat).natLen)).finish :=
  congrArg Host.Outcome.next (s.checked_ready hwf hready _)

/-- FREE checks no context state (R161). -/
theorem exec_free_of_wellFormed (hwf : (Instr.free x y imm).wellFormed s.nctx s.ncrc = true) :
    exec (.free x y imm) s = .next (s.draw.setCtx x.toNat (Ctx.unspecified s.draws)).finish :=
  congrArg Host.Outcome.next (if_pos hwf)

/-- INIT checks no context state (R145). -/
theorem exec_init_of_initAlg {a : Alg} (halg : initAlg imm = some a) (hfield : s.ctxField x y = true) :
    exec (.init x y imm) s = .next (s.draw.setCtx x.toNat (initCtx s.draws a imm s.a0)).finish := by
  rw [exec, execInit, halg]
  exact congrArg Host.Outcome.next (if_pos hfield)

end Bodies

/-- Settles O27, by whether the fields are zero. -/
theorem nopCompletes : Obligations.NopCompletes := by
  intro s x y imm
  have hfields : (x == 0 && y == 0 && imm == 0) = decide (x = 0 ∧ y = 0 ∧ imm = 0) := by
    rw [Bool.eq_iff_iff]
    simp only [Bool.and_eq_true, beq_iff_eq, decide_eq_true_eq, and_assoc]
  rw [exec, execNop, hfields]
  by_cases hzero : x = 0 ∧ y = 0 ∧ imm = 0
  · rw [if_pos (decide_eq_true hzero), if_pos hzero]
    rfl
  · rw [if_neg (by rwa [decide_eq_true_iff]), if_neg hzero]

/-- Settles O40, by the bodies of the two commands. -/
theorem getblkAndGetdlenComplete : Obligations.GetblkAndGetdlenComplete := fun _ _ _ _ hwf hready =>
  ⟨exec_getblk_of_wellFormed hwf hready, exec_getdlen_of_wellFormed hwf hready⟩

/-- Settles O41: the slot that FREE writes is UNBOUND. -/
theorem freeCompletes : Obligations.FreeCompletes := by
  intro s x y imm hwf
  obtain ⟨t, hruns, hctx, hframe⟩ :=
    exec_slot_completes (exec_free_of_wellFormed hwf) (State.lt_nctx_of_ctxField hwf) rfl rfl rfl rfl
  exact ⟨t, hruns, by rw [hctx]; rfl, hframe⟩

section Init

/-- A known ALG code names an algorithm, one of Tiger's exactly when it is a code of Tiger's (R101, R111). -/
theorem algOfCode_of_known {c : BitVec 8} (h : knownAlgCode c = true) :
    ∃ a, algOfCode c = some a ∧ (algFamily a = .tiger ↔ (c == 0x21 || c == 0x22) = true) := by
  have hmem : c ∈ [0x01#8, 0x02#8, 0x03#8, 0x04#8, 0x11#8, 0x12#8, 0x13#8, 0x14#8, 0x21#8, 0x22#8] := List.contains_iff_mem.1 h
  simp only [List.mem_cons, List.not_mem_nil, or_false] at hmem
  rcases hmem with rfl | rfl | rfl | rfl | rfl | rfl | rfl | rfl | rfl | rfl <;> exact ⟨_, rfl, by decide⟩

/-- An INIT immediate that obeys the field rules names an algorithm (R101, R111, R112, R145). -/
theorem initAlg_of_wellFormed {imm : BitVec 16} (h : initImmWellFormed imm = true) :
    ∃ a, initAlg imm = some a ∧ algOfCode (immAlg imm) = some a := by
  simp only [initImmWellFormed, Bool.and_eq_true, beq_iff_eq] at h
  obtain ⟨⟨hreserved, hknown⟩, hoptions⟩ := h
  obtain ⟨a, ha, htiger⟩ := algOfCode_of_known hknown
  refine ⟨a, ?_, ha⟩
  rw [initAlg, if_neg (by simp [hreserved]), immAlg, ha]
  dsimp only
  by_cases hfamily : algFamily a = .tiger
  · rw [if_pos (htiger.1 hfamily)] at hoptions
    rw [if_pos hfamily, if_neg (by simpa [immTlen] using hoptions)]
  · rw [if_neg (fun hc => hfamily (htiger.2 hc))] at hoptions
    rw [if_neg hfamily, if_neg (by simpa using hoptions)]

/-- The Tiger options that INIT binds: TBE and A0 for Tiger, 0 for any other algorithm (R112, R145). -/
theorem initCtx_options (d : Nat) (a : Alg) (imm : BitVec 16) (a0 : Word64) :
    if algFamily a = .tiger then (initCtx d a imm a0).tbe = immTbe imm ∧ (initCtx d a imm a0).passes = a0
      else (initCtx d a imm a0).tbe = false ∧ (initCtx d a imm a0).passes = 0 := by
  have htbe : (initCtx d a imm a0).tbe = (algFamily a == .tiger && immTbe imm) := rfl
  have hpasses : (initCtx d a imm a0).passes = if algFamily a == .tiger then a0 else 0 := rfl
  rw [htbe, hpasses]
  split
  · next hfamily => simp [hfamily]
  · next hfamily => simp [hfamily]

end Init

/-- Settles O28: the algorithm that the immediate names, and the context that INIT leaves for it. -/
theorem initCompletes : Obligations.InitCompletes := by
  intro s x y imm hwf
  obtain ⟨hfield, himm⟩ : s.ctxField x y = true ∧ initImmWellFormed imm = true := Bool.and_eq_true_iff.1 hwf
  obtain ⟨a, halg, hcode⟩ := initAlg_of_wellFormed himm
  obtain ⟨t, hruns, hctx, hframe⟩ :=
    exec_slot_completes (exec_init_of_initAlg halg hfield) (State.lt_nctx_of_ctxField hwf) rfl rfl rfl rfl
  refine ⟨t, a, hruns, hcode, ?_⟩
  rw [hctx]
  exact ⟨rfl, rfl, rfl, rfl, initCtx_options _ _ _ _, rfl, ⟨rfl, rfl, rfl⟩, hframe⟩

/-- Settles O30, by whether the context is in HMAC mode. -/
theorem resetCompletes : Obligations.ResetCompletes := by
  intro s x y imm hwf hready
  obtain ⟨t, hruns, hctx, hframe⟩ :=
    exec_slot_completes (exec_reset_of_wellFormed hwf hready) (State.lt_nctx_of_ctxField hwf) rfl rfl rfl rfl
  refine ⟨t, hruns, ?_⟩
  rw [hctx]
  refine ⟨Ctx.reset_config _, ?_, hframe⟩
  split
  · next hplain =>
    rw [Ctx.reset, hplain]
    exact ⟨rfl, rfl, rfl⟩
  · next hhmac =>
    rw [Ctx.reset, if_pos (by simpa using hhmac)]
    rfl

/-- Skein is the family that defers (R141). -/
theorem algDefer_iff (a : Alg) : algDefer a = true ↔ algFamily a = .skein := beq_iff_eq

/-- Settles O31: the cases of absorption for an algorithm that defers a full block and for one that does not. -/
theorem update1Completes : Obligations.Update1Completes := by
  intro s x y imm hwf hready hc
  obtain ⟨t, hruns, hctx, hframe⟩ :=
    exec_slot_completes (exec_update1_of_wellFormed hwf hready) (State.lt_nctx_of_ctxField hwf) rfl rfl rfl rfl
  refine ⟨t, hruns, ?_⟩
  rw [hctx]
  refine ⟨Ctx.absorb_config _ _, ?_, hc.absorb _, hframe⟩
  dsimp only
  split
  · next hskein =>
    rw [Ctx.absorb_deferred ((algDefer_iff _).2 hskein)]
    split <;> exact ⟨rfl, rfl, rfl⟩
  · next hskein =>
    rw [Ctx.absorb_eager (Bool.eq_false_iff.2 fun hdefer => hskein ((algDefer_iff _).1 hdefer))]
    split <;> exact ⟨rfl, rfl, rfl⟩

/-- Settles O32: the window's bytes are absorbed, and none when the window is empty. -/
theorem updateCompletes : Obligations.UpdateCompletes := by
  intro s x y imm hwf hready hin
  have hexec := exec_update_of_wellFormed hwf hready hin
  obtain ⟨t, hruns, hctx, hframe⟩ := exec_slot_completes hexec (State.lt_nctx_of_ctxField hwf) rfl rfl rfl rfl
  refine ⟨t, hruns, hctx, hctx ▸ Ctx.absorbAll_config _ _, fun hempty => ?_, hframe⟩
  have ht := Host.Outcome.next.inj (hruns.1.symm.trans hexec)
  have hnone : s.memRead s.a0.toNat s.a1.toNat = [] := by rw [hempty]; rfl
  rw [ht, hnone, Ctx.absorbAll, List.foldl_nil, State.setCtx_ctx]
  rfl

/-- Settles O38: the destination holds what the source holds, and a slot copied to itself stays as it is. -/
theorem copyCompletes : Obligations.CopyCompletes := by
  intro s x y imm hwf hready
  have hexec := exec_copy_of_wellFormed hwf hready
  have hy : y.toNat < s.nctx := by
    simp only [Instr.wellFormed, Bool.and_eq_true, decide_eq_true_eq] at hwf
    exact hwf.1.2
  obtain ⟨t, hruns, hdest, hframe⟩ := exec_slot_completes hexec hy rfl rfl rfl rfl
  refine ⟨t, hruns, hdest, ?_, fun hxy => ?_, hframe⟩
  · by_cases hxy : x.toNat = y.toNat
    · rw [hxy, hdest, hxy]
    · exact hframe.1.2 _ hxy
  · have ht := Host.Outcome.next.inj (hruns.1.symm.trans hexec)
    rw [ht, ← hxy, State.setCtx_ctx]
    rfl

section Digest

variable {s : State} {k n : Nat}

/-- The shared effect of DIGEST and DIGESTN on a window in bounds (R150, R152). -/
theorem State.digestInto_in (hin : s.a2.toNat + n ≤ s.platform.dmemSize) :
    s.digestInto k n = (((s.setCtx k (s.ctx k).reset).memWrite s.a2.toNat (((s.ctx k).finalize s.platform.lenField).take n)).setResult
      (BitVec.ofNat 64 n)).finish :=
  if_pos ((s.inBounds_iff _ _).2 hin)

/-- The shared effect of DIGEST and DIGESTN on a window out of bounds (R151). -/
theorem State.digestInto_out (hout : s.platform.dmemSize < s.a2.toNat + n) :
    s.digestInto k n = { s.setCtx k { s.ctx k with st := .undef } with err := .bounds, sticky := true, busy := false } :=
  if_neg fun hin => Nat.not_le_of_lt hout ((s.inBounds_iff _ _).1 hin)

/-- What DIGEST and DIGESTN leave on a window in bounds: the first n bytes of the output at A2, RESULT and the reset context
(R150, R152). -/
structure State.Digested (s : State) (k n : Nat) (t : State) : Prop where
  err : t.err = .ok
  output : ∀ j, j < n → t.readByte (s.a2.toNat + j) = ((s.ctx k).finalize s.platform.lenField).getD j 0
  result : t.result = BitVec.ofNat 64 n
  ctxs : t.ctxs = s.ctxs.set k (s.ctx k).reset

theorem State.digested_digestInto (hc : (s.ctx k).wf) (hn : n ≤ (s.ctx k).natLen) (hin : s.a2.toNat + n ≤ s.platform.dmemSize) :
    s.Digested k n (s.digestInto k n) := by
  rw [State.digestInto_in hin]
  refine ⟨rfl, fun j hj => ?_, rfl, rfl⟩
  have hlen := hc.length_finalize s.platform.lenField
  rw [State.finish_readByte, State.setResult_readByte, State.readByte_memWrite_inside _ _ _ _ (by rw [List.length_take]; omega),
    List.getElem_take, List.getD_eq_getElem?_getD, List.getElem?_eq_getElem, Option.getD_some]

/-- The slot that was digested is reset. -/
theorem State.Digested.ctx_eq {t : State} (h : s.Digested k n t) (hk : k < s.nctx) : t.ctx k = (s.ctx k).reset := by
  have hlist : t.ctx k = (s.setCtx k (s.ctx k).reset).ctx k := by rw [State.ctx, h.ctxs]; rfl
  rw [hlist, s.ctx_setCtx_same hk]

end Digest

/-- Settles O33, by the effect that DIGEST shares with DIGESTN, on the natural length. -/
theorem digestCompletes : Obligations.DigestCompletes := by
  intro s x y imm hwf hready hc hin
  have hexec := exec_digest_of_wellFormed hwf hready
  have hdigested := State.digested_digestInto hc (Nat.le_refl _) hin
  exact ⟨_, State.runsOk_of_exec hexec hdigested.err, hc.length_finalize _, hdigested.output, exec_sameDmemOutside hexec rfl,
    hdigested.result, hdigested.ctx_eq (State.lt_nctx_of_ctxField hwf), exec_sameCtxsBut hexec rfl, exec_sameCrcs hexec rfl⟩

/-- Settles O34, by the effect that DIGESTN shares with DIGEST, on the smaller of the two lengths. -/
theorem digestnCompletes : Obligations.DigestnCompletes := by
  intro s x y imm hwf hready hc hin
  have hexec := exec_digestn_of_wellFormed hwf hready
  have hdigested := State.digested_digestInto hc (Nat.min_le_right _ _) hin
  exact ⟨_, State.runsOk_of_exec hexec hdigested.err, hdigested.output, exec_sameDmemOutside hexec rfl, hdigested.result,
    hdigested.ctx_eq (State.lt_nctx_of_ctxField hwf), exec_sameCtxsBut hexec rfl, exec_sameCrcs hexec rfl⟩

/-- Settles O35: both commands write the start of the same output and leave the same reset context. -/
theorem digestnTruncatesDigest : Obligations.DigestnTruncatesDigest := by
  intro s x n hx hready hc hn hin
  have hwf : (Instr.digest x 0 0).wellFormed s.nctx s.ncrc = true := by simp [Instr.wellFormed, hx]
  have hmin : min n.toNat (s.ctx x.toNat).natLen = n.toNat := Nat.min_eq_left (Nat.le_of_lt hn)
  have hexec := exec_digest_of_wellFormed hwf hready
  have hexec' : exec (.digestn x 0 0) { s with a3 := n } = .next (({ s with a3 := n } : State).digestInto x.toNat n.toNat) := by
    rw [exec_digestn_of_wellFormed (s := { s with a3 := n }) hwf hready]
    exact congrArg (fun m => Host.Outcome.next (({ s with a3 := n } : State).digestInto x.toNat m)) hmin
  have hdigested := State.digested_digestInto hc (Nat.le_refl _) hin
  have hdigested' := State.digested_digestInto (s := { s with a3 := n }) hc (Nat.le_of_lt hn)
    (Nat.le_trans (Nat.add_le_add_left (Nat.le_of_lt hn) _) hin)
  have hwindow : dmemWindow { s with a3 := n } (.digestn x 0 0) = some (s.a2.toNat, n.toNat) :=
    congrArg (fun m => some (s.a2.toNat, m)) hmin
  have hframe := exec_sameDmemOutside hexec' hwindow
  refine ⟨_, _, hexec, hexec', hdigested.err, hdigested'.err, ?_, hdigested'.ctxs.trans hdigested.ctxs.symm, fun j hj => ?_,
    hframe⟩
  · rw [hdigested'.result, BitVec.ofNat_toNat, BitVec.setWidth_eq]
  · exact (hdigested'.output j hj).trans (hdigested.output j (Nat.lt_trans hj hn)).symm

/-- Settles O36: the effect that the two commands share on a window out of bounds. -/
theorem digestOutOfBounds : Obligations.DigestOutOfBounds := fun _ _ _ _ hwf hready =>
  ⟨fun hout => by rw [exec_digest_of_wellFormed hwf hready, State.digestInto_out hout],
    fun hout => by rw [exec_digestn_of_wellFormed hwf hready, State.digestInto_out hout]⟩

end Sys2Proof.Machine
end

