-- ==== Sys2Proof/Proofs/Lifecycle.lean ====
section
/-! The lifecycle of a context slot (R151, R156, R163, R377) through every command, and that a context comes back to what INIT, or INIT
and HMACINIT, left of it (R154): absorption keeps the configuration, and CtxReset rests on the configuration alone. -/

namespace Sys2Proof.Machine

section Lifecycle

/-- Slot k is in t in the lifecycle state that command i gives it when it takes s to t. -/
def State.FollowsLifecycle (s : State) (i : Instr) (k : Nat) (t : State) : Prop := (t.ctx k).st = stAfter s t i k

/-- The lifecycle state of a slot after a write of slot j with a content in state st. -/
theorem State.st_setCtx (s : State) {k : Nat} (hk : k < s.nctx) (j : Nat) {c : Ctx} {st : CtxSt} (hc : c.st = st) :
    ((s.setCtx j c).ctx k).st = if k = j then st else (s.ctx k).st := by
  split
  · next hkj => rw [← hkj, s.ctx_setCtx_same hk, hc]
  · next hkj => rw [s.ctx_setCtx_ne hkj]

/-- A command that may write no slot takes no part in the lifecycle. -/
theorem stAfter_of_no_target {s t : State} {i : Instr} {k : Nat} (h : ctxTarget i = none) : stAfter s t i k = (s.ctx k).st := by
  cases i <;> simp_all [stAfter, ctxTarget]

namespace State.FollowsLifecycle

variable {s : State} {i : Instr} {k : Nat}

/-- An error leaves every slot in its state, but for the BOUNDS of DIGEST and DIGESTN (R151, R372). -/
theorem raised {e : ErrCode} (hok : e ≠ .ok) (hbounds : isDigest i = true → e ≠ .bounds) : s.FollowsLifecycle i k (s.raise e) := by
  cases i <;> simp_all [FollowsLifecycle, stAfter, isDigest]

theorem checked {fields : Bool} {j : Nat} {body : State} (hbody : s.FollowsLifecycle i k body) :
    s.FollowsLifecycle i k (s.checked fields (s.ctxError j) body) := by
  obtain ⟨-, heq⟩ | ⟨-, e, he, heq⟩ | ⟨-, -, heq⟩ := s.checked_cases fields (s.ctxError j) body <;> rw [heq]
  · exact raised (by decide) fun _ => by decide
  · obtain ⟨-, rfl⟩ | ⟨-, rfl⟩ := State.ctxError_some he <;> exact raised (by decide) fun _ => by decide
  · exact hbody

theorem windowed {off n : Nat} {body : State} (hi : isDigest i = false) (hbody : s.FollowsLifecycle i k body) :
    s.FollowsLifecycle i k (s.windowed off n body) := by
  obtain ⟨-, heq⟩ | ⟨-, heq⟩ := s.windowed_cases off n body <;> rw [heq]
  · exact raised (by decide) fun hdigest => absurd (hi.symm.trans hdigest) Bool.false_ne_true
  · exact hbody

end State.FollowsLifecycle

variable {s : State} {k : Nat} (hk : k < s.nctx)
include hk

/-- A write of a slot that keeps its lifecycle state keeps that of every slot. -/
theorem State.st_setCtx_of_same {j : Nat} {c : Ctx} (hc : c.st = (s.ctx j).st) : ((s.setCtx j c).ctx k).st = (s.ctx k).st := by
  rw [s.st_setCtx hk j hc]
  split
  · next hkj => rw [hkj]
  · rfl

/-- DIGEST and DIGESTN leave their context READY, or UNDEF and BOUNDS raised (R150 to R152). -/
theorem State.st_digestInto (j n : Nat) :
    ((s.digestInto j n).ctx k).st = if (s.digestInto j n).err = .bounds ∧ k = j then .undef else (s.ctx k).st := by
  obtain ⟨-, heq⟩ | ⟨-, heq⟩ := s.digestInto_cases j n <;> rw [heq]
  · simpa using State.st_setCtx_of_same hk (s.ctx j).reset_config.1
  · simpa using s.st_setCtx hk j (c := { s.ctx j with st := .undef }) rfl

/-- Every command follows the lifecycle (R151, R156, R163, R377). -/
theorem exec_followsLifecycle (i : Instr) {t : State} (h : exec i s = .next t) : s.FollowsLifecycle i k t := by
  have hnone : ctxTarget i = none → s.FollowsLifecycle i k t := fun htarget => by
    obtain ⟨u, hexec, hwrites⟩ := exec_writesSlot i s
    cases h.symm.trans hexec
    rw [State.FollowsLifecycle, stAfter_of_no_target htarget, hwrites.ctx_eq (by simp [htarget])]
  cases i with
  | nop | getblk | getdlen | crccfg | crcinit | crcupd | crcfin => exact hnone rfl
  | init x y imm =>
    cases h
    split
    · split
      · simpa [State.FollowsLifecycle, stAfter] using s.draw.st_setCtx hk x.toNat (initCtx_st ..)
      · exact .raised (by decide) nofun
    · exact .raised (by decide) nofun
  | free x y imm =>
    cases h
    split
    · simpa [State.FollowsLifecycle, stAfter] using s.draw.st_setCtx hk x.toNat (c := Ctx.unspecified s.draws) (st := .unbound) rfl
    · exact .raised (by decide) nofun
  | reset x y imm =>
    cases h
    exact .checked <| State.st_setCtx_of_same hk (Ctx.reset_config _).1
  | update1 x y imm =>
    cases h
    exact .checked <| State.st_setCtx_of_same hk (Ctx.absorb_config _ _).1
  | update x y imm =>
    cases h
    exact .checked <| .windowed rfl <| State.st_setCtx_of_same hk (Ctx.absorbAll_config _ _).1
  | hmacinit x y imm =>
    cases h
    exact .checked <| .windowed rfl <| State.st_setCtx_of_same hk (Ctx.reset_config _).1
  | digest x y imm =>
    cases h
    exact .checked <| State.st_digestInto hk _ _
  | digestn x y imm =>
    cases h
    exact .checked <| State.st_digestInto hk _ _
  | copy x y imm =>
    cases h
    exact .checked <| by
      simpa [State.FollowsLifecycle, stAfter] using s.st_setCtx hk y.toNat rfl

end Lifecycle

/-- Settles O22, command by command. -/
theorem contextLifecycle : Obligations.ContextLifecycle := fun i _ _ _ hk h => exec_followsLifecycle hk i h

section Configuration

/-- CtxReset rests on the configuration alone (R146). -/
theorem Ctx.reset_of_sameConfig {c d : Ctx} (h : c.sameConfig d) : d.reset = c.reset := by
  obtain ⟨hst, halg, hB, hL, htbe, hpasses, hhmac, hkipad, hkopad, hhlen⟩ := h
  have hplain : d.plainReset = c.plainReset := by
    simp only [Ctx.plainReset, hst, halg, hB, hL, htbe, hpasses, hhmac, hkipad, hkopad, hhlen]
  rw [Ctx.reset, Ctx.reset, hplain, hhmac, hkipad]

variable {x : BitVec 4} {s t : State}

/-- A write of a slot that keeps its configuration keeps that of every slot. -/
theorem State.sameConfig_setCtx {j : Nat} {c : Ctx} (hc : (s.ctx j).sameConfig c) (k : Nat) :
    (s.ctx k).sameConfig ((s.setCtx j c).ctx k) := by
  by_cases hkj : k = j
  · subst hkj
    by_cases hk : k < s.nctx
    · rw [s.ctx_setCtx_same hk]
      exact hc
    · rw [State.ctx_of_ge s (Nat.le_of_not_lt hk), State.ctx_of_ge _ (by simpa using hk)]
      exact Ctx.sameConfig_refl _
  · rw [s.ctx_setCtx_ne hkj]
    exact Ctx.sameConfig_refl _

/-- A command's checks keep the configuration of a slot if its body does. -/
theorem State.sameConfig_checked {fields : Bool} {e : Option ErrCode} {body : State} {k : Nat}
    (hbody : (s.ctx k).sameConfig (body.ctx k)) : (s.ctx k).sameConfig ((s.checked fields e body).ctx k) := by
  obtain ⟨-, heq⟩ | ⟨-, c, -, heq⟩ | ⟨-, -, heq⟩ := s.checked_cases fields e body <;> rw [heq]
  · exact Ctx.sameConfig_refl _
  · exact Ctx.sameConfig_refl _
  · exact hbody

/-- A piece keeps the configuration of every slot, whether its window is in bounds or not (R143, R148, R149). -/
theorem State.absorbChunk_sameConfig {c : Chunk} (h : s.absorbChunk x c = .next t) (k : Nat) : (s.ctx k).sameConfig (t.ctx k) := by
  cases c with
  | byte b =>
    cases h
    exact State.sameConfig_checked <| State.sameConfig_setCtx (Ctx.absorb_config _ _) k
  | window off len =>
    cases h
    refine State.sameConfig_checked (s := { s with a0 := off, a1 := len }) ?_
    obtain ⟨-, heq⟩ | ⟨-, heq⟩ := State.windowed_cases { s with a0 := off, a1 := len } off.toNat len.toNat _ <;> rw [heq]
    · exact Ctx.sameConfig_refl _
    · exact State.sameConfig_setCtx (s := { s with a0 := off, a1 := len }) (Ctx.absorbAll_config _ _) k

/-- A reflexive and transitive relation that every piece keeps, a message keeps. -/
theorem State.absorbChunks_induction {R : State → State → Prop} {cs : List Chunk} (hrefl : ∀ s, R s s)
    (htrans : ∀ {s t u}, R s t → R t u → R s u) (hchunk : ∀ {s t c}, State.absorbChunk s x c = .next t → R s t)
    (h : State.absorbChunks x cs s = .next t) : R s t := by
  induction cs generalizing s with
  | nil =>
    cases h
    exact hrefl _
  | cons c cs ih =>
    rw [State.absorbChunks] at h
    split at h
    · next u hu => exact htrans (hchunk hu) (ih h)
    · cases h
    · cases h

/-- A message keeps the configuration of every slot. -/
theorem State.absorbChunks_sameConfig {cs : List Chunk} (h : State.absorbChunks x cs s = .next t) (k : Nat) :
    (s.ctx k).sameConfig (t.ctx k) :=
  State.absorbChunks_induction (R := fun s t => (s.ctx k).sameConfig (t.ctx k)) (fun _ => Ctx.sameConfig_refl _)
    Ctx.sameConfig_trans (fun hchunk => State.absorbChunk_sameConfig hchunk k) h

end Configuration

section Completed

/-! What a command did, read off the state in which it completed with ERR = 0. -/

variable {s t : State} {x y : BitVec 4} {imm : BitVec 16}

/-- A command that completes with ERR = 0 has passed its checks (R371). -/
theorem State.checked_of_ok {fields : Bool} {e : Option ErrCode} {body : State} (he : e ≠ some .ok)
    (hok : (s.checked fields e body).err = .ok) : fields = true ∧ s.checked fields e body = body := by
  obtain ⟨-, heq⟩ | ⟨-, c, rfl, heq⟩ | ⟨hfields, -, heq⟩ := s.checked_cases fields e body
  · rw [heq] at hok
    cases hok
  · rw [heq] at hok
    exact absurd (congrArg some hok) he
  · exact ⟨hfields, heq⟩

/-- A command that completes with ERR = 0 has its window in bounds (R73). -/
theorem State.windowed_of_ok {off n : Nat} {body : State} (hok : (s.windowed off n body).err = .ok) :
    s.windowed off n body = body := by
  obtain ⟨-, heq⟩ | ⟨-, heq⟩ := s.windowed_cases off n body
  · rw [heq] at hok
    cases hok
  · exact heq

/-- An INIT that completes with ERR = 0 leaves its slot as CtxReset of some configuration (R145). -/
theorem exec_init_of_ok (h : exec (.init x y imm) s = .next t) (hok : t.err = .ok) :
    ∃ c : Ctx, t.ctx x.toNat = c.reset := by
  cases h
  split at hok
  · split at hok
    · next a halg hfield =>
      have hx : x.toNat < s.nctx := State.lt_nctx_of_ctxField (b := true) (by rw [hfield]; rfl)
      rw [if_pos hfield]
      exact ⟨_, s.draw.ctx_setCtx_same hx _⟩
    · cases hok
  · cases hok

/-- An HMACINIT that completes with ERR = 0 leaves its slot as CtxReset of some configuration (R300). -/
theorem exec_hmacinit_of_ok (h : exec (.hmacinit x y imm) s = .next t) (hok : t.err = .ok) :
    ∃ c : Ctx, t.ctx x.toNat = c.reset := by
  cases h
  obtain ⟨hfields, hbody⟩ := State.checked_of_ok (s.ctxError_ne_ok _) hok
  rw [hbody] at hok ⊢
  rw [State.windowed_of_ok hok]
  have hx := State.lt_nctx_of_ctxField hfields
  exact ⟨_, s.ctx_setCtx_same hx _⟩

/-- The shared effect of DIGEST and DIGESTN, completed with ERR = 0, resets its context (R150, R152). -/
theorem State.ctx_digestInto_of_ok {k n : Nat} (hk : k < s.nctx) (hok : (s.digestInto k n).err = .ok) :
    (s.digestInto k n).ctx k = (s.ctx k).reset := by
  obtain ⟨-, heq⟩ | ⟨-, heq⟩ := s.digestInto_cases k n
  · rw [heq]
    exact s.ctx_setCtx_same hk _
  · rw [heq] at hok
    cases hok

/-- A DIGEST that completes with ERR = 0 resets its context (R150). -/
theorem exec_digest_of_ok (h : exec (.digest x y imm) s = .next t) (hok : t.err = .ok) : t.ctx x.toNat = (s.ctx x.toNat).reset := by
  cases h
  obtain ⟨hfields, hbody⟩ := State.checked_of_ok (s.ctxError_ne_ok _) hok
  rw [hbody] at hok ⊢
  exact State.ctx_digestInto_of_ok (State.lt_nctx_of_ctxField hfields) hok

/-- A DIGESTN that completes with ERR = 0 resets its context (R152). -/
theorem exec_digestn_of_ok (h : exec (.digestn x y imm) s = .next t) (hok : t.err = .ok) :
    t.ctx x.toNat = (s.ctx x.toNat).reset := by
  cases h
  obtain ⟨hfields, hbody⟩ := State.checked_of_ok (s.ctxError_ne_ok _) hok
  rw [hbody] at hok ⊢
  exact State.ctx_digestInto_of_ok (State.lt_nctx_of_ctxField hfields) hok

/-- A message and then a DIGEST or DIGESTN bring a context back that CtxReset had left (R146, R154). -/
theorem digest_restores_reset {u : State} {c : Ctx} {cs : List Chunk} {d n : Word64} (hc : s.ctx x.toNat = c.reset)
    (habsorb : State.absorbChunks x cs s = .next t)
    (hdigest : exec (.digest x 0 0) (t.withA2 d) = .next u ∨ exec (.digestn x 0 0) { t with a2 := d, a3 := n } = .next u)
    (hok : u.err = .ok) : u.ctx x.toNat = s.ctx x.toNat := by
  have hconfig : c.sameConfig (t.ctx x.toNat) :=
    Ctx.sameConfig_trans c.reset_config (hc ▸ State.absorbChunks_sameConfig habsorb x.toNat)
  have hreset : u.ctx x.toNat = (t.ctx x.toNat).reset := by
    obtain h | h := hdigest
    · exact exec_digest_of_ok (s := t.withA2 d) h hok
    · exact exec_digestn_of_ok (s := { t with a2 := d, a3 := n }) h hok
  rw [hreset, Ctx.reset_of_sameConfig hconfig, hc]

end Completed

/-- Settles O37: INIT and HMACINIT both end in CtxReset, absorption keeps what CtxReset rests on, and a digest ends in it again. -/
theorem digestLeavesInitState : Obligations.DigestLeavesInitState := by
  intro s t1 t2 t3 u2 u3 x imm cs koff klen d n req hinit hok1
  obtain ⟨c, hc⟩ := exec_init_of_ok hinit hok1
  refine ⟨digest_restores_reset hc, fun t0 hkey hok0 => ?_⟩
  obtain ⟨c', hc'⟩ := exec_hmacinit_of_ok hkey hok0
  exact digest_restores_reset hc'

end Sys2Proof.Machine
end

