-- ==== Sys2Proof/Proofs/Streaming.lean ====
section
/-! Streaming (R159, R164, R233): a message split into pieces leaves the context that the whole leaves, buffer and counter count its
bytes, and a Skein context keeps its last block until a further byte or the digest. -/

namespace Sys2Proof.Machine

section Counting

variable {c : Ctx}

/-- One block more and an empty buffer show as many bytes as a full block in the buffer (R43, R164). -/
theorem absorbed_next_block (n : Word64) (B p : Nat) :
    ((n + 1).toNat * B + p) % 2 ^ 64 = (n.toNat * B + B + p) % 2 ^ 64 := by
  have hone : (1 : Word64).toNat = 1 := rfl
  rw [BitVec.toNat_add, hone, Nat.add_mod, Nat.mod_mul_mod, ← Nat.add_mod, Nat.add_mul, Nat.one_mul]

/-- A byte absorbed counts one (R143, R164). -/
theorem Ctx.absorbed_absorb (c : Ctx) (b : Byte) : (c.absorb b).absorbed = (c.absorbed + 1) % 2 ^ 64 := by
  have hbuffered : (c.push b).absorbed = (c.absorbed + 1) % 2 ^ 64 := by
    simp only [Ctx.absorbed, Ctx.push, Ctx.ptr, List.length_append, List.length_singleton, Nat.mod_add_mod, Nat.add_assoc]
  cases hd : algDefer c.alg with
  | false =>
    rw [Ctx.absorb_eager hd]
    split
    · next hfull =>
      rw [← hbuffered]
      have hptr : (c.push b).ptr = c.blockLen := by rw [← hfull]; simp [Ctx.push, Ctx.ptr]
      show ((c.bcount + 1).toNat * c.blockLen + 0) % 2 ^ 64 = (c.bcount.toNat * c.blockLen + (c.push b).ptr) % 2 ^ 64
      rw [absorbed_next_block, hptr, Nat.add_zero]
    · exact hbuffered
  | true =>
    rw [Ctx.absorb_deferred hd]
    split
    · next hfull =>
      show ((c.bcount + 1).toNat * c.blockLen + 1) % 2 ^ 64 = ((c.bcount.toNat * c.blockLen + c.ptr) % 2 ^ 64 + 1) % 2 ^ 64
      rw [absorbed_next_block, hfull, Nat.mod_add_mod]
    · exact hbuffered

/-- A message counts its length. -/
theorem Ctx.absorbed_absorbAll (c : Ctx) (l : List Byte) : (c.absorbAll l).absorbed = (c.absorbed + l.length) % 2 ^ 64 := by
  induction l generalizing c with
  | nil => simp [Ctx.absorbAll, Ctx.absorbed]
  | cons b l ih =>
    rw [Ctx.absorbAll, List.foldl_cons, ← Ctx.absorbAll, ih, Ctx.absorbed_absorb, Nat.mod_add_mod, List.length_cons, Nat.add_assoc,
      Nat.add_comm 1]

/-- A fresh digest state shows no byte. -/
theorem Ctx.absorbed_of_fresh (h : c.fresh) : c.absorbed = 0 := by
  obtain ⟨-, hptr, hcount⟩ := h
  simp [Ctx.absorbed, hptr, hcount]

/-- A Skein context that has absorbed a byte holds one in its buffer (R42, R233). -/
theorem Ctx.ptr_absorb_pos (hd : algDefer c.alg = true) (b : Byte) : 0 < (c.absorb b).ptr := by
  rw [Ctx.absorb_deferred hd]
  split <;> simp [Ctx.push, Ctx.ptr]

/-- A Skein buffer is empty after a message only if the message is (R42, R164). -/
theorem Ctx.eq_nil_of_ptr_absorbAll (hd : algDefer c.alg = true) {l : List Byte} (hptr : (c.absorbAll l).ptr = 0) : l = [] := by
  obtain rfl | ⟨l', b, rfl⟩ := List.eq_nil_or_concat l
  · rfl
  · have hconfig := Ctx.absorbAll_config c l'
    have hpos := Ctx.ptr_absorb_pos (hconfig.2.1.symm ▸ hd) b
    rw [List.concat_eq_append, Ctx.absorbAll_append] at hptr
    exact absurd hptr (Nat.ne_of_gt hpos)

end Counting

/-- Settles O43: the pieces are absorbed as one message, which keeps the context well formed and counts its bytes. -/
theorem bufferCountsBytes : Obligations.BufferCountsBytes := by
  intro s x cs hx hready hc hfresh hok
  obtain ⟨t, ht, habsorbs⟩ := State.absorbChunks_absorbs hx hready hok
  refine ⟨t, ht, ?_⟩
  rw [habsorbs.ctx_eq]
  refine ⟨(hc.absorbAll _).buffer_ok, ?_, fun hskein => ?_⟩
  · rw [Ctx.absorbed_absorbAll, Ctx.absorbed_of_fresh hfresh, Nat.zero_add]
  · rw [(Ctx.absorbAll_config _ _).2.1] at hskein
    exact Ctx.eq_nil_of_ptr_absorbAll ((algDefer_iff _).2 hskein)

section Chunks

variable {s t : State}

/-- A piece leaves every CRC unit (R342). -/
theorem State.absorbChunk_sameCrcs {x : BitVec 4} {c : Chunk} (h : s.absorbChunk x c = .next t) : s.sameCrcs t := by
  cases c with
  | window off len =>
    have hcrcs : ({ s with a0 := off, a1 := len } : State).sameCrcs t := exec_sameCrcs (i := .update x 0 0) h rfl
    exact hcrcs
  | byte b => exact exec_sameCrcs (i := .update1 x 0 ((0 : BitVec 8) ++ b)) h rfl

/-- A message leaves every CRC unit. -/
theorem State.absorbChunks_sameCrcs {x : BitVec 4} {cs : List Chunk} (h : State.absorbChunks x cs s = .next t) : s.sameCrcs t :=
  State.absorbChunks_induction (R := State.sameCrcs) (fun _ => ⟨rfl, fun _ => rfl⟩)
    (fun h h' => ⟨h'.1.trans h.1, fun j => (h'.2 j).trans (h.2 j)⟩) State.absorbChunk_sameCrcs h

/-- The same bytes written to DMEMs that read the same. -/
theorem State.readByte_memWrite_congr (h : s.sameDmem t) (a : Nat) (l : List Byte) (b : Nat) :
    (t.memWrite a l).readByte b = (s.memWrite a l).readByte b := by
  by_cases hin : a ≤ b ∧ b < a + l.length
  · obtain ⟨i, rfl⟩ := Nat.exists_eq_add_of_le hin.1
    rw [t.readByte_memWrite_inside l a i (by omega), s.readByte_memWrite_inside l a i (by omega)]
  · rw [t.readByte_memWrite_outside l (by omega), s.readByte_memWrite_outside l (by omega), h]

/-- The shared effect of DIGEST and DIGESTN rests on the context, A2, the parameters and DMEM (R150, R151). -/
theorem State.digestInto_congr {k : Nat} (n : Nat) (hctx : t.ctx k = s.ctx k) (ha2 : t.a2 = s.a2) (hplatform : t.platform = s.platform)
    (hdmem : s.sameDmem t) :
    (t.digestInto k n).err = (s.digestInto k n).err ∧
      ((t.digestInto k n).err = .ok → (t.digestInto k n).result = (s.digestInto k n).result) ∧
      ∀ a, (t.digestInto k n).readByte a = (s.digestInto k n).readByte a := by
  have hbounds : t.inBounds t.a2.toNat n = s.inBounds s.a2.toNat n := by rw [State.inBounds, State.inBounds, ha2, hplatform]
  have hwritten : ∀ (c d : Ctx) (l : List Byte) (a : Nat),
      ((t.setCtx k c).memWrite s.a2.toNat l).readByte a = ((s.setCtx k d).memWrite s.a2.toNat l).readByte a := fun c d l a =>
    State.readByte_memWrite_congr (s := s.setCtx k d) (t := t.setCtx k c) hdmem _ l a
  unfold State.digestInto
  rw [hbounds, hctx, ha2, hplatform]
  dsimp only
  split
  · exact ⟨rfl, fun _ => rfl, fun a => hwritten _ _ _ a⟩
  · exact ⟨rfl, nofun, hdmem⟩

end Chunks

/-- Settles O42: both ways absorb the same bytes, and the digest rests on what they leave. -/
theorem chunkInvariance : Obligations.ChunkInvariance := by
  intro s x cs off len d hx hready hok hin hbytes
  have hwhole : s.chunkOk (.window off len) = true := (s.inBounds_iff _ _).2 hin
  obtain ⟨t, ht, habsorbs⟩ := State.absorbChunks_absorbs hx hready hok
  obtain ⟨t', ht', habsorbs'⟩ := State.absorbChunk_absorbs hx hready hwhole
  have hctx : t.ctx x.toNat = t'.ctx x.toNat := by
    rw [habsorbs.ctx_eq, habsorbs'.ctx_eq, hbytes]
    rfl
  have hdigest : ∀ {u : State} {l : List Byte}, State.Absorbs x.toNat l s u →
      exec (.digest x 0 0) (u.withA2 d) = .next ((u.withA2 d).digestInto x.toNat (u.ctx x.toNat).natLen) := fun {u l} h => by
    have hu : x.toNat < (u.withA2 d).nctx := h.others.1.symm ▸ hx
    exact exec_digest_of_wellFormed (s := u.withA2 d) (by simpa [Instr.wellFormed] using hu) (h.st_eq.trans hready)
  refine ⟨t, t', ht, ht', hctx, habsorbs.others, State.absorbChunks_sameCrcs ht, habsorbs.dmem, _, _, hdigest habsorbs,
    hdigest habsorbs', ?_⟩
  rw [hctx]
  exact State.digestInto_congr (s := t'.withA2 d) (t := t.withA2 d) _ hctx rfl (habsorbs.platform.trans habsorbs'.platform.symm)
    fun a => (habsorbs.dmem a).trans (habsorbs'.dmem a).symm

section Skein

/-- The core of a Skein algorithm (R230). -/
def skeinCoreOf (a : Alg) : SkeinCore := if algWords a = 4 then skeinSmall else skeinBig

/-- The algorithms of the Skein family (R141). -/
theorem algFamily_skein_cases {a : Alg} (h : algFamily a = .skein) :
    a = .skein224 ∨ a = .skein256 ∨ a = .skein384 ∨ a = .skein512 := by
  cases a <;> simp_all [algFamily]

/-- The block length of a Skein algorithm is that of its core (R111, R230). -/
theorem algBlockLen_skein {a : Alg} (h : algFamily a = .skein) : algBlockLen a = 8 * (skeinCoreOf a).nw := by
  rcases algFamily_skein_cases h with rfl | rfl | rfl | rfl <;> rfl

/-- The first message block, when more follow (R232). -/
theorem skeinCompress_first (core : SkeinCore) (h : List Word64) (blk : List Byte) :
    skeinCompress core h blk 0 = skeinUbi core h blk (8 * core.nw) 224 := by
  rw [skeinCompress, if_pos rfl, Nat.zero_add, Nat.one_mul]

/-- A full block that is the first and the last, and the output transform (R241, R242). -/
theorem skeinFinal_first {core : SkeinCore} {blk : List Byte} (hblk : blk.length = 8 * core.nw) (L : Nat) (h : List Word64) :
    skeinFinal core L h blk 0 =
      (leBytes 8 (skeinUbi core (skeinUbi core h blk (8 * core.nw) 480) (zeros (8 * core.nw)) 8 510)).take L := by
  have hnopad : zeros (8 * core.nw - 8 * core.nw) = [] := by rw [Nat.sub_self]; rfl
  simp only [skeinFinal, hblk, hnopad, List.append_nil, Nat.zero_mul, Nat.zero_add, if_true]

/-- The context with other bytes in its buffer. -/
def Ctx.withBuffer (c : Ctx) (l : List Byte) : Ctx := { c with buf := l }

variable {c : Ctx} (hskein : algFamily c.alg = .skein)
include hskein

/-- Compress of a Skein context (R232). -/
theorem Ctx.compress_skein (blk : List Byte) :
    c.compress blk = .w64 (skeinCompress (skeinCoreOf c.alg) c.cv.words64 blk c.bcount.toNat) := by
  unfold Ctx.compress
  rcases algFamily_skein_cases hskein with h | h | h | h <;> rw [h] <;> rfl

/-- Final of a Skein context (R241). -/
theorem Ctx.final_skein (lf : LenField) :
    c.final lf = skeinFinal (skeinCoreOf c.alg) c.digestLen c.cv.words64 c.buf c.bcount.toNat := by
  unfold Ctx.final
  rcases algFamily_skein_cases hskein with h | h | h | h <;> rw [h] <;> rfl

/-- Bytes that fit into the buffer of a Skein context are buffered and nothing is compressed (R143, R233). -/
theorem Ctx.absorbAll_of_room {l : List Byte} (hroom : c.ptr + l.length ≤ c.blockLen) :
    c.absorbAll l = c.withBuffer (c.buf ++ l) := by
  induction l generalizing c with
  | nil => simp [Ctx.absorbAll, Ctx.withBuffer]
  | cons b l ih =>
    rw [List.length_cons] at hroom
    have habsorb : c.absorb b = c.push b := by
      rw [Ctx.absorb_deferred ((algDefer_iff _).2 hskein), if_neg (by omega)]
    have hpushed : (c.push b).ptr + l.length ≤ (c.push b).blockLen := by
      simp only [Ctx.push, Ctx.ptr, List.length_append, List.length_singleton] at hroom ⊢
      omega
    rw [Ctx.absorbAll, List.foldl_cons, ← Ctx.absorbAll, habsorb, ih (c := c.push b) hskein hpushed]
    simp [Ctx.push, Ctx.withBuffer]

/-- A further byte compresses the full first block of a Skein context as one that is not the last (R232, R233). -/
theorem Ctx.absorb_full_first_block (hfull : c.ptr = c.blockLen) (hcount : c.bcount = 0) (b : Byte) :
    c.absorb b = { c with
      cv := .w64 (skeinUbi (skeinCoreOf c.alg) c.cv.words64 c.buf (8 * (skeinCoreOf c.alg).nw) 224), bcount := 1, buf := [b] } := by
  have hzero : c.bcount.toNat = 0 := by rw [hcount]; rfl
  rw [Ctx.absorb_deferred ((algDefer_iff _).2 hskein), if_pos hfull, Ctx.flush, Ctx.push, Ctx.compress_skein hskein, hzero,
    skeinCompress_first, hcount]
  rfl

/-- The natural output over a full first block that is the last (R241). -/
theorem Ctx.final_full_first_block (hB : c.blockLen = algBlockLen c.alg) (hfull : c.ptr = c.blockLen) (hcount : c.bcount = 0)
    (lf : LenField) :
    c.final lf = (leBytes 8 (skeinUbi (skeinCoreOf c.alg) (skeinUbi (skeinCoreOf c.alg) c.cv.words64 c.buf c.blockLen 480)
      (zeros c.blockLen) 8 510)).take c.digestLen := by
  have hsize : c.blockLen = 8 * (skeinCoreOf c.alg).nw := hB.trans (algBlockLen_skein hskein)
  have hzero : c.bcount.toNat = 0 := by rw [hcount]; rfl
  rw [Ctx.final_skein hskein, hzero, skeinFinal_first (hfull.trans hsize), hsize]

end Skein

/-- Settles O44: the B bytes of the window stay in the buffer, which a further byte or the digest then compresses. -/
theorem skeinDefersFullBlock : Obligations.SkeinDefersFullBlock := by
  intro s x hx hready hc hfresh hskein hlen hin
  obtain ⟨hcv, hptr, hcount⟩ := hfresh
  have hroom : (s.ctx x.toNat).ptr + (s.memRead s.a0.toNat s.a1.toNat).length ≤ (s.ctx x.toNat).blockLen := by
    exact Nat.le_of_eq (by rw [hptr, State.length_memRead, hlen, Nat.zero_add])
  have habsorb : (s.ctx x.toNat).absorbAll (s.memRead s.a0.toNat s.a1.toNat) =
      (s.ctx x.toNat).withBuffer (s.memRead s.a0.toNat s.a1.toNat) := by
    rw [Ctx.absorbAll_of_room hskein hroom, List.length_eq_zero_iff.1 hptr, List.nil_append]
  have hfull : ((s.ctx x.toNat).withBuffer (s.memRead s.a0.toNat s.a1.toNat)).ptr = (s.ctx x.toNat).blockLen :=
    (s.length_memRead _ _).trans hlen
  have hiv : (s.ctx x.toNat).cv.words64 = (algIv (s.ctx x.toNat).alg).words64 := congrArg ChainVal.words64 hcv
  have hsize : (s.ctx x.toNat).blockLen = 8 * (skeinCoreOf (s.ctx x.toNat).alg).nw :=
    hc.blockLen_eq.trans (algBlockLen_skein hskein)
  obtain ⟨t, ht, habsorbs⟩ := State.absorbChunk_absorbs hx hready (c := .window s.a0 s.a1) ((s.inBounds_iff _ _).2 hin)
  have hctx := habsorbs.ctx_eq.trans habsorb
  have hx' : x.toNat < t.nctx := habsorbs.others.1.symm ▸ hx
  refine ⟨t, ht, ?_⟩
  dsimp only
  rw [hctx]
  refine ⟨hcv, hcount, rfl, hfull, fun hplain lf => ?_, fun b => ⟨_, exec_update1_ready hx' (habsorbs.st_eq.trans hready) b, ?_⟩⟩
  · rw [Ctx.finalize, hplain, ← hiv]
    exact Ctx.final_full_first_block (c := (s.ctx x.toNat).withBuffer (s.memRead s.a0.toNat s.a1.toNat)) hskein hc.blockLen_eq
      hfull hcount lf
  · rw [State.finish_ctx, State.ctx_setCtx_same _ hx', hctx,
      Ctx.absorb_full_first_block (c := (s.ctx x.toNat).withBuffer (s.memRead s.a0.toNat s.a1.toNat)) hskein hfull hcount, ← hiv,
      hsize]
    exact ⟨rfl, rfl, rfl⟩

end Sys2Proof.Machine
end

