-- ==== Sys2Proof/Proofs/WorkedDigests.lean ====
section
/-! The worked digests (R204, R243, R283): the one block that each core makes of the empty message, the output of a freshly initialized
context as compressions of that block, and the values of the compressions. -/

namespace Sys2Proof.Machine

section EmptyMessage

/-- BMW-224 and BMW-256 pad the empty message to the padding byte and zeros, under either layout (R198). -/
theorem bmwPad_small_empty (lf : LenField) (h : List Word32) :
    bmwPad bmwSmall lf h [] 0 = bmwCompress bmwSmall h (0x80 :: zeros 63) := by
  have hroom : ([] : List Byte).length < 16 * bmwSmall.nb - bmwLenBytes bmwSmall lf := by
    rw [bmwLenBytes_small]
    decide
  rw [bmwPad_of_room _ _ _ _ _ hroom, bmwLenBytes_small]
  rfl

/-- The last block of an empty Skein message is zeros, at position 0, with the type code of a block that is first and last (R241). -/
theorem skeinFinal_empty (core : SkeinCore) (L : Nat) (h : List Word64) :
    skeinFinal core L h [] 0 =
      (leBytes 8 (skeinUbi core (skeinUbi core h (zeros (8 * core.nw)) 0 480) (zeros (8 * core.nw)) 8 510)).take L := by
  simp only [skeinFinal, List.length_nil, List.nil_append, Nat.zero_mul, Nat.add_zero, Nat.sub_zero, if_true]

/-- Tiger and Tiger2 pad the empty message to the padding byte and zeros (R278). -/
theorem tigerFinal_empty (pad : Byte) (passes : Nat) (tbe : Bool) (L : Nat) (h : List Word64) :
    tigerFinal pad passes tbe L h [] 0 = tigerOut tbe L (tigerCompress passes h (pad :: zeros 63)) := rfl

end EmptyMessage

section FreshContext

variable (d : Nat) (imm : BitVec 16) (a0 : Word64) (lf : LenField)

/-- INIT leaves no HMAC mode, so the output is the natural one (R144, R145). -/
theorem initCtx_finalize (a : Alg) : (initCtx d a imm a0).finalize lf = (initCtx d a imm a0).final lf := rfl

/-- BMW-256 of the empty message: two compressions, the second on FINAL, of which the last eight words are put out (R202, R203). -/
theorem initCtx_bmw256_finalize :
    (initCtx d .bmw256 imm a0).finalize lf =
      leBytes 4 ((bmwF bmwSmall (bmwFinalConst bmwSmall)
        (bmwF bmwSmall (bmwIv bmwSmall 0x40) (bmwWords bmwSmall (0x80 :: zeros 63)))).drop 8) :=
  calc (initCtx d .bmw256 imm a0).finalize lf
    _ = bmwFinal bmwSmall lf 8 (bmwIv bmwSmall 0x40) [] 0 := initCtx_finalize d imm a0 lf _
    _ = _ := by rw [bmwFinal, bmwPad_small_empty]; rfl

/-- Skein-512 of the empty message: the last block, and the whole of the output transform (R241, R242). -/
theorem initCtx_skein512_finalize :
    (initCtx d .skein512 imm a0).finalize lf =
      leBytes 8 (skeinUbi skeinBig (skeinUbi skeinBig skeinIv512 (zeros 64) 0 480) (zeros 64) 8 510) :=
  calc (initCtx d .skein512 imm a0).finalize lf
    _ = skeinFinal skeinBig 64 skeinIv512 [] 0 := initCtx_finalize d imm a0 lf _
    _ = _ := by
      rw [skeinFinal_empty]
      exact List.take_of_length_le (by rw [length_leBytes, length_skeinUbi skeinBig rfl]; decide)

/-- Tiger of the empty message: one compression, put out in the byte order and length that INIT bound (R278, R280). -/
theorem initCtx_tiger_finalize :
    (initCtx d .tiger imm a0).finalize lf =
      tigerOut (immTbe imm) (algDigestLen .tiger (immTlen imm)) (tigerCompress a0.toNat tigerIv (0x01 :: zeros 63)) :=
  calc (initCtx d .tiger imm a0).finalize lf
    _ = tigerFinal 0x01 a0.toNat (immTbe imm) (algDigestLen .tiger (immTlen imm)) tigerIv [] 0 := initCtx_finalize d imm a0 lf _
    _ = _ := tigerFinal_empty ..

end FreshContext

/-- Settles O47: each compression is evaluated once, and the digests of the three contexts follow from those values. -/
theorem workedDigests : Obligations.WorkedDigests := by
  refine ⟨?bmw, ?skein, ?tiger⟩
  case bmw =>
    intro m h h2
    have hwords : bmwWords bmwSmall (0x80 :: zeros 63) = m := by decide +kernel +zetaReduce
    have hfirst : bmwF bmwSmall (bmwIv bmwSmall 0x40) m = h := by decide +kernel +zetaReduce
    have hsecond : bmwF bmwSmall (bmwFinalConst bmwSmall) h = h2 := by decide +kernel +zetaReduce
    refine ⟨hwords, hfirst, hsecond, by decide +kernel +zetaReduce, ?_⟩
    rw [initCtx_bmw256_finalize, hwords, hfirst, hsecond]
  case skein =>
    refine ⟨by decide, by decide, initCtx_skein512_finalize .., ?_⟩
    rw [initCtx_skein512_finalize]
    decide +kernel
  case tiger =>
    have hstate : tigerCompress 0 tigerIv (0x01 :: zeros 63) = [0x24F0130C63AC9332, 0x16166E76B1BB925F, 0xF373DE2D49584E7A] := by
      decide +kernel
    refine ⟨hstate, ?bigEndian, ?littleEndian⟩
    all_goals
      rw [initCtx_tiger_finalize, show (0 : Word64).toNat = 0 from rfl, hstate]
      decide +kernel

end Sys2Proof.Machine
end

