-- ==== Sys2Proof/Proofs/SkeinInitialValues.lean ====
section
/-! The derivation of the Skein initial values (R238, R239): the words and the tweak that the configuration block gives UBI, and the values
that Threefish makes of them under the zero key. -/

namespace Sys2Proof.Machine

section LittleEndianWords

/-- The words of a block are its first word and the words of the bytes after it. -/
theorem leWords_succ (w nb n : Nat) (blk : List Byte) :
    leWords w nb blk (n + 1) = BitVec.ofNat w (leDecode (blk.take nb)) :: leWords w nb (blk.drop nb) n := by
  simp [leWords, slice, List.range_succ_eq_map, List.drop_drop, Nat.succ_mul, Nat.add_comm]

theorem leBytes_cons {w : Nat} (nb : Nat) (x : BitVec w) (ws : List (BitVec w)) :
    leBytes nb (x :: ws) = leEncode x.toNat nb ++ leBytes nb ws := List.flatMap_cons

/-- Words that fit in `nb` bytes are read back from their encoding (R230). -/
theorem leWords_leBytes {w nb : Nat} (hw : w ≤ 8 * nb) (ws : List (BitVec w)) : leWords w nb (leBytes nb ws) ws.length = ws := by
  induction ws with
  | nil => rfl
  | cons x ws ih =>
    have hx : x.toNat < 256 ^ nb := calc
      x.toNat < 2 ^ w := x.isLt
      _ ≤ 2 ^ (8 * nb) := Nat.pow_le_pow_right (by decide) hw
      _ = 256 ^ nb := Nat.pow_mul ..
    rw [List.length_cons, leWords_succ, leBytes_cons, List.take_left' (length_leEncode ..), List.drop_left' (length_leEncode ..), ih,
      leDecode_leEncode, Nat.mod_eq_of_lt hx, BitVec.ofNat_toNat, BitVec.setWidth_eq]

/-- Words of 0 are encoded as zeros. -/
theorem leBytes_replicate_zero (w nb n : Nat) : leBytes nb (List.replicate n (0 : BitVec w)) = zeros (n * nb) := by
  induction n with
  | zero => simp [leBytes, zeros]
  | succ n ih =>
    have hzero : (0 : BitVec w).toNat = 0 := BitVec.toNat_zero
    rw [List.replicate_succ, leBytes_cons, hzero, leEncode_zero, ih, zeros_append_zeros, Nat.succ_mul, Nat.add_comm]

end LittleEndianWords

section ConfigurationBlock

/-- The words of the configuration block: the identifier "SHA3" below version 1, the output length in bits, and zeros (R238). -/
def skeinConfigWords (core : SkeinCore) (L : Nat) : List Word64 :=
  0x0000000133414853 :: BitVec.ofNat 64 (8 * L) :: List.replicate (core.nw - 2) 0

variable {core : SkeinCore} {L : Nat}

theorem skeinConfig_eq_leBytes (hL : 8 * L < 2 ^ 64) : skeinConfig core L = leBytes 8 (skeinConfigWords core L) := by
  have hhead : [0x53, 0x48, 0x41, 0x33] ++ leEncode 1 2 ++ zeros 2 = leEncode (0x0000000133414853 : Word64).toNat 8 := by decide
  have hlen : (BitVec.ofNat 64 (8 * L)).toNat = 8 * L := (BitVec.toNat_ofNat ..).trans (Nat.mod_eq_of_lt hL)
  have htail : zeros (8 * core.nw - 16) = leBytes 8 (List.replicate (core.nw - 2) (0 : Word64)) := by
    rw [leBytes_replicate_zero, Nat.sub_mul, Nat.mul_comm]
  rw [skeinConfig, hhead, htail, skeinConfigWords, leBytes_cons, leBytes_cons, hlen, List.append_assoc]

/-- The configuration block is read as its words (R230, R238). -/
theorem leWords_skeinConfig (hnw : 2 ≤ core.nw) (hL : 8 * L < 2 ^ 64) :
    leWords 64 8 (skeinConfig core L) core.nw = skeinConfigWords core L := by
  have hlength : (skeinConfigWords core L).length = core.nw := by
    simp only [skeinConfigWords, List.length_cons, List.length_replicate]
    omega
  calc leWords 64 8 (skeinConfig core L) core.nw
    _ = leWords 64 8 (leBytes 8 (skeinConfigWords core L)) (skeinConfigWords core L).length := by
      rw [skeinConfig_eq_leBytes hL, hlength]
    _ = skeinConfigWords core L := leWords_leBytes (by decide) _

/-- The tweak of the configuration block, which is first and final, at position 32 (R231). -/
theorem skeinTweak_config : skeinTweak 32 392 = (32, 0xC400000000000000) := by decide

/-- The derived initial value: Threefish on the configuration words under the zero key, fed forward (R232, R238). -/
theorem skeinIvDerived_eq (hnw : 2 ≤ core.nw) (hL : 8 * L < 2 ^ 64) :
    skeinIvDerived core L =
      (threefish core (List.replicate core.nw 0) 32 0xC400000000000000 (skeinConfigWords core L)).zipWith (· ^^^ ·)
        (skeinConfigWords core L) := by
  rw [skeinIvDerived, skeinUbi, leWords_skeinConfig hnw hL, skeinTweak_config]

end ConfigurationBlock

/-- Settles O48: each configuration block gives UBI its words, and Threefish is evaluated on them once for each digest length. -/
theorem skeinIvDerivation : Obligations.SkeinIvDerivation := by
  have hsmall : 2 ≤ skeinSmall.nw := by decide
  have hbig : 2 ≤ skeinBig.nw := by decide
  refine ⟨congrArg ChainVal.w64 ?skein224, congrArg ChainVal.w64 ?skein256, congrArg ChainVal.w64 ?skein384,
    congrArg ChainVal.w64 ?skein512⟩
  case skein224 | skein256 =>
    rw [skeinIvDerived_eq hsmall (by decide)]
    decide +kernel
  case skein384 | skein512 =>
    rw [skeinIvDerived_eq hbig (by decide)]
    decide +kernel

end Sys2Proof.Machine
end

