-- ==== Sys2Proof/Proofs/TigerOutput.lean ====
section
/-! The Tiger output options (R280, R281): absorption carries the byte order and the digest length along without reading them, the natural
output is the encoding of a final state that does not depend on them, and big-endian words are little-endian words reversed. -/

namespace Sys2Proof.Machine

section Absorption

/-- The context with another Tiger byte order and digest length (R40, R41). -/
def Ctx.withOutput (c : Ctx) (tbe : Bool) (L : Nat) : Ctx := { c with tbe := tbe, digestLen := L }

variable (c : Ctx) (tbe : Bool) (L : Nat)

theorem Ctx.withOutput_cv : (c.withOutput tbe L).cv = c.cv := rfl

/-- No strategy's Compress reads the byte order or the digest length (R140, R281). -/
theorem Ctx.withOutput_compress (blk : List Byte) : (c.withOutput tbe L).compress blk = c.compress blk := rfl

theorem Ctx.withOutput_push (b : Byte) : (c.withOutput tbe L).push b = (c.push b).withOutput tbe L := rfl

theorem Ctx.withOutput_flush : (c.withOutput tbe L).flush = c.flush.withOutput tbe L := by
  rw [Ctx.flush, Ctx.withOutput_compress]
  rfl

theorem Ctx.withOutput_flushDeferred : (c.withOutput tbe L).flushDeferred = c.flushDeferred.withOutput tbe L := by
  rw [Ctx.flushDeferred, Ctx.withOutput_flush]
  exact (apply_ite (Ctx.withOutput · tbe L) _ c.flush c).symm

theorem Ctx.withOutput_flushFull : (c.withOutput tbe L).flushFull = c.flushFull.withOutput tbe L := by
  rw [Ctx.flushFull, Ctx.withOutput_flush]
  exact (apply_ite (Ctx.withOutput · tbe L) _ c.flush c).symm

theorem Ctx.withOutput_absorb (b : Byte) : (c.withOutput tbe L).absorb b = (c.absorb b).withOutput tbe L := by
  simp only [Ctx.absorb, Ctx.withOutput_flushDeferred, Ctx.withOutput_push, Ctx.withOutput_flushFull]

/-- Contexts that differ in the output options alone still do so after the same input (R281). -/
theorem Ctx.withOutput_absorbAll (l : List Byte) : (c.withOutput tbe L).absorbAll l = (c.absorbAll l).withOutput tbe L := by
  induction l generalizing c with
  | nil => rfl
  | cons b l ih => calc
      (c.withOutput tbe L).absorbAll (b :: l)
      _ = ((c.withOutput tbe L).absorb b).absorbAll l := rfl
      _ = ((c.absorb b).withOutput tbe L).absorbAll l := by rw [Ctx.withOutput_absorb]
      _ = ((c.absorb b).absorbAll l).withOutput tbe L := ih _

theorem Ctx.withOutput_absorbAll_cv (l : List Byte) : ((c.withOutput tbe L).absorbAll l).cv = (c.absorbAll l).cv := by
  rw [Ctx.withOutput_absorbAll, Ctx.withOutput_cv]

end Absorption

section Encoding

theorem beBytes_cons {w : Nat} (nb : Nat) (x : BitVec w) (ws : List (BitVec w)) :
    beBytes nb (x :: ws) = beEncode x.toNat nb ++ beBytes nb ws := List.flatMap_cons

/-- Byte i of a big-endian number is byte n-1-i of the little-endian one. -/
theorem getElem?_beEncode (v : Nat) {n i : Nat} (hi : i < n) : (beEncode v n)[i]? = (leEncode v n)[n - 1 - i]? := by
  rw [beEncode, List.getElem?_reverse (by rwa [length_leEncode]), length_leEncode]

/-- The two encodings of a word sequence hold the same words, the bytes of each reversed (R280). -/
theorem getElem?_beBytes {w : Nat} (nb : Nat) (ws : List (BitVec w)) (k : Nat) {i : Nat} (hk : k < ws.length) (hi : i < nb) :
    (beBytes nb ws)[nb * k + i]? = (leBytes nb ws)[nb * k + (nb - 1 - i)]? := by
  have hrev : nb - 1 - i < nb := by omega
  induction ws generalizing k with
  | nil => exact absurd hk (Nat.not_lt_zero k)
  | cons x ws ih =>
    rw [beBytes_cons, leBytes_cons]
    cases k with
    | zero =>
      rw [Nat.mul_zero, Nat.zero_add, Nat.zero_add, List.getElem?_append_left (by rwa [length_beEncode]),
        List.getElem?_append_left (by rwa [length_leEncode]), getElem?_beEncode _ hi]
    | succ k =>
      have hskip : ∀ j, nb * (k + 1) + j = nb + (nb * k + j) := fun j => by rw [Nat.mul_succ]; omega
      rw [hskip, hskip, List.getElem?_append_right (by rw [length_beEncode]; omega),
        List.getElem?_append_right (by rw [length_leEncode]; omega), length_beEncode, length_leEncode, Nat.add_sub_cancel_left,
        Nat.add_sub_cancel_left]
      exact ih k (Nat.lt_of_succ_lt_succ hk)

/-- A shorter output is the start of the 24-byte one in the same byte order (R280). -/
theorem tigerOut_eq_take (tbe : Bool) {L : Nat} (hL : L ≤ 24) (h : List Word64) : tigerOut tbe L h = (tigerOut tbe 24 h).take L := by
  rw [tigerOut, tigerOut, List.take_take, Nat.min_eq_left hL]

variable {h : List Word64}

/-- The 24-byte output is the whole encoding of the three words (R280). -/
theorem tigerOut_full (tbe : Bool) (hh : h.length = 3) : tigerOut tbe 24 h = if tbe then beBytes 8 h else leBytes 8 h :=
  List.take_of_length_le (by split <;> simp [hh])

/-- The byte orders differ in the order of the bytes within each word (R280). -/
theorem getD_tigerOut_bigEndian (hh : h.length = 3) {w i : Nat} (hw : w < 3) (hi : i < 8) :
    (tigerOut true 24 h).getD (8 * w + i) 0 = (tigerOut false 24 h).getD (8 * w + (7 - i)) 0 := by
  rw [tigerOut_full true hh, tigerOut_full false hh, List.getD_eq_getElem?_getD, List.getD_eq_getElem?_getD]
  exact congrArg (Option.getD · 0) (getElem?_beBytes 8 h w (hh ▸ hw) hi)

end Encoding

section FinalState

theorem algFamily_tiger_cases {a : Alg} (h : algFamily a = .tiger) : a = .tiger ∨ a = .tiger2 := by
  cases a <;> simp_all [algFamily]

/-- Final encodes three state words which the byte order and the digest length do not enter (R278). -/
theorem tigerFinal_eq_tigerOut (pad : Byte) (passes : Nat) (h : List Word64) (buf : List Byte) (n : Nat) :
    ∃ last : List Word64, last.length = 3 ∧ ∀ tbe L, tigerFinal pad passes tbe L h buf n = tigerOut tbe L last := by
  refine ⟨_, ?_, fun _ _ => rfl⟩
  split <;> exact length_tigerCompress ..

/-- The natural output of a Tiger context encodes one final state, whatever its output options (R278, R281). -/
theorem Ctx.final_withOutput {c : Ctx} (htiger : algFamily c.alg = .tiger) (lf : LenField) :
    ∃ last : List Word64, last.length = 3 ∧ ∀ tbe L, (c.withOutput tbe L).final lf = tigerOut tbe L last := by
  obtain ⟨pad, hpad⟩ : ∃ pad, ∀ tbe L, (c.withOutput tbe L).final lf =
      tigerFinal pad c.passes.toNat tbe L c.cv.words64 c.buf c.bcount.toNat := by
    rcases algFamily_tiger_cases htiger with ha | ha <;>
      exact ⟨_, fun tbe L => by unfold Ctx.final Ctx.withOutput; rw [ha]⟩
  obtain ⟨last, hlength, hlast⟩ := tigerFinal_eq_tigerOut pad c.passes.toNat c.cv.words64 c.buf c.bcount.toNat
  exact ⟨last, hlength, fun tbe L => (hpad tbe L).trans (hlast tbe L)⟩

end FinalState

/-- Settles O46: absorption commutes with a change of the output options, and the outputs are encodings of one final state. -/
theorem tigerOutputOptions : Obligations.TigerOutputOptions := by
  intro c tbe L msg htiger
  refine ⟨c.withOutput_absorbAll_cv tbe L msg, fun lf => ?_⟩
  obtain ⟨last, hlength, hfinal⟩ := Ctx.final_withOutput htiger lf
  have hown : ∀ L, ({ c with digestLen := L } : Ctx).final lf = tigerOut c.tbe L last := hfinal c.tbe
  have hbig : ({ c with tbe := true, digestLen := 24 } : Ctx).final lf = tigerOut true 24 last := hfinal true 24
  have hlittle : ({ c with tbe := false, digestLen := 24 } : Ctx).final lf = tigerOut false 24 last := hfinal false 24
  dsimp only
  rw [hown, hown, hbig, hlittle]
  exact ⟨fun hL => tigerOut_eq_take c.tbe hL last, length_tigerOut true 24 last hlength (Nat.le_refl 24),
    length_tigerOut false 24 last hlength (Nat.le_refl 24), fun w i hw hi => getD_tigerOut_bigEndian hlength hw hi⟩

end Sys2Proof.Machine
end

