-- ==== Sys2Proof/Proofs/Hmac.lean ====
section
/-! HMACINIT and the MAC (spec/44_hmac.md). The digest itself never reads the HMAC fields, so every hash that a keyed context runs is
the plain digest of its configuration: HMAC is the nested hash. What HMACINIT leaves rests on the key block, the requested length and what
INIT bound. -/

namespace Sys2Proof.Machine

section Unkeyed

variable {c d : Ctx}

/-- The context without its HMAC fields: what INIT bound, and the digest state (R39 to R44). -/
def Ctx.unkeyed (c : Ctx) : Ctx := { c with hmac := false, kipad := [], kopad := [], hlen := 0 }

/-- No strategy's Compress reads the HMAC fields (R140). -/
theorem Ctx.unkeyed_flush (c : Ctx) : c.unkeyed.flush = c.flush.unkeyed := rfl

theorem Ctx.unkeyed_push (c : Ctx) (b : Byte) : c.unkeyed.push b = (c.push b).unkeyed := rfl

theorem Ctx.unkeyed_flushDeferred (c : Ctx) : c.unkeyed.flushDeferred = c.flushDeferred.unkeyed := by
  rw [Ctx.flushDeferred, Ctx.unkeyed_flush]
  exact (apply_ite Ctx.unkeyed _ c.flush c).symm

theorem Ctx.unkeyed_flushFull (c : Ctx) : c.unkeyed.flushFull = c.flushFull.unkeyed := by
  rw [Ctx.flushFull, Ctx.unkeyed_flush]
  exact (apply_ite Ctx.unkeyed _ c.flush c).symm

theorem Ctx.unkeyed_absorb (c : Ctx) (b : Byte) : c.unkeyed.absorb b = (c.absorb b).unkeyed := by
  simp only [Ctx.absorb, Ctx.unkeyed_flushDeferred, Ctx.unkeyed_push, Ctx.unkeyed_flushFull]

/-- Absorption neither reads nor writes the HMAC fields (R143). -/
theorem Ctx.unkeyed_absorbAll (c : Ctx) (l : List Byte) : c.unkeyed.absorbAll l = (c.absorbAll l).unkeyed := by
  induction l generalizing c with
  | nil => rfl
  | cons b l ih => calc
      c.unkeyed.absorbAll (b :: l)
      _ = (c.unkeyed.absorb b).absorbAll l := rfl
      _ = (c.absorb b).unkeyed.absorbAll l := by rw [Ctx.unkeyed_absorb]
      _ = ((c.absorb b).absorbAll l).unkeyed := ih _

/-- No strategy's Final reads the HMAC fields (R140). -/
theorem Ctx.unkeyed_final (c : Ctx) (lf : LenField) : c.unkeyed.final lf = c.final lf := rfl

/-- Contexts that differ in the HMAC fields alone give the same natural output after the same input. -/
theorem Ctx.final_absorbAll_congr (h : c.unkeyed = d.unkeyed) (lf : LenField) (l : List Byte) :
    (c.absorbAll l).final lf = (d.absorbAll l).final lf := by
  rw [← Ctx.unkeyed_final, ← Ctx.unkeyed_absorbAll, h, Ctx.unkeyed_absorbAll, Ctx.unkeyed_final]

/-- A hash that starts from the plain reset is the plain digest, in HMAC mode too (R302, R306). -/
theorem Ctx.final_absorbAll_plainReset (c : Ctx) (lf : LenField) (l : List Byte) :
    (c.plainReset.absorbAll l).final lf = c.plainDigest lf l :=
  have hstart : c.plainReset.unkeyed = ({ c with hmac := false } : Ctx).plainReset.unkeyed := rfl
  Ctx.final_absorbAll_congr hstart lf l

/-- A context with the same configuration binds the same without its HMAC fields. -/
theorem Ctx.sameConfig.unkeyed (h : c.sameConfig d) : c.unkeyed.sameConfig d.unkeyed := by
  obtain ⟨hst, halg, hB, hL, htbe, hpasses, -⟩ := h
  exact ⟨hst, halg, hB, hL, htbe, hpasses, rfl, rfl, rfl, rfl⟩

/-- The plain digest rests on what INIT bound (R302). -/
theorem Ctx.plainDigest_congr (h : c.unkeyed.sameConfig d.unkeyed) (lf : LenField) : d.plainDigest lf = c.plainDigest lf := by
  funext l
  have hstart : ({ d with hmac := false } : Ctx).plainReset.unkeyed = ({ c with hmac := false } : Ctx).plainReset.unkeyed :=
    Ctx.reset_of_sameConfig h
  exact Ctx.final_absorbAll_congr hstart lf l

end Unkeyed

section KeyBlock

variable {c : Ctx} (lf : LenField)

/-- A key longer than B replaced by its plain digest (R300, R302). -/
def Ctx.shortKey (lf : LenField) (c : Ctx) (key : List Byte) : List Byte :=
  if c.blockLen < key.length then c.plainDigest lf key else key

/-- The key block is the short key filled with zeros (R300). -/
theorem Ctx.keyBlock_eq (c : Ctx) (key : List Byte) :
    c.keyBlock lf key = c.shortKey lf key ++ zeros (c.blockLen - (c.shortKey lf key).length) := rfl

/-- The short key fits into a block: L is at most B (R302). -/
theorem Ctx.wf.length_shortKey_le (hc : c.wf) (key : List Byte) : (c.shortKey lf key).length ≤ c.blockLen := by
  unfold Ctx.shortKey
  split
  · rw [hc.length_plainDigest]
    exact hc.digestLen_range.2
  · next hshort => exact Nat.le_of_not_lt hshort

/-- The short key of a long key's plain digest is that digest (R312). -/
theorem Ctx.wf.shortKey_plainDigest (hc : c.wf) {key : List Byte} (hlong : c.blockLen < key.length) :
    c.shortKey lf (c.plainDigest lf key) = c.shortKey lf key := by
  have hfits : ¬ c.blockLen < (c.plainDigest lf key).length := by
    rw [hc.length_plainDigest]
    exact Nat.not_lt_of_le hc.digestLen_range.2
  rw [Ctx.shortKey, if_neg hfits, Ctx.shortKey, if_pos hlong]

/-- A byte past the end reads as 0 whether zeros stand there or nothing does. -/
theorem getD_append_zeros (l : List Byte) (n j : Nat) : (l ++ zeros n).getD j 0 = l.getD j 0 := by
  simp only [zeros, List.getD_eq_getElem?_getD, List.getElem?_append, List.getElem?_replicate]
  by_cases hj : j < l.length
  · rw [if_pos hj]
  · rw [if_neg hj, List.getElem?_eq_none (Nat.le_of_not_lt hj)]
    split <;> rfl

/-- A byte of a pad: the byte of the short key, or 0 past its end, against the pad's constant (R300). -/
theorem Ctx.wf.getD_pad (hc : c.wf) (key : List Byte) (v : Byte) {j : Nat} (hj : j < c.blockLen) :
    ((c.keyBlock lf key).map (· ^^^ v)).getD j 0 = (c.shortKey lf key).getD j 0 ^^^ v := by
  have hin : j < (c.keyBlock lf key).length := hc.length_keyBlock lf key ▸ hj
  rw [← getD_append_zeros (c.shortKey lf key) (c.blockLen - (c.shortKey lf key).length), ← Ctx.keyBlock_eq,
    List.getD_eq_getElem?_getD, List.getD_eq_getElem?_getD, List.getElem?_map, List.getElem?_eq_getElem hin]
  rfl

end KeyBlock

section Keyed

variable {c d : Ctx} (lf : LenField) (key : List Byte) (n : Nat)

/-- The context with the HMAC fields for a key block and an output length (R300). -/
def Ctx.keyed (c : Ctx) (k0 : List Byte) (hlen : Nat) : Ctx :=
  { c with kipad := k0.map (· ^^^ 0x36), kopad := k0.map (· ^^^ 0x5C), hlen := hlen, hmac := true }

/-- The plain digest does not read the HMAC fields (R302). -/
theorem Ctx.plainDigest_keyed (c : Ctx) (k0 : List Byte) (hlen : Nat) : (c.keyed k0 hlen).plainDigest lf = c.plainDigest lf :=
  Ctx.plainDigest_congr (c := c) (d := c.keyed k0 hlen) (Ctx.sameConfig_refl c.unkeyed) lf

/-- HMACINIT binds the pads and the length, and then resets (R300). -/
theorem Ctx.hmacKeyed_eq_reset (c : Ctx) : c.hmacKeyed lf key n = (c.keyed (c.keyBlock lf key) (c.hmacOutLen n)).reset := rfl

/-- The configuration that HMACINIT leaves (R146, R300). -/
theorem Ctx.hmacKeyed_config (c : Ctx) : (c.keyed (c.keyBlock lf key) (c.hmacOutLen n)).sameConfig (c.hmacKeyed lf key n) :=
  Ctx.reset_config _

theorem Ctx.st_hmacKeyed (c : Ctx) : (c.hmacKeyed lf key n).st = c.st := (c.hmacKeyed_config lf key n).1

/-- The HMAC fields of a keyed context, whatever it has absorbed (R143, R300). -/
theorem Ctx.fields_hmacKeyed_absorbAll (c : Ctx) (msg : List Byte) :
    let d := (c.hmacKeyed lf key n).absorbAll msg
    d.hmac = true ∧ d.kipad = (c.keyBlock lf key).map (· ^^^ 0x36) ∧ d.kopad = (c.keyBlock lf key).map (· ^^^ 0x5C) ∧
      d.hlen = c.hmacOutLen n := by
  obtain ⟨-, -, -, -, -, -, hfields⟩ := Ctx.sameConfig_trans (c.hmacKeyed_config lf key n) (Ctx.absorbAll_config _ msg)
  exact hfields

/-- A keyed context is freshly reset: it has absorbed its inner pad and nothing else (R300, R304). -/
theorem Ctx.hmacKeyed_eq_absorbAll (c : Ctx) :
    let d := c.hmacKeyed lf key n
    d = ({ d with cv := algIv c.alg, buf := [], bcount := 0 } : Ctx).absorbAll d.kipad := by
  have hreset : (c.hmacKeyed lf key n).reset = c.hmacKeyed lf key n := Ctx.reset_of_sameConfig (c.hmacKeyed_config lf key n)
  have halg : (c.hmacKeyed lf key n).alg = c.alg := (c.hmacKeyed_config lf key n).2.1
  have hhmac : (c.hmacKeyed lf key n).hmac = true := (c.fields_hmacKeyed_absorbAll lf key n []).1
  rw [Ctx.reset, if_pos hhmac] at hreset
  dsimp only
  rw [← halg]
  exact hreset.symm

/-- What HMACINIT leaves rests on the key, the requested length and what INIT bound (R309, R313). -/
theorem Ctx.hmacKeyed_congr (h : c.unkeyed.sameConfig d.unkeyed) : d.hmacKeyed lf key n = c.hmacKeyed lf key n := by
  have hdigest := Ctx.plainDigest_congr h lf
  obtain ⟨hst, halg, hB, hL, htbe, hpasses, -⟩ := h
  have hblock : d.keyBlock lf key = c.keyBlock lf key := by
    simp only [Ctx.keyBlock, hdigest, show d.blockLen = c.blockLen from hB]
  have hlen : d.hmacOutLen n = c.hmacOutLen n := by
    simp only [Ctx.hmacOutLen, show d.digestLen = c.digestLen from hL]
  rw [Ctx.hmacKeyed_eq_reset, Ctx.hmacKeyed_eq_reset, hblock, hlen]
  exact Ctx.reset_of_sameConfig ⟨hst, halg, hB, hL, htbe, hpasses, rfl, rfl, rfl, rfl⟩

/-- Keying with a long key and keying with its plain digest are the same (R312). -/
theorem Ctx.wf.hmacKeyed_plainDigest (hc : c.wf) (hlong : c.blockLen < key.length) :
    c.hmacKeyed lf (c.plainDigest lf key) n = c.hmacKeyed lf key n := by
  rw [Ctx.hmacKeyed_eq_reset, Ctx.hmacKeyed_eq_reset, Ctx.keyBlock_eq, Ctx.keyBlock_eq, hc.shortKey_plainDigest lf hlong]

/-- The inner hash: the natural output of a keyed context after a message is H(kipad || message) (R300, R304). -/
theorem Ctx.final_hmacKeyed_absorbAll (c : Ctx) (msg : List Byte) :
    ((c.hmacKeyed lf key n).absorbAll msg).final lf = c.plainDigest lf ((c.keyBlock lf key).map (· ^^^ 0x36) ++ msg) := calc
  ((c.hmacKeyed lf key n).absorbAll msg).final lf
  _ = (((c.keyed (c.keyBlock lf key) (c.hmacOutLen n)).plainReset.absorbAll
        ((c.keyBlock lf key).map (· ^^^ 0x36))).absorbAll msg).final lf := rfl
  _ = (c.keyed (c.keyBlock lf key) (c.hmacOutLen n)).plainDigest lf ((c.keyBlock lf key).map (· ^^^ 0x36) ++ msg) := by
    rw [← Ctx.absorbAll_append, Ctx.final_absorbAll_plainReset]
  _ = c.plainDigest lf ((c.keyBlock lf key).map (· ^^^ 0x36) ++ msg) := by rw [Ctx.plainDigest_keyed]

/-- Finalize in HMAC mode is the outer hash over the inner one, cut to hlen (R306). -/
theorem Ctx.finalize_hmac (h : c.hmac = true) : c.finalize lf = (c.plainDigest lf (c.kopad ++ c.final lf)).take c.hlen := by
  rw [Ctx.finalize, if_pos h, ← Ctx.final_absorbAll_plainReset, Ctx.absorbAll_append]
  rfl

/-- The MAC of a message is the nested hash H(kopad || H(kipad || message)) cut to hlen bytes (R300, R306). -/
theorem Ctx.finalize_hmacKeyed_absorbAll (c : Ctx) (msg : List Byte) :
    ((c.hmacKeyed lf key n).absorbAll msg).finalize lf =
      (c.plainDigest lf ((c.keyBlock lf key).map (· ^^^ 0x5C) ++
        c.plainDigest lf ((c.keyBlock lf key).map (· ^^^ 0x36) ++ msg))).take (c.hmacOutLen n) := by
  have hconfig := Ctx.sameConfig_trans (c.hmacKeyed_config lf key n) (Ctx.absorbAll_config _ msg)
  have hplain : ((c.hmacKeyed lf key n).absorbAll msg).plainDigest lf = c.plainDigest lf :=
    (Ctx.plainDigest_congr hconfig.unkeyed lf).trans (Ctx.plainDigest_keyed lf c _ _)
  obtain ⟨hhmac, -, hkopad, hhlen⟩ := c.fields_hmacKeyed_absorbAll lf key n msg
  rw [Ctx.finalize_hmac lf hhmac, hplain, hkopad, hhlen, Ctx.final_hmacKeyed_absorbAll]

/-- The natural length of a keyed context is hlen, whatever it has absorbed (R142, R308). -/
theorem Ctx.natLen_hmacKeyed_absorbAll (c : Ctx) (msg : List Byte) :
    ((c.hmacKeyed lf key n).absorbAll msg).natLen = c.hmacOutLen n := by
  obtain ⟨hhmac, -, -, hhlen⟩ := c.fields_hmacKeyed_absorbAll lf key n msg
  rw [Ctx.natLen, if_pos hhmac, hhlen]

end Keyed

section Commands

variable {s : State} {x y : BitVec 4} {imm : BitVec 16}

/-- The key that HMACINIT reads (R300). -/
abbrev State.hmacKey (s : State) : List Byte := s.memRead s.a0.toNat s.a1.toNat

theorem State.shortKey_hmacKey (s : State) (c : Ctx) (lf : LenField) :
    c.shortKey lf s.hmacKey = if c.blockLen < s.a1.toNat then c.plainDigest lf s.hmacKey else s.hmacKey := by
  rw [Ctx.shortKey, State.length_memRead]

/-- The state after HMACINIT on slot k, its checks passed (R300). -/
def State.afterHmacinit (s : State) (k : Nat) : State :=
  (s.setCtx k ((s.ctx k).hmacKeyed s.platform.lenField s.hmacKey s.a3.toNat)).finish

theorem State.ctx_afterHmacinit {k : Nat} (hk : k < s.nctx) :
    (s.afterHmacinit k).ctx k = (s.ctx k).hmacKeyed s.platform.lenField s.hmacKey s.a3.toNat :=
  s.ctx_setCtx_same hk _

/-- HMACINIT on a READY context keys it, if the key window is in bounds (R300). -/
theorem exec_hmacinit_of_wellFormed (hwf : (Instr.hmacinit x y imm).wellFormed s.nctx s.ncrc = true)
    (hready : (s.ctx x.toNat).st = .ready) (hin : s.a0.toNat + s.a1.toNat ≤ s.platform.dmemSize) :
    exec (.hmacinit x y imm) s = .next (s.afterHmacinit x.toNat) :=
  congrArg Host.Outcome.next
    ((s.checked_ready hwf hready _).trans (s.windowed_in ((s.inBounds_iff _ _).2 hin) _))

/-- The same for the word that the host issues, with Y = 0 and IMM = 0. -/
theorem exec_hmacinit_ready (hx : x.toNat < s.nctx) (hready : (s.ctx x.toNat).st = .ready)
    (hin : s.a0.toNat + s.a1.toNat ≤ s.platform.dmemSize) : exec (.hmacinit x 0 0) s = .next (s.afterHmacinit x.toNat) :=
  exec_hmacinit_of_wellFormed (by simpa [Instr.wellFormed] using hx) hready hin

/-- A message that follows HMACINIT is absorbed into the keyed context (R300, R304). -/
theorem State.absorbChunks_afterHmacinit {cs : List Chunk} (hx : x.toNat < s.nctx) (hready : (s.ctx x.toNat).st = .ready)
    (hok : ∀ c ∈ cs, s.chunkOk c = true) :
    ∃ t, State.absorbChunks x cs (s.afterHmacinit x.toNat) = .next t ∧ t.nctx = s.nctx ∧ t.platform = s.platform ∧
      t.ctx x.toNat =
        ((s.ctx x.toNat).hmacKeyed s.platform.lenField s.hmacKey s.a3.toNat).absorbAll (cs.flatMap s.chunkBytes) := by
  have hctx := State.ctx_afterHmacinit hx
  have hnctx : (s.afterHmacinit x.toNat).nctx = s.nctx := s.setCtx_nctx _ _
  have hready' : ((s.afterHmacinit x.toNat).ctx x.toNat).st = .ready := by
    rw [hctx]
    exact (Ctx.st_hmacKeyed _ _ _ _).trans hready
  have hbytes : (s.afterHmacinit x.toNat).chunkBytes = s.chunkBytes := State.chunkBytes_congr fun _ => rfl
  obtain ⟨t, ht, habsorbs⟩ := State.absorbChunks_absorbs (hnctx.symm ▸ hx) hready' hok
  exact ⟨t, ht, habsorbs.others.1.trans hnctx, habsorbs.platform, by rw [habsorbs.ctx_eq, hctx, hbytes]⟩

@[simp] theorem State.withA2_nctx (s : State) (d : Word64) : (s.withA2 d).nctx = s.nctx := rfl
@[simp] theorem State.withA2_ctx (s : State) (d : Word64) (k : Nat) : (s.withA2 d).ctx k = s.ctx k := rfl
@[simp] theorem State.withA2_platform (s : State) (d : Word64) : (s.withA2 d).platform = s.platform := rfl

/-- DIGEST to a window in bounds writes the whole output, and its length to RESULT (R142, R150). -/
theorem exec_digest_output {d : Word64} (hx : x.toNat < s.nctx) (hready : (s.ctx x.toNat).st = .ready) (hc : (s.ctx x.toNat).wf)
    (hin : d.toNat + (s.ctx x.toNat).natLen ≤ s.platform.dmemSize) :
    ∃ t, exec (.digest x 0 0) (s.withA2 d) = .next t ∧ t.err = .ok ∧
      t.memRead d.toNat (s.ctx x.toNat).natLen = (s.ctx x.toNat).finalize s.platform.lenField ∧
      t.result = BitVec.ofNat 64 (s.ctx x.toNat).natLen := by
  have hwf : (Instr.digest x 0 0).wellFormed (s.withA2 d).nctx (s.withA2 d).ncrc = true := by simp [Instr.wellFormed, hx]
  have hlen := hc.length_finalize s.platform.lenField
  refine ⟨_, (exec_digest_of_wellFormed hwf hready).trans (congrArg _ (State.digestInto_in hin)), rfl, ?_, rfl⟩
  rw [State.finish_memRead, State.setResult_memRead, State.withA2_ctx, State.withA2_platform,
    List.take_of_length_le (Nat.le_of_eq hlen), ← hlen]
  exact State.memRead_memWrite_same _ _ _

end Commands

/-- Settles O49: the pads byte by byte from the key block, and the inner state from CtxReset, which a keyed context is left in. -/
theorem hmacinitCompletes : Obligations.HmacinitCompletes := by
  intro s x y imm hwf hready hc hin
  obtain ⟨t, hruns, hctx, hframe⟩ :=
    exec_slot_completes (exec_hmacinit_of_wellFormed hwf hready hin) (State.lt_nctx_of_ctxField hwf) rfl rfl rfl rfl
  have hblock := hc.length_keyBlock s.platform.lenField s.hmacKey
  obtain ⟨hst, halg, hB, hL, htbe, hpasses, hhmac, hkipad, hkopad, hhlen⟩ :=
    (s.ctx x.toNat).hmacKeyed_config s.platform.lenField s.hmacKey s.a3.toNat
  refine ⟨t, hruns, ?_, hframe⟩
  dsimp only
  rw [hctx, ← State.shortKey_hmacKey]
  refine ⟨hc.length_shortKey_le _ _, ?_, ?_, fun j hj => ⟨?_, ?_⟩, hhlen, hhmac, Ctx.hmacKeyed_eq_absorbAll _ _ _ _,
    hst.trans hready, halg, hB, hL, htbe, hpasses⟩
  · rw [hkipad]
    exact (List.length_map _).trans hblock
  · rw [hkopad]
    exact (List.length_map _).trans hblock
  · rw [hkipad]
    exact hc.getD_pad _ _ _ hj
  · rw [hkopad]
    exact hc.getD_pad _ _ _ hj

/-- Settles O50: the pieces are absorbed into the keyed context as one message, and its Finalize is the nested hash. -/
theorem hmacIsNestedHash : Obligations.HmacIsNestedHash := by
  intro s x cs d hx hready hc hin hok hout
  obtain ⟨t, habsorb, hnctx, hplatform, hctx⟩ := State.absorbChunks_afterHmacinit hx hready hok
  have hready' : (t.ctx x.toNat).st = .ready := by
    rw [hctx]
    exact (Ctx.absorbAll_config _ _).1.trans ((Ctx.st_hmacKeyed _ _ _ _).trans hready)
  have hc' : (t.ctx x.toNat).wf := hctx ▸ (hc.hmacKeyed _ _ _).absorbAll _
  have hnatLen : (t.ctx x.toNat).natLen = (s.ctx x.toNat).hmacOutLen s.a3.toNat := by rw [hctx, Ctx.natLen_hmacKeyed_absorbAll]
  obtain ⟨u, hdigest, herr, hmac, hresult⟩ :=
    exec_digest_output (hnctx.symm ▸ hx) hready' hc' (by rw [hnatLen, hplatform]; exact hout)
  refine ⟨_, t, u, exec_hmacinit_ready hx hready hin, habsorb, hdigest, herr, ?_, by rw [hresult, hnatLen]⟩
  rw [← hnatLen, hmac, hctx, hplatform, Ctx.finalize_hmacKeyed_absorbAll, Ctx.natLen_hmacKeyed_absorbAll]

/-- Settles O51: HMACINIT keys with the digest of a long key in place of the key. -/
theorem hmacLongKey : Obligations.HmacLongKey := by
  intro s s' x hx hnctx hplatform hctx ha3 hready hc hlong hin hin' hkey
  have hexec := exec_hmacinit_ready hx hready hin
  have hexec' := exec_hmacinit_ready (s := s') (hnctx ▸ hx) (hctx ▸ hready) (hplatform ▸ hin')
  have hsame : (s'.afterHmacinit x.toNat).ctx x.toNat = (s.afterHmacinit x.toNat).ctx x.toNat := by
    rw [State.ctx_afterHmacinit (hnctx ▸ hx), State.ctx_afterHmacinit hx, hctx, hplatform, ha3, State.hmacKey, hkey]
    exact hc.hmacKeyed_plainDigest _ _ _ (by rwa [State.length_memRead])
  exact ⟨_, _, hexec, hexec', rfl, rfl, hsame, fun msg => by rw [hsame]⟩

/-- Settles O52: the two contexts agree in what INIT bound. -/
theorem hmacCleanStart : Obligations.HmacCleanStart := by
  intro s s' x hx hnctx hplatform ha3 hready hready' halg hB hL htbe hpasses hin hin' hkey
  have hexec := exec_hmacinit_ready hx hready hin
  have hexec' := exec_hmacinit_ready (s := s') (hnctx ▸ hx) hready' (hplatform ▸ hin')
  have hbound : (s.ctx x.toNat).unkeyed.sameConfig (s'.ctx x.toNat).unkeyed :=
    ⟨hready'.trans hready.symm, halg, hB, hL, htbe, hpasses, rfl, rfl, rfl, rfl⟩
  refine ⟨_, _, hexec, hexec', rfl, rfl, ?_⟩
  rw [State.ctx_afterHmacinit (hnctx ▸ hx), State.ctx_afterHmacinit hx, hplatform, ha3, State.hmacKey, hkey]
  exact Ctx.hmacKeyed_congr _ _ _ hbound

end Sys2Proof.Machine
end

