-- ==== Sys2Proof/Proofs/CrcPaths.lean ====
section
/-! The two CRC paths agree (R340). A bit-serial step is linear in the register and the bit together, so a register and a byte fold to what
their parts fold to. Fed with its own top bits a register only shifts; what is left of the byte then meets the register 0, and that is the
table's entry. -/

namespace Sys2Proof.Machine

section BitSerial

/-- The bits of the mask are those below the width (R336). -/
theorem getLsbD_crcMask {w : Nat} (hw : w ≤ 82) (i : Nat) : (crcMask w).getLsbD i = decide (i < w) := by
  rw [crcMask, BitVec.getLsbD_ofNat, Nat.testBit_two_pow_sub_one]
  by_cases hi : i < w
  · simp [hi, Nat.lt_of_lt_of_le hi hw]
  · simp [hi]

/-- A value within n bits has no bit from n up. -/
theorem getLsbD_of_toNat_lt {m n i : Nat} {v : BitVec m} (hv : v.toNat < 2 ^ n) (hi : n ≤ i) : v.getLsbD i = false :=
  Nat.testBit_lt_two_pow (Nat.lt_of_lt_of_le hv (Nat.pow_le_pow_right Nat.two_pos hi))

/-- Masking leaves a value within the width as it is. -/
theorem and_crcMask_of_lt {w : Nat} (hw : w ≤ 82) {v : CrcWord} (hv : v.toNat < 2 ^ w) : v &&& crcMask w = v := by
  refine BitVec.eq_of_getLsbD_eq fun i _ => ?_
  rw [BitVec.getLsbD_and, getLsbD_crcMask hw]
  by_cases hi : i < w
  · simp [hi]
  · simp [hi, getLsbD_of_toNat_lt hv (Nat.le_of_not_lt hi)]

/-- The bit-serial step as the shifted register and the feedback (R334). -/
theorem crcBitStep_eq_xor (w : Nat) (poly r : CrcWord) (b : Bool) :
    crcBitStep w poly r b = ((r <<< 1) &&& crcMask w) ^^^ if Bool.xor (r.getLsbD (w - 1)) b then poly else 0 := by
  unfold crcBitStep
  split <;> simp

/-- The bit-serial step is linear (R334). -/
theorem crcBitStep_xor (w : Nat) (poly r r' : CrcWord) (b b' : Bool) :
    crcBitStep w poly (r ^^^ r') (Bool.xor b b') = crcBitStep w poly r b ^^^ crcBitStep w poly r' b' := by
  have hbit : Bool.xor ((r ^^^ r').getLsbD (w - 1)) (Bool.xor b b') =
      Bool.xor (Bool.xor (r.getLsbD (w - 1)) b) (Bool.xor (r'.getLsbD (w - 1)) b') := by
    simp only [BitVec.getLsbD_xor, Bool.xor_assoc, Bool.xor_left_comm]
  have hshift : ((r ^^^ r') <<< 1) &&& crcMask w = ((r <<< 1) &&& crcMask w) ^^^ ((r' <<< 1) &&& crcMask w) := by
    refine BitVec.eq_of_getLsbD_eq fun i _ => ?_
    simp only [BitVec.shiftLeft_xor_distrib, BitVec.getLsbD_and, BitVec.getLsbD_xor, Bool.and_xor_distrib_right]
  have hpoly : ∀ f f' : Bool, (if Bool.xor f f' then poly else 0) = (if f then poly else 0) ^^^ if f' then poly else 0 := by
    intro f f'
    cases f <;> cases f' <;> simp
  rw [crcBitStep_eq_xor, crcBitStep_eq_xor, crcBitStep_eq_xor, hbit, hshift, hpoly]
  ac_rfl

/-- The bit-serial byte step is linear (R334). -/
theorem crcByte_xor (w : Nat) (poly r r' : CrcWord) (b b' : Byte) :
    crcByte w poly false (r ^^^ r') (b ^^^ b') = crcByte w poly false r b ^^^ crcByte w poly false r' b' := by
  simp only [crcByte, byteBits, Bool.false_eq_true, if_false, List.foldl_cons, List.foldl_nil, BitVec.getLsbD_xor, crcBitStep_xor]

/-- REFIN reflects the byte before the byte step (R334). -/
theorem crcByte_refin (w : Nat) (poly : CrcWord) (refin : Bool) (r : CrcWord) (b : Byte) :
    crcByte w poly refin r b = crcByte w poly false r (if refin then reflect b 8 else b) := by
  cases refin <;> rfl

/-- The top eight bits of a register, as the byte whose bit 7 is the register's top bit; a narrower register is followed by zeros. -/
def crcTopByte (w : Nat) (r : CrcWord) : Byte := reflect ((reflect r w).setWidth 8) 8

theorem getLsbD_crcTopByte {w : Nat} (hw : w ≤ 82) (r : CrcWord) {i : Nat} (hi : i < 8) :
    (crcTopByte w r).getLsbD i = (decide (7 - i < w) && r.getLsbD (w - 1 - (7 - i))) := by
  rw [crcTopByte, getLsbD_reflect _ _ _ (Nat.le_refl 8), BitVec.getLsbD_setWidth, getLsbD_reflect _ _ _ hw]
  simp [hi, show 7 - i < 8 by omega]

/-- A register fed with its own top bit shifts, without feedback. -/
theorem crcBitStep_top {w : Nat} (hw : w ≤ 82) (poly r : CrcWord) (k : Nat) :
    crcBitStep w poly ((r <<< k) &&& crcMask w) (decide (k < w) && r.getLsbD (w - 1 - k)) = (r <<< (k + 1)) &&& crcMask w := by
  have htop : ((r <<< k) &&& crcMask w).getLsbD (w - 1) = (decide (k < w) && r.getLsbD (w - 1 - k)) := by
    rw [BitVec.getLsbD_and, BitVec.getLsbD_shiftLeft, getLsbD_crcMask hw]
    by_cases hk : k < w
    · simp [hk, show w - 1 < 82 by omega, show ¬ w - 1 < k by omega, show w - 1 < w by omega]
    · by_cases h0 : w = 0
      · simp [h0]
      · simp [hk, show w - 1 < k by omega]
  have hstep : crcBitStep w poly ((r <<< k) &&& crcMask w) (decide (k < w) && r.getLsbD (w - 1 - k)) =
      ((((r <<< k) &&& crcMask w) <<< 1) &&& crcMask w) := by simp [crcBitStep, htop]
  rw [hstep]
  refine BitVec.eq_of_getLsbD_eq fun i hi => ?_
  simp only [BitVec.getLsbD_and, BitVec.getLsbD_shiftLeft, getLsbD_crcMask hw]
  by_cases hiw : i < w
  · cases i with
    | zero => simp
    | succ i => simp [hiw, hi, show i < w by omega, show i < 82 by omega]
  · simp [hiw]

/-- A register fed with its own top byte shifts by eight bits, without feedback. -/
theorem crcByte_topByte {w : Nat} (hw : w ≤ 82) (poly : CrcWord) {r : CrcWord} (hr : r.toNat < 2 ^ w) :
    crcByte w poly false r (crcTopByte w r) = (r <<< 8) &&& crcMask w := by
  have hstart : r = (r <<< 0) &&& crcMask w := by rw [BitVec.shiftLeft_zero, and_crcMask_of_lt hw hr]
  have hbits : byteBits (crcTopByte w r) = (List.range 8).map fun k => decide (k < w) && r.getLsbD (w - 1 - k) := by
    simp only [byteBits, getLsbD_crcTopByte hw, Nat.reduceLT, Nat.reduceSub]
    rfl
  have hfold : ∀ n, ((List.range n).map fun k => decide (k < w) && r.getLsbD (w - 1 - k)).foldl (crcBitStep w poly) r =
      (r <<< n) &&& crcMask w := by
    intro n
    induction n with
    | zero => exact hstart
    | succ n ih => rw [List.range_succ, List.map_append, List.foldl_append, ih]; exact crcBitStep_top hw poly r n
  rw [crcByte, if_neg Bool.false_ne_true, hbits, hfold]

/-- The byte step by way of the register 0: the register shifted by eight bits, and what the byte and the register's top bits make of 0. -/
theorem crcByte_eq_zero_step {w : Nat} (hw : w ≤ 82) (poly : CrcWord) {r : CrcWord} (hr : r.toNat < 2 ^ w) (b : Byte) :
    crcByte w poly false r b = ((r <<< 8) &&& crcMask w) ^^^ crcByte w poly false 0 (crcTopByte w r ^^^ b) := by
  have hb : b = crcTopByte w r ^^^ (crcTopByte w r ^^^ b) := by rw [← BitVec.xor_assoc, BitVec.xor_self, BitVec.zero_xor]
  calc crcByte w poly false r b
      = crcByte w poly false (r ^^^ 0) (crcTopByte w r ^^^ (crcTopByte w r ^^^ b)) := by
        rw [← hb]; exact congrArg (crcByte w poly false · b) BitVec.xor_zero.symm
    _ = _ := by rw [crcByte_xor, crcByte_topByte hw poly hr]

end BitSerial

section TableDriven

/-- Entry j of the table of R335. -/
theorem wordAt_crcTable (w : Nat) (poly : CrcWord) (refin : Bool) {j : Nat} (hj : j < 256) :
    wordAt (crcTable w poly refin) j =
      if refin then reflect (crcByte w poly false 0 (reflect (BitVec.ofNat 8 j) 8)) w
      else crcByte w poly false 0 (BitVec.ofNat 8 j) := by
  simp [wordAt, crcTable, hj]

/-- The table entry that a value indexes is that of its low byte (R335, R336). -/
theorem wordAt_crcTable_crcIndex (w : Nat) (poly : CrcWord) (refin : Bool) (v : CrcWord) :
    wordAt (crcTable w poly refin) (crcIndex v) =
      if refin then reflect (crcByte w poly false 0 (reflect (v.setWidth 8) 8)) w else crcByte w poly false 0 (v.setWidth 8) := by
  have hindex : crcIndex v = (v.setWidth 8).toNat := by
    rw [crcIndex, BitVec.toNat_and, BitVec.toNat_setWidth]
    exact Nat.and_two_pow_sub_one_eq_mod v.toNat 8
  rw [hindex, wordAt_crcTable w poly refin (v.setWidth 8).isLt, BitVec.ofNat_toNat, BitVec.setWidth_eq]

/-- Reflection twice is the value (R21). -/
theorem reflect_reflect {m n : Nat} (hn : n ≤ m) {v : BitVec m} (hv : v.toNat < 2 ^ n) : reflect (reflect v n) n = v := by
  refine BitVec.eq_of_getLsbD_eq fun i _ => ?_
  rw [getLsbD_reflect _ _ _ hn, getLsbD_reflect _ _ _ hn]
  by_cases hi : i < n
  · simp [hi, show n - 1 - i < n by omega, show n - 1 - (n - 1 - i) = i by omega]
  · simp [hi, getLsbD_of_toNat_lt hv (Nat.le_of_not_lt hi)]

theorem reflect_xor {m n : Nat} (hn : n ≤ m) (v v' : BitVec m) : reflect (v ^^^ v') n = reflect v n ^^^ reflect v' n := by
  refine BitVec.eq_of_getLsbD_eq fun i _ => ?_
  rw [BitVec.getLsbD_xor, getLsbD_reflect _ _ _ hn, getLsbD_reflect _ _ _ hn, getLsbD_reflect _ _ _ hn, BitVec.getLsbD_xor,
    Bool.and_xor_distrib_left]

/-- A reflected register shifted down is the register shifted up (R336). -/
theorem reflect_ushiftRight_reflect {w : Nat} (hw : w ≤ 82) (r : CrcWord) :
    reflect ((reflect r w) >>> 8) w = (r <<< 8) &&& crcMask w := by
  refine BitVec.eq_of_getLsbD_eq fun i hi => ?_
  rw [getLsbD_reflect _ _ _ hw, BitVec.getLsbD_ushiftRight, getLsbD_reflect _ _ _ hw, BitVec.getLsbD_and, BitVec.getLsbD_shiftLeft,
    getLsbD_crcMask hw]
  by_cases hiw : i < w
  · by_cases h8 : i < 8
    · simp [h8, show ¬ 8 + (w - 1 - i) < w by omega]
    · simp [hiw, hi, h8, show 8 + (w - 1 - i) < w by omega, show w - 1 - (8 + (w - 1 - i)) = i - 8 by omega]
  · simp [hiw]

/-- The index into the table, in a unit that does not reflect its input: the register's top bits and the byte (R336). -/
theorem setWidth_index {w : Nat} (hw : w ≤ 82) (r : CrcWord) (b : Byte) :
    (if 8 ≤ w then (r >>> (w - 8)) ^^^ b.setWidth 82 else b.setWidth 82 ^^^ (r <<< (8 - w))).setWidth 8 = crcTopByte w r ^^^ b := by
  refine BitVec.eq_of_getLsbD_eq fun i hi => ?_
  rw [BitVec.getLsbD_xor, getLsbD_crcTopByte hw r hi]
  split
  · next h8 => simp [hi, show i < 82 by omega, show 7 - i < w by omega, show w - 1 - (7 - i) = w - 8 + i by omega]
  · next h8 =>
    by_cases hiw : 7 - i < w
    · simp [hi, hiw, show ¬ i < 8 - w by omega, show w - 1 - (7 - i) = i - (8 - w) by omega, Bool.xor_comm]
    · simp [hi, hiw, show i < 8 - w by omega]

/-- The index into the table, in a unit that reflects its input: the register's top bits and the byte, reflected (R336). -/
theorem reflect_setWidth_index (w : Nat) (r : CrcWord) (b : Byte) :
    reflect ((reflect r w ^^^ b.setWidth 82).setWidth 8) 8 = crcTopByte w r ^^^ reflect b 8 := by
  have hbyte : (b.setWidth 82).setWidth 8 = b := by simp
  rw [BitVec.setWidth_xor, hbyte, reflect_xor (Nat.le_refl 8), crcTopByte]

/-- A register of fewer than eight bits has nothing left after a shift by eight. -/
theorem shiftLeft_and_crcMask_narrow {w : Nat} (h8 : w < 8) (r : CrcWord) : (r <<< 8) &&& crcMask w = 0 := by
  refine BitVec.eq_of_getLsbD_eq fun i _ => ?_
  rw [BitVec.getLsbD_and, BitVec.getLsbD_shiftLeft, getLsbD_crcMask (by omega)]
  by_cases hi : i < 8
  · simp [hi]
  · simp [show ¬ i < w by omega]

/-- The table-driven byte step of a unit that does not reflect its input (R336). -/
theorem crcByteT_plain {w : Nat} (hw : w ≤ 82) (poly r : CrcWord) (b : Byte) :
    crcByteT w false (crcTable w poly false) r b = ((r <<< 8) &&& crcMask w) ^^^ crcByte w poly false 0 (crcTopByte w r ^^^ b) := by
  have hindex := setWidth_index hw r b
  simp only [crcByteT, Bool.false_eq_true, if_false, wordAt_crcTable_crcIndex]
  by_cases h8 : 8 ≤ w
  · rw [if_pos h8] at hindex
    rw [if_pos h8, hindex]
  · rw [if_neg h8] at hindex
    rw [if_neg h8, hindex, shiftLeft_and_crcMask_narrow (Nat.lt_of_not_le h8)]
    exact BitVec.zero_xor.symm

/-- The table-driven byte step of a unit that reflects its input (R336). -/
theorem crcByteT_reflected {w : Nat} (hw : w ≤ 82) {poly : CrcWord} (hp : poly.toNat < 2 ^ w) (r : CrcWord) (b : Byte) :
    crcByteT w true (crcTable w poly true) r b =
      ((r <<< 8) &&& crcMask w) ^^^ crcByte w poly false 0 (crcTopByte w r ^^^ reflect b 8) := by
  have hentry : ∀ c : Byte, reflect (reflect (crcByte w poly false 0 c) w) w = crcByte w poly false 0 c := fun c =>
    reflect_reflect hw (crcByte_lt hw hp (reg := 0) (Nat.two_pow_pos w) false c)
  simp only [crcByteT, if_true, wordAt_crcTable_crcIndex, reflect_setWidth_index]
  by_cases h8 : 8 ≤ w
  · rw [if_pos h8, reflect_xor hw, reflect_ushiftRight_reflect hw, hentry]
  · rw [if_neg h8, hentry, shiftLeft_and_crcMask_narrow (Nat.lt_of_not_le h8)]
    exact BitVec.zero_xor.symm

/-- The two byte steps agree on every register within the width (R340). -/
theorem crcByteT_eq_crcByte {w : Nat} (hw : w ≤ 82) {poly r : CrcWord} (hp : poly.toNat < 2 ^ w) (hr : r.toNat < 2 ^ w)
    (refin : Bool) (b : Byte) : crcByteT w refin (crcTable w poly refin) r b = crcByte w poly refin r b := by
  rw [crcByte_refin, crcByte_eq_zero_step hw poly hr]
  cases refin with
  | false => exact crcByteT_plain hw poly r b
  | true => exact crcByteT_reflected hw hp r b

end TableDriven

section Paths

variable {u : CrcUnit}

/-- Both paths fold a byte alike into a register of the unit's width (R340). -/
theorem CrcUnit.wf.step_eq (h : u.wf) (serial : Bool) {r : CrcWord} (hr : r.toNat < 2 ^ u.width) (b : Byte) :
    u.step serial r b = crcByte u.width u.poly u.refin r b := by
  cases serial with
  | false =>
    rw [CrcUnit.step, if_neg Bool.false_ne_true, h.table_eq]
    exact crcByteT_eq_crcByte h.width_le h.poly_lt hr _ _
  | true => rfl

/-- Both paths fold a byte sequence alike (R340). -/
theorem CrcUnit.wf.feed_eq (h : u.wf) (serial : Bool) (l : List Byte) : u.feed serial l = u.feed true l := by
  have hfold : ∀ (l : List Byte) (r : CrcWord), r.toNat < 2 ^ u.width → l.foldl (u.step serial) r = l.foldl (u.step true) r := by
    intro l
    induction l with
    | nil => exact fun _ _ => rfl
    | cons b l ih =>
      intro r hr
      rw [List.foldl_cons, List.foldl_cons, h.step_eq serial hr, h.step_eq true hr]
      exact ih _ (crcByte_lt h.width_le h.poly_lt hr _ _)
  rw [CrcUnit.feed, CrcUnit.feed, hfold l u.reg h.reg_lt]

end Paths

/-- Settles O57: the two commands differ only in the path, and a well-formed unit comes out the same on both. -/
theorem crcPathEquivalence : Obligations.CrcPathEquivalence := by
  intro s x hwf
  have hfeed := hwf.feed_eq false (s.memRead s.a0.toNat s.a1.toNat)
  have hserial : immSerial 1 = true := by decide
  have htable : immSerial 0 = false := by decide
  have hfields : (1 : BitVec 16).extractLsb' 1 15 = (0 : BitVec 16).extractLsb' 1 15 := by decide
  simp only [exec, execCrcupd, hserial, htable, hfields, hfeed]

/-- A configured unit with these parameters, its register at init. -/
def CrcUnit.ofParams (w : Nat) (poly init xorout : CrcWord) (refin refout : Bool) : CrcUnit :=
  { cfgd := true, width := w, poly := poly, init := init, xorout := xorout, refin := refin, refout := refout, reg := init,
    table := crcTable w poly refin }

theorem CrcUnit.wf_ofParams {w : Nat} {poly init xorout : CrcWord} (refin refout : Bool)
    (h : 3 ≤ w ∧ w ≤ 82 ∧ poly.toNat < 2 ^ w ∧ init.toNat < 2 ^ w ∧ xorout.toNat < 2 ^ w) :
    (CrcUnit.ofParams w poly init xorout refin refout).wf :=
  let ⟨hge, hle, hpoly, hinit, hxorout⟩ := h
  { width_ge := hge, width_le := hle, poly_lt := hpoly, init_lt := hinit, xorout_lt := hxorout, reg_lt := hinit, table_eq := rfl }

/-- Settles O58: the values by the bit-serial path, which the table-driven path agrees with. -/
theorem crcWorkedValues : Obligations.CrcWorkedValues := by
  have hcrc32 := (CrcUnit.wf_ofParams (w := 32) (poly := 0x04C11DB7) (init := 0xFFFFFFFF) (xorout := 0xFFFFFFFF) true true
    (by decide)).feed_eq
  have hxmodem := (CrcUnit.wf_ofParams (w := 16) (poly := 0x1021) (init := 0) (xorout := 0) false false (by decide)).feed_eq
  have hdarc := (CrcUnit.wf_ofParams (w := 82) (poly := 0x0308C0111011401440411) (init := 0) (xorout := 0) true true
    (by decide)).feed_eq
  unfold CrcUnit.ofParams at hcrc32 hxmodem hdarc
  refine ⟨fun serial => ?_, ?_⟩
  · rw [hcrc32 serial, hcrc32 serial, hcrc32 serial, hcrc32 serial, hxmodem serial, hdarc serial]
    decide +kernel
  · decide +kernel

end Sys2Proof.Machine
end

