-- ==== Sys2Proof/Proofs/CrcCommands.lean ====
section
/-! The CRC commands (spec/45_crc.md section 3) complete with their results. A command that passes its checks answers its body, said once
for each command; CRCCFG's record is read byte by byte from DMEM, and a record is valid when each of its fields is. -/

namespace Sys2Proof.Machine

section UnitFrame

variable {i : Instr} {s t : State}

/-- A command that names no context leaves every slot (R88). -/
theorem exec_sameCtxs (h : exec i s = .next t) (hctx : ctxTarget i = none) : s.sameCtxs t := by
  obtain ⟨u, hexec, hwrites⟩ := exec_writesSlot i s
  cases h.symm.trans hexec
  exact ⟨hwrites.counts.1, fun j => hwrites.ctx_eq (by simp [hctx])⟩

/-- Every CRC unit stays but the one that the command names (R342). -/
theorem exec_sameCrcsBut {k : Nat} (h : exec i s = .next t) (hcrc : crcTarget i = some k) : s.sameCrcsBut k t := by
  obtain ⟨u, hexec, hwrites⟩ := exec_writesSlot i s
  cases h.symm.trans hexec
  exact ⟨hwrites.counts.2, fun j hj => hwrites.crc_eq (by simp [hcrc, hj.symm])⟩

/-- A command whose effect is to write its CRC unit completes with that content there, and leaves the rest. -/
theorem exec_unit_completes {k : Nat} {c : CrcUnit} (h : exec i s = .next (s.setCrc k c).finish) (hk : k < s.ncrc)
    (hctx : ctxTarget i = none) (hcrc : crcTarget i = some k) :
    ∃ t, s.runsOk i t ∧ t.crc k = c ∧ s.sameCtxs t ∧ s.sameCrcsBut k t ∧ s.sameDmem t ∧ t.result = s.result :=
  ⟨_, State.runsOk_of_exec h rfl, s.crc_setCrc_same hk c, exec_sameCtxs h hctx, exec_sameCrcsBut h hcrc, fun _ => rfl, rfl⟩

end UnitFrame

section CrcBodies

/-! What each command answers once its fields pass, on a configured unit but for CRCCFG: its body (R371). -/

variable {s : State} {x y : BitVec 4} {imm : BitVec 16}

/-- A command whose CRC field passes names an existing unit (R102). -/
theorem State.lt_ncrc_of_crcField {b : Bool} (h : (s.crcField x y && b) = true) : x.toNat < s.ncrc := by
  simp only [State.crcField, Bool.and_eq_true, decide_eq_true_eq] at h
  exact h.1.1

/-- The fields and the state of a configured unit pass (R371, R375). -/
theorem State.checked_cfgd {fields : Bool} {u : Nat} (hfields : fields = true) (hcfgd : (s.crc u).cfgd = true) (body : State) :
    s.checked fields (s.crcError u) body = body := by
  rw [hfields, (s.crcError_none u).2 hcfgd, State.checked_none]

theorem exec_crcinit_of_wellFormed (hwf : (Instr.crcinit x y imm).wellFormed s.nctx s.ncrc = true)
    (hcfgd : (s.crc x.toNat).cfgd = true) :
    exec (.crcinit x y imm) s = .next (s.setCrc x.toNat (s.crc x.toNat).restart).finish :=
  congrArg Host.Outcome.next (State.checked_cfgd hwf hcfgd _)

theorem exec_crcupd_of_wellFormed (hwf : (Instr.crcupd x y imm).wellFormed s.nctx s.ncrc = true)
    (hcfgd : (s.crc x.toNat).cfgd = true) (hin : s.a0.toNat + s.a1.toNat ≤ s.platform.dmemSize) :
    exec (.crcupd x y imm) s =
      .next (s.setCrc x.toNat ((s.crc x.toNat).feed (immSerial imm) (s.memRead s.a0.toNat s.a1.toNat))).finish :=
  congrArg Host.Outcome.next
    ((State.checked_cfgd hwf hcfgd _).trans (s.windowed_in ((s.inBounds_iff _ _).2 hin) _))

theorem exec_crcfin_of_wellFormed (hwf : (Instr.crcfin x y imm).wellFormed s.nctx s.ncrc = true)
    (hcfgd : (s.crc x.toNat).cfgd = true) (hin : s.a2.toNat + (s.crc x.toNat).outLen ≤ s.platform.dmemSize) :
    exec (.crcfin x y imm) s =
      .next (((s.memWrite s.a2.toNat (beEncode (s.crc x.toNat).value.toNat (s.crc x.toNat).outLen)).setResult
        ((s.crc x.toNat).value.setWidth 64)).setCrc x.toNat (s.crc x.toNat).restart).finish :=
  congrArg Host.Outcome.next
    ((State.checked_cfgd hwf hcfgd _).trans (s.windowed_in ((s.inBounds_iff _ _).2 hin) _))

/-- The parameter record that A0 points to (R330). -/
def State.crcRecord (s : State) : List Byte := s.memRead s.a0.toNat crcRecordLen

/-- CRCCFG on a record that is not valid (R337). -/
theorem exec_crccfg_of_error {e : ErrCode} (hwf : (Instr.crccfg x y imm).wellFormed s.nctx s.ncrc = true)
    (hin : s.a0.toNat + 64 ≤ s.platform.dmemSize) (herror : crcRecordError s.crcRecord = some e) :
    exec (.crccfg x y imm) s = .next (s.raise e) := by
  have hfields : (s.crcField x y && imm == 0) = true := hwf
  rw [State.crcRecord] at herror
  rw [exec, execCrccfg, hfields, State.checked_none, s.windowed_in (n := crcRecordLen) ((s.inBounds_iff _ _).2 hin)]
  exact congrArg Host.Outcome.next (by simp only [herror])

/-- CRCCFG on a valid record (R337). -/
theorem exec_crccfg_of_valid (hwf : (Instr.crccfg x y imm).wellFormed s.nctx s.ncrc = true)
    (hin : s.a0.toNat + 64 ≤ s.platform.dmemSize) (hvalid : crcRecordError s.crcRecord = none) :
    exec (.crccfg x y imm) s = .next (s.setCrc x.toNat (crcUnitOfRecord s.crcRecord)).finish := by
  have hfields : (s.crcField x y && imm == 0) = true := hwf
  rw [State.crcRecord] at hvalid ⊢
  rw [exec, execCrccfg, hfields, State.checked_none, s.windowed_in (n := crcRecordLen) ((s.inBounds_iff _ _).2 hin)]
  exact congrArg Host.Outcome.next (by simp only [hvalid])

end CrcBodies

/-- Settles O54: the unit that CRCINIT writes is the old one with its register at init. -/
theorem crcinitCompletes : Obligations.CrcinitCompletes := fun _ _ _ _ hwf hcfgd =>
  exec_unit_completes (exec_crcinit_of_wellFormed hwf hcfgd) (State.lt_ncrc_of_crcField hwf) rfl rfl

/-- Settles O55, by the path that SERIAL selects. -/
theorem crcupdCompletes : Obligations.CrcupdCompletes := by
  intro s x y imm hwf hcfgd hin
  obtain ⟨t, hruns, hcrc, hframe⟩ :=
    exec_unit_completes (exec_crcupd_of_wellFormed hwf hcfgd hin) (State.lt_ncrc_of_crcField hwf) rfl rfl
  refine ⟨t, hruns, hcrc.trans ?_, hframe⟩
  rw [CrcUnit.feed, immSerial]
  cases imm.getLsbD 0 <;> rfl

section Final

/-- The value of a unit has the unit's width (R334). -/
theorem CrcUnit.wf.value_lt {u : CrcUnit} (h : u.wf) : u.value.toNat < 2 ^ u.width := by
  rw [CrcUnit.value, BitVec.toNat_xor]
  refine Nat.xor_lt_two_pow ?_ h.xorout_lt
  split
  · exact toNat_reflect_lt _ _
  · exact h.reg_lt

/-- Byte j of a big-endian encoding (R20). -/
theorem getElem_beEncode (v : Nat) {n j : Nat} (hj : j < (beEncode v n).length) :
    (beEncode v n)[j] = BitVec.ofNat 8 (v / 256 ^ (n - 1 - j)) := by
  have hpow : 2 ^ (8 * (n - 1 - j)) = 256 ^ (n - 1 - j) := Nat.pow_mul 2 8 _
  simp only [beEncode, List.getElem_reverse, getElem_leEncode, length_leEncode, Nat.shiftRight_eq_div_pow, hpow]

end Final

/-- Settles O56: the bytes written are the value's, and the unit written is the old one with its register at init. -/
theorem crcfinCompletes : Obligations.CrcfinCompletes := by
  intro s x y imm hwf hcfgd hu hin
  have hexec := exec_crcfin_of_wellFormed hwf hcfgd hin
  refine ⟨_, State.runsOk_of_exec hexec rfl, ⟨hu.value_lt, fun j hj => ?_, exec_sameDmemOutside hexec rfl, ?_, ?_⟩,
    exec_sameCtxs hexec rfl, exec_sameCrcsBut hexec rfl⟩
  · have hlen : j < (beEncode (s.crc x.toNat).value.toNat (s.crc x.toNat).outLen).length := by rwa [length_beEncode]
    exact (s.readByte_memWrite_inside _ _ j hlen).trans (getElem_beEncode _ hlen)
  · exact (BitVec.ofNat_toNat 64 (s.crc x.toNat).value).symm
  · exact State.crc_setCrc_same _ (State.lt_ncrc_of_crcField hwf) _

section Record

variable {s : State} {record : List Byte}

theorem State.getElem?_memRead (a : Nat) {n j : Nat} (hj : j < n) : (s.memRead a n)[j]? = some (s.readByte (a + j)) := by
  simp [State.memRead, hj]

/-- A part of a window is the window of that part. -/
theorem State.slice_memRead (a : Nat) {off m n : Nat} (h : off + m ≤ n) : slice (s.memRead a n) off m = s.memRead (a + off) m := by
  refine List.ext_getElem? fun j => ?_
  rw [slice]
  by_cases hj : j < m
  · rw [List.getElem?_take_of_lt hj, List.getElem?_drop, State.getElem?_memRead _ (by omega), State.getElem?_memRead _ hj, Nat.add_assoc]
  · rw [List.getElem?_eq_none (by rw [List.length_take]; omega), List.getElem?_eq_none (by rw [State.length_memRead]; omega)]

theorem State.recByte_crcRecord {j : Nat} (hj : j < 64) : recByte s.crcRecord j = s.readByte (s.a0.toNat + j) := by
  rw [recByte, List.getD_eq_getElem?_getD, State.crcRecord, crcRecordLen, State.getElem?_memRead _ hj, Option.getD_some]

theorem State.slice_crcRecord {off n : Nat} (h : off + n ≤ 64) : slice s.crcRecord off n = s.memRead (s.a0.toNat + off) n :=
  State.slice_memRead _ h

/-- A window holds zeros when each of its bytes is 0. -/
theorem State.memRead_eq_zeros_iff (a n : Nat) : s.memRead a n = zeros n ↔ ∀ j, j < n → s.readByte (a + j) = 0 := by
  simp [zeros, State.memRead, List.eq_replicate_iff]

/-- The parts of a record other than its width that R331 checks: the reserved bits and bytes, and the three values. -/
structure CrcFieldsValid (record : List Byte) : Prop where
  flags : (recByte record 1).toNat / 4 = 0
  reserved : slice record 2 14 = zeros 14
  poly_lt : beDecode (slice record 16 16) < 2 ^ (recByte record 0).toNat
  init_lt : beDecode (slice record 32 16) < 2 ^ (recByte record 0).toNat
  xorout_lt : beDecode (slice record 48 16) < 2 ^ (recByte record 0).toNat

/-- The reserved bits of a record's flags (R330). -/
theorem extractLsb'_flags_eq_zero_iff (b : Byte) : b.extractLsb' 2 6 = 0 ↔ b.toNat / 4 = 0 := by
  revert b
  decide

/-- A width out of range is found first (R331). -/
theorem crcRecordError_of_width (h : (recByte record 0).toNat < 3 ∨ 82 < (recByte record 0).toNat) :
    crcRecordError record = some .crcWidth := if_pos h

/-- With a width in range, a record is valid when its other fields are (R331). -/
theorem crcRecordError_of_valid (h3 : 3 ≤ (recByte record 0).toNat) (h82 : (recByte record 0).toNat ≤ 82)
    (h : CrcFieldsValid record) : crcRecordError record = none := by
  obtain ⟨hflags, hreserved, hpoly, hinit, hxorout⟩ := h
  have hbits := (extractLsb'_flags_eq_zero_iff _).2 hflags
  rw [crcRecordError, if_neg (by omega), if_neg (not_or.2 ⟨fun hne => hne hbits, fun hne => hne hreserved⟩), if_neg (by omega)]

/-- With a width in range, any other violation raises INVALID_INPUT (R331). -/
theorem crcRecordError_of_not_valid (h3 : 3 ≤ (recByte record 0).toNat) (h82 : (recByte record 0).toNat ≤ 82)
    (h : ¬ CrcFieldsValid record) : crcRecordError record = some .invalidInput := by
  rw [crcRecordError, if_neg (by omega)]
  split
  · rfl
  · next hreserved =>
    rw [not_or, Decidable.not_not, Decidable.not_not, extractLsb'_flags_eq_zero_iff] at hreserved
    refine if_pos (Decidable.byContradiction fun hvalues => h ?_)
    obtain ⟨hflags, hzeros⟩ := hreserved
    exact ⟨hflags, hzeros, by omega, by omega, by omega⟩

/-- A value within a width of at most 82 bits is held as it is. -/
theorem toNat_ofNat_of_lt_two_pow {w v : Nat} (hw : w ≤ 82) (hv : v < 2 ^ w) : (BitVec.ofNat 82 v).toNat = v :=
  Nat.mod_eq_of_lt (Nat.lt_of_lt_of_le hv (Nat.pow_le_pow_right Nat.two_pos hw))

/-- The fields of the record in DMEM are valid when its bytes and values there are (R330, R331). -/
theorem crcFieldsValid_crcRecord_iff : CrcFieldsValid s.crcRecord ↔
    (s.readByte (s.a0.toNat + 1)).toNat / 4 = 0 ∧ (∀ j, 2 ≤ j → j < 16 → s.readByte (s.a0.toNat + j) = 0) ∧
      beDecode (s.memRead (s.a0.toNat + 16) 16) < 2 ^ (s.readByte (s.a0.toNat + 0)).toNat ∧
      beDecode (s.memRead (s.a0.toNat + 32) 16) < 2 ^ (s.readByte (s.a0.toNat + 0)).toNat ∧
      beDecode (s.memRead (s.a0.toNat + 48) 16) < 2 ^ (s.readByte (s.a0.toNat + 0)).toNat := by
  have hzeros : s.memRead (s.a0.toNat + 2) 14 = zeros 14 ↔ ∀ j, 2 ≤ j → j < 16 → s.readByte (s.a0.toNat + j) = 0 := by
    rw [State.memRead_eq_zeros_iff]
    refine ⟨fun h j h2 h16 => ?_, fun h j hj => ?_⟩
    · rw [← h (j - 2) (by omega)]
      congr 1
      omega
    · rw [Nat.add_assoc]
      exact h (2 + j) (by omega) (by omega)
  rw [← hzeros, ← State.recByte_crcRecord (by decide), ← State.recByte_crcRecord (by decide), ← State.slice_crcRecord (by decide),
    ← State.slice_crcRecord (by decide), ← State.slice_crcRecord (by decide), ← State.slice_crcRecord (by decide)]
  exact ⟨fun h => ⟨h.flags, h.reserved, h.poly_lt, h.init_lt, h.xorout_lt⟩,
    fun ⟨hflags, hreserved, hpoly, hinit, hxorout⟩ => ⟨hflags, hreserved, hpoly, hinit, hxorout⟩⟩

end Record

/-- Settles O19: the width is checked first, then the record's other fields. -/
theorem crccfgRejectsRecords : Obligations.CrccfgRejectsRecords := by
  intro s x y imm hwf hin
  dsimp only
  rw [← crcFieldsValid_crcRecord_iff, ← State.recByte_crcRecord (by decide)]
  exact ⟨fun hwidth => exec_crccfg_of_error hwf hin (crcRecordError_of_width hwidth),
    fun h3 h82 hnot => exec_crccfg_of_error hwf hin (crcRecordError_of_not_valid h3 h82 hnot),
    fun h3 h82 hvalid => ⟨_, exec_crccfg_of_valid hwf hin (crcRecordError_of_valid h3 h82 hvalid), rfl⟩⟩

/-- Settles O53: a valid record's unit has the fields of the record and the table of R335. -/
theorem crccfgCompletes : Obligations.CrccfgCompletes := by
  intro s x y imm hwf hin
  dsimp only
  intro h3 h82 hflags hreserved hpoly hinit hxorout
  have hfields := crcFieldsValid_crcRecord_iff.2 ⟨by omega, hreserved, hpoly, hinit, hxorout⟩
  rw [← State.recByte_crcRecord (by decide)] at h3 h82
  rw [← State.recByte_crcRecord (by decide), ← State.recByte_crcRecord (by decide), ← State.slice_crcRecord (by decide),
    ← State.slice_crcRecord (by decide), ← State.slice_crcRecord (by decide)]
  obtain ⟨t, hruns, hcrc, hframe⟩ :=
    exec_unit_completes (exec_crccfg_of_valid hwf hin (crcRecordError_of_valid h3 h82 hfields)) (State.lt_ncrc_of_crcField hwf) rfl rfl
  refine ⟨t, hruns, ?_, hframe⟩
  rw [hcrc]
  exact ⟨rfl, rfl, toNat_ofNat_of_lt_two_pow h82 hfields.poly_lt, toNat_ofNat_of_lt_two_pow h82 hfields.init_lt,
    toNat_ofNat_of_lt_two_pow h82 hfields.xorout_lt, rfl, rfl, rfl, length_crcTable _ _ _, fun j hj => wordAt_crcTable _ _ _ hj⟩

end Sys2Proof.Machine
end

