-- ==== Sys2Proof/Proofs/Errors.lean ====
section
/-! The errors of a command (spec/60_exceptions.md section 1). Every command goes through the checks of R371 in their order: the fields,
the state, the window, the record. The check that fails first raises its error, and a command that passes all of them completes. That is
said once for all sixteen commands (`exec_completes`), and every statement about errors is read off it. -/

namespace Sys2Proof.Machine

section FieldRules

/-- A value shares no bit with the mask of the bits from k up exactly when its field from k up is 0. -/
theorem and_highMask_eq_zero_iff {w : Nat} (v : BitVec w) (k : Nat) :
    v &&& (BitVec.allOnes w <<< k) = 0 ↔ v.extractLsb' k (w - k) = 0 := by
  simp only [BitVec.eq_of_getLsbD_eq_iff, BitVec.getLsbD_and, BitVec.getLsbD_shiftLeft, BitVec.getLsbD_allOnes,
    BitVec.getLsbD_extractLsb', BitVec.ofNat_eq_ofNat, BitVec.getLsbD_zero]
  constructor
  · intro h i hi
    have hbit := h (k + i) (by omega)
    have hadd : k + i < w := by omega
    have hlow : ¬ k + i < k := by omega
    have hsub : k + i - k < w := by omega
    simp only [hadd, hlow, hsub, decide_true, decide_false, Bool.not_false, Bool.and_true] at hbit
    simp only [hi, hbit, decide_true, Bool.and_false]
  · intro h i hi
    by_cases hk : i < k
    · simp only [hk, decide_true, Bool.not_true, Bool.and_false, Bool.false_and]
    · have hbit := h (i - k) (by omega)
      have hsub : i - k < w - k := by omega
      rw [Nat.add_sub_cancel' (by omega)] at hbit
      simp only [hsub, decide_true, Bool.true_and] at hbit
      simp only [hbit, Bool.false_and]

variable (imm : BitVec 16)

/-! The masks of reserved bits of IMM that R101 gives. -/

theorem and_ffff_eq_zero_iff : imm &&& 0xFFFF#16 = 0#16 ↔ imm = 0#16 := by
  rw [show 0xFFFF#16 = BitVec.allOnes 16 from rfl, BitVec.and_allOnes]

theorem and_fffe_eq_zero_iff : imm &&& 0xFFFE#16 = 0#16 ↔ imm.extractLsb' 1 15 = 0#15 := and_highMask_eq_zero_iff imm 1

theorem and_ff00_eq_zero_iff : imm &&& 0xFF00#16 = 0#16 ↔ imm.extractLsb' 8 8 = 0#8 := and_highMask_eq_zero_iff imm 8

theorem and_f800_eq_zero_iff : imm &&& 0xF800#16 = 0#16 ↔ imm.extractLsb' 11 5 = 0#5 := and_highMask_eq_zero_iff imm 11

/-- IMM[15:8] is 0 when IMM[15:11] and IMM[10:8] are. -/
theorem extractLsb'_high_byte_eq_zero_iff :
    imm.extractLsb' 8 8 = 0#8 ↔ imm.extractLsb' 11 5 = 0#5 ∧ imm.extractLsb' 8 3 = 0#3 := by
  simp only [← BitVec.toNat_inj, BitVec.extractLsb'_toNat, BitVec.toNat_ofNat, Nat.shiftRight_eq_div_pow]
  omega

/-- The rules for the immediate of INIT in the terms of R374: no reserved bit, a known ALG, and a TLEN other than 3 for Tiger. -/
theorem initImmWellFormed_iff : initImmWellFormed imm = true ↔
    imm &&& (if isTigerCode (imm.extractLsb' 0 8) = true then 0xF800#16 else 0xFF00#16) = 0#16 ∧
      imm.extractLsb' 0 8 ∈ [0x01#8, 0x02, 0x03, 0x04, 0x11, 0x12, 0x13, 0x14, 0x21, 0x22] ∧
      (isTigerCode (imm.extractLsb' 0 8) = true → ¬ imm.extractLsb' 8 2 = 3#2) := by
  have hknown : knownAlgCode (imm.extractLsb' 0 8) = true ↔
      imm.extractLsb' 0 8 ∈ [0x01#8, 0x02, 0x03, 0x04, 0x11, 0x12, 0x13, 0x14, 0x21, 0x22] := List.contains_iff_mem
  have htiger : (imm.extractLsb' 0 8 == 0x21 || imm.extractLsb' 0 8 == 0x22) = isTigerCode (imm.extractLsb' 0 8) := rfl
  simp only [initImmWellFormed, Bool.and_eq_true, beq_iff_eq, hknown, htiger]
  cases isTigerCode (imm.extractLsb' 0 8)
  · simp [and_ff00_eq_zero_iff, extractLsb'_high_byte_eq_zero_iff, and_right_comm, and_assoc, -List.mem_cons]
  · simp [and_f800_eq_zero_iff, and_assoc, -List.mem_cons]

end FieldRules

/-- The reserved bits of INIT's immediate (R101). -/
theorem reservedImm_init (x y : BitVec 4) (imm : BitVec 16) :
    reservedImm (.init x y imm) = if isTigerCode (imm.extractLsb' 0 8) = true then 0xF800 else 0xFF00 := rfl

/-- A command obeys the field rules exactly when it commits none of the violations of R374. -/
theorem wellFormed_iff_not_fieldViolation (nctx ncrc : Nat) (i : Instr) :
    i.wellFormed nctx ncrc = true ↔ ¬ fieldViolation nctx ncrc i := by
  cases i with
  | init x y imm =>
    have hops : 0x01#8 ∈ contextOps ∧ 0x01#8 ∉ crcOps := by decide
    simp [Instr.wellFormed, initImmWellFormed_iff, fieldViolation, Instr.opcode, Instr.x, Instr.y, Instr.imm, hops,
      reservedImm_init, and_assoc, -List.mem_cons]
  | update1 x y imm =>
    simp [Instr.wellFormed, fieldViolation, Instr.opcode, Instr.x, Instr.y, Instr.imm, contextOps, crcOps, reservedImm,
      and_ff00_eq_zero_iff, and_assoc]
  | crcupd x y imm =>
    simp [Instr.wellFormed, fieldViolation, Instr.opcode, Instr.x, Instr.y, Instr.imm, contextOps, crcOps, reservedImm,
      and_fffe_eq_zero_iff, and_assoc]
  | nop | copy | reset | update | digest | digestn | getblk | getdlen | free | hmacinit | crccfg | crcinit | crcfin =>
    simp [Instr.wellFormed, fieldViolation, Instr.opcode, Instr.x, Instr.y, Instr.imm, contextOps, crcOps, reservedImm,
      and_ffff_eq_zero_iff, and_assoc]

section Init

/-- An immediate that names an algorithm for INIT obeys the field rules (R101, R111, R112, R145). -/
theorem initImmWellFormed_of_initAlg {imm : BitVec 16} {a : Alg} (h : initAlg imm = some a) : initImmWellFormed imm = true := by
  have hcode : ∀ a, knownAlgCode (algCode a) = true ∧ ((algCode a == 0x21 || algCode a == 0x22) = true ↔ algFamily a = .tiger) := by
    intro a
    cases a <;> decide
  unfold initAlg at h
  split at h
  · cases h
  · next hreserved =>
    split at h
    · cases h
    · next b halg =>
      rw [immAlg, algOfCode_eq_some_iff] at halg
      obtain ⟨hknown, htiger⟩ := hcode b
      simp only [initImmWellFormed, ← halg, hknown, htiger, Bool.and_eq_true, beq_iff_eq]
      refine ⟨⟨Decidable.not_not.1 hreserved, trivial⟩, ?_⟩
      split at h
      · next hfamily =>
        rw [if_pos hfamily]
        split at h
        · cases h
        · next htlen => exact bne_iff_ne.2 htlen
      · next hfamily =>
        rw [if_neg hfamily]
        split at h
        · cases h
        · next hzero => exact beq_iff_eq.2 (Decidable.not_not.1 hzero)

variable {s : State} {x y : BitVec 4} {imm : BitVec 16}

/-- INIT with a bad field (R145, R374). -/
theorem exec_init_of_not_wellFormed (h : (Instr.init x y imm).wellFormed s.nctx s.ncrc = false) :
    exec (.init x y imm) s = .next (s.raise .invalidInput) := by
  rw [exec, execInit]
  split
  · next a halg =>
    refine congrArg Host.Outcome.next (if_neg fun hfield => ?_)
    have hwf : (Instr.init x y imm).wellFormed s.nctx s.ncrc = true :=
      Bool.and_eq_true_iff.2 ⟨hfield, initImmWellFormed_of_initAlg halg⟩
    exact Bool.false_ne_true (h.symm.trans hwf)
  · rfl

end Init

section Checks

/-- The state in which a BOUNDS error leaves contexts: only a DIGEST or DIGESTN changes its own, to UNDEF (R151, R372). -/
def State.afterBounds (s : State) (i : Instr) : State :=
  if isDigest i = true then s.setCtx i.x.toNat { s.ctx i.x.toNat with st := .undef } else s

/-- The checks that come before a command's window: the fields and the state (R371 points 2 and 3). -/
structure State.Admits (s : State) (i : Instr) : Prop where
  fields : i.wellFormed s.nctx s.ncrc = true
  state : stateCheck s i = none

/-- How command i, issued in s, completes in t: with the error of the first check of R371 that fails, which changes nothing but STATUS
(and, in a DIGEST or DIGESTN, the context, R151), or without error when every check passes. -/
inductive State.Completes (s : State) (i : Instr) : State → Prop where
  | badFields (fields : i.wellFormed s.nctx s.ncrc = false) : Completes s i (s.raise .invalidInput)
  | badState {e : ErrCode} (fields : i.wellFormed s.nctx s.ncrc = true) (state : stateCheck s i = some e) : Completes s i (s.raise e)
  | badWindow {off n : Nat} (admits : s.Admits i) (window : dmemWindow s i = some (off, n)) (out : s.platform.dmemSize < off + n) :
      Completes s i ((s.afterBounds i).raise .bounds)
  | badRecord {off n : Nat} {e : ErrCode} (admits : s.Admits i) (window : dmemWindow s i = some (off, n))
      (inside : off + n ≤ s.platform.dmemSize) (record : s.recordError i = e) (error : e ≠ .ok) : Completes s i (s.raise e)
  | done {t : State} (admits : s.Admits i) (window : ∀ off n, dmemWindow s i = some (off, n) → off + n ≤ s.platform.dmemSize)
      (record : s.recordError i = .ok) (ok : t.err = .ok) : Completes s i t

namespace State.Completes

variable {s : State} {i : Instr}

theorem checked {e : Option ErrCode} {body : State} (hstate : stateCheck s i = e) (hbody : s.Admits i → s.Completes i body) :
    s.Completes i (s.checked (i.wellFormed s.nctx s.ncrc) e body) := by
  obtain ⟨hfields, heq⟩ | ⟨hfields, c, rfl, heq⟩ | ⟨hfields, rfl, heq⟩ :=
    s.checked_cases (i.wellFormed s.nctx s.ncrc) e body <;> rw [heq]
  · exact .badFields hfields
  · exact .badState hfields hstate
  · exact hbody ⟨hfields, hstate⟩

variable (h : s.Admits i)
include h

/-- A command without a window has nothing left to check. -/
theorem unwindowed {t : State} (hwindow : dmemWindow s i = none) (hrecord : s.recordError i = .ok) (hok : t.err = .ok) :
    s.Completes i t :=
  .done h (fun _ _ hsome => nomatch hwindow.symm.trans hsome) hrecord hok

/-- A command whose window is in bounds has only its record left to check. -/
theorem inside {off n : Nat} {t : State} (hwindow : dmemWindow s i = some (off, n)) (hin : s.inBounds off n = true)
    (hrecord : s.recordError i = .ok) (hok : t.err = .ok) : s.Completes i t :=
  .done h (fun off' n' hsome => by cases hwindow.symm.trans hsome; exact (s.inBounds_iff off n).1 hin) hrecord hok

/-- A command whose window is out of bounds raises BOUNDS (R376). -/
theorem outside {off n : Nat} (hwindow : dmemWindow s i = some (off, n)) (hout : s.inBounds off n = false) :
    s.Completes i ((s.afterBounds i).raise .bounds) :=
  .badWindow h hwindow <| Nat.lt_of_not_le fun hle => Bool.false_ne_true (hout.symm.trans ((s.inBounds_iff off n).2 hle))

theorem windowed {off n : Nat} {body : State} (hwindow : dmemWindow s i = some (off, n)) (hdigest : isDigest i = false)
    (hbody : s.inBounds off n = true → s.Completes i body) : s.Completes i (s.windowed off n body) := by
  obtain ⟨hout, heq⟩ | ⟨hin, heq⟩ := s.windowed_cases off n body <;> rw [heq]
  · have hbounds := outside h hwindow hout
    rwa [afterBounds, if_neg (by simp [hdigest])] at hbounds
  · exact hbody hin

/-- DIGEST and DIGESTN check their window, and leave the context UNDEF if it is out of bounds (R151). -/
theorem digestInto {n : Nat} (hwindow : dmemWindow s i = some (s.a2.toNat, n)) (hdigest : isDigest i = true)
    (hrecord : s.recordError i = .ok) : s.Completes i (s.digestInto i.x.toNat n) := by
  obtain ⟨hin, heq⟩ | ⟨hout, heq⟩ := s.digestInto_cases i.x.toNat n <;> rw [heq]
  · exact inside h hwindow hin hrecord rfl
  · have hbounds := outside h hwindow hout
    rwa [afterBounds, if_pos hdigest] at hbounds

end State.Completes

/-- Every command completes, by the checks of R371 in their order. -/
theorem exec_completes (i : Instr) (s : State) : ∃ t, exec i s = .next t ∧ s.Completes i t :=
  match i with
  | .nop x y imm => ⟨_, rfl, .checked (i := .nop x y imm) rfl fun h => .unwindowed h rfl rfl rfl⟩
  | .init x y imm => by
      cases hfields : (Instr.init x y imm).wellFormed s.nctx s.ncrc with
      | false => exact ⟨_, exec_init_of_not_wellFormed hfields, .badFields hfields⟩
      | true =>
        obtain ⟨hfield, himm⟩ : s.ctxField x y = true ∧ initImmWellFormed imm = true := Bool.and_eq_true_iff.1 hfields
        obtain ⟨a, halg, -⟩ := initAlg_of_wellFormed himm
        exact ⟨_, exec_init_of_initAlg halg hfield, .unwindowed ⟨hfields, rfl⟩ rfl rfl rfl⟩
  | .free x y imm => ⟨_, rfl, .checked (i := .free x y imm) rfl fun h => .unwindowed h rfl rfl rfl⟩
  | .reset x y imm => ⟨_, rfl, .checked (i := .reset x y imm) rfl fun h => .unwindowed h rfl rfl rfl⟩
  | .update1 x y imm => ⟨_, rfl, .checked (i := .update1 x y imm) rfl fun h => .unwindowed h rfl rfl rfl⟩
  | .copy x y imm => ⟨_, rfl, .checked (i := .copy x y imm) rfl fun h => .unwindowed h rfl rfl rfl⟩
  | .getblk x y imm => ⟨_, rfl, .checked (i := .getblk x y imm) rfl fun h => .unwindowed h rfl rfl rfl⟩
  | .getdlen x y imm => ⟨_, rfl, .checked (i := .getdlen x y imm) rfl fun h => .unwindowed h rfl rfl rfl⟩
  | .crcinit x y imm => ⟨_, rfl, .checked (i := .crcinit x y imm) rfl fun h => .unwindowed h rfl rfl rfl⟩
  | .update x y imm => ⟨_, rfl, .checked (i := .update x y imm) rfl fun h => .windowed h rfl rfl fun hin => .inside h rfl hin rfl rfl⟩
  | .hmacinit x y imm =>
    ⟨_, rfl, .checked (i := .hmacinit x y imm) rfl fun h => .windowed h rfl rfl fun hin => .inside h rfl hin rfl rfl⟩
  | .crcupd x y imm => ⟨_, rfl, .checked (i := .crcupd x y imm) rfl fun h => .windowed h rfl rfl fun hin => .inside h rfl hin rfl rfl⟩
  | .crcfin x y imm => ⟨_, rfl, .checked (i := .crcfin x y imm) rfl fun h => .windowed h rfl rfl fun hin => .inside h rfl hin rfl rfl⟩
  | .digest x y imm => ⟨_, rfl, .checked (i := .digest x y imm) rfl fun h => .digestInto h rfl rfl rfl⟩
  | .digestn x y imm => ⟨_, rfl, .checked (i := .digestn x y imm) rfl fun h => .digestInto h rfl rfl rfl⟩
  | .crccfg x y imm => ⟨_, rfl, .checked (i := .crccfg x y imm) rfl fun h => .windowed h rfl rfl fun hin => by
      have hinside := (s.inBounds_iff _ _).1 hin
      dsimp only
      split
      · next e herror =>
        exact .badRecord h rfl hinside (congrArg (·.getD .ok) herror) fun he => crcRecordError_ne_ok _ (he ▸ herror)
      · next hvalid => exact .inside h rfl hin (congrArg (·.getD .ok) hvalid) rfl⟩

end Checks

section Errors

variable {s t : State} {i : Instr} {e : ErrCode}

/-- The state check is CheckCtx for the context commands but INIT and FREE, and the check of cfgd for the CRC commands but CRCCFG
(R162, R375, R377). -/
theorem stateCheck_eq_some_iff : stateCheck s i = some e ↔
    (i.opcode ∈ checkingOps ∧ s.ctxError i.x.toNat = some e) ∨
      (i.opcode ∈ [0x21#8, 0x22, 0x23] ∧ s.crcError i.x.toNat = some e) := by
  cases i <;> simp [stateCheck, checkingOps, Instr.opcode, Instr.x]

/-- The errors of the state checks (R375, R377). -/
theorem stateCheck_some (h : stateCheck s i = some e) : e = .notImplemented ∨ e = .contextUndefined := by
  obtain ⟨-, hctx⟩ | ⟨-, hcrc⟩ := stateCheck_eq_some_iff.1 h
  · exact (State.ctxError_some hctx).imp And.right And.right
  · exact .inl (State.crcError_some hcrc).2

/-- A context raises NOT_IMPLEMENTED exactly when it is UNBOUND (R375). -/
theorem State.ctxError_eq_notImplemented_iff (k : Nat) : s.ctxError k = some .notImplemented ↔ (s.ctx k).st = .unbound := by
  unfold State.ctxError
  cases (s.ctx k).st <;> simp

/-- A context raises CONTEXT_UNDEFINED exactly when it is UNDEF (R377). -/
theorem State.ctxError_eq_contextUndefined_iff (k : Nat) : s.ctxError k = some .contextUndefined ↔ (s.ctx k).st = .undef := by
  unfold State.ctxError
  cases (s.ctx k).st <;> simp

/-- A CRC unit raises NOT_IMPLEMENTED exactly when it is not configured (R375). -/
theorem State.crcError_eq_some_iff (u : Nat) : s.crcError u = some e ↔ (s.crc u).cfgd = false ∧ e = .notImplemented := by
  unfold State.crcError
  cases (s.crc u).cfgd <;> simp [eq_comm]

/-- Only CRCCFG checks a record (R331, R337). -/
theorem State.recordError_of_ne_ok (h : s.recordError i = e) (hne : e ≠ .ok) :
    (∃ x y imm, i = .crccfg x y imm) ∧ crcRecordError s.crcRecord = some e := by
  cases i with
  | crccfg x y imm =>
    refine ⟨⟨x, y, imm, rfl⟩, ?_⟩
    rw [State.recordError] at h
    rw [State.crcRecord]
    cases hrecord : crcRecordError (s.memRead s.a0.toNat crcRecordLen) with
    | none => exact absurd (by rw [← h, hrecord]; rfl) hne
    | some c => rw [← h, hrecord]; rfl
  | nop | init | reset | update1 | update | digest | digestn | copy | getblk | getdlen | free | hmacinit | crcinit | crcupd | crcfin =>
    exact absurd h.symm hne

/-- A record raises INVALID_INPUT when its width is valid and another of its fields is not (R331). -/
theorem crcRecordError_eq_invalidInput {record : List Byte} (h : crcRecordError record = some .invalidInput) :
    3 ≤ (recByte record 0).toNat ∧ (recByte record 0).toNat ≤ 82 ∧ ¬ CrcFieldsValid record := by
  by_cases hwidth : (recByte record 0).toNat < 3 ∨ 82 < (recByte record 0).toNat
  · cases h.symm.trans (crcRecordError_of_width hwidth)
  · rw [not_or, Nat.not_lt, Nat.not_lt] at hwidth
    obtain ⟨h3, h82⟩ := hwidth
    exact ⟨h3, h82, fun hvalid => nomatch h.symm.trans (crcRecordError_of_valid h3 h82 hvalid)⟩

/-- How a command completed, from the state it left. -/
theorem exec_next_completes (h : exec i s = .next t) : s.Completes i t := by
  obtain ⟨u, hexec, hcompletes⟩ := exec_completes i s
  cases h.symm.trans hexec
  exact hcompletes

namespace State.Completes

variable (h : s.Completes i t)
include h

/-- The error of a command is the first in the order of R371. -/
theorem err_eq_firstError : t.err = s.firstError i := by
  cases h with
  | badFields fields => simp [firstError, fields]
  | badState fields state => simp [firstError, fields, state]
  | badWindow admits window out => simp [firstError, admits.fields, admits.state, window, out]
  | badRecord admits window inside record error =>
    simp [firstError, admits.fields, admits.state, window, Nat.not_lt.2 inside, record]
  | done admits window record ok =>
    rw [ok, firstError, admits.fields, admits.state]
    cases hwindow : dmemWindow s i with
    | none => rfl
    | some w =>
      simp [Nat.not_lt.2 (window _ _ hwindow), record]

/-- A bad field is found first (R371, R374). -/
theorem of_badFields (hfields : i.wellFormed s.nctx s.ncrc = false) : t = s.raise .invalidInput := by
  have hadmits : ¬ s.Admits i := fun admits => Bool.false_ne_true (hfields.symm.trans admits.fields)
  cases h with
  | badFields => rfl
  | badState fields => exact absurd (hfields.symm.trans fields) Bool.false_ne_true
  | badWindow admits | badRecord admits | done admits => exact absurd admits hadmits

/-- A command whose fields are good raises INVALID_INPUT only for its record (R331, R374). -/
theorem record_of_invalidInput (herr : t.err = .invalidInput) (hfields : i.wellFormed s.nctx s.ncrc = true) :
    (∃ x y imm, i = .crccfg x y imm) ∧ s.a0.toNat + 64 ≤ s.platform.dmemSize ∧ crcRecordError s.crcRecord = some .invalidInput := by
  cases h with
  | badFields fields => exact absurd (fields.symm.trans hfields) Bool.false_ne_true
  | badState _ state =>
    cases herr
    obtain hc | hc := stateCheck_some state <;> cases hc
  | badWindow => cases herr
  | badRecord admits window inside record error =>
    cases herr
    obtain ⟨⟨x, y, imm, rfl⟩, hrecord⟩ := recordError_of_ne_ok record error
    cases window
    exact ⟨⟨x, y, imm, rfl⟩, inside, hrecord⟩
  | done _ _ _ ok => cases ok.symm.trans herr

/-- A command raises the error of a state check exactly when its fields are good and that check fails (R371, R375, R377). -/
theorem err_eq_state_iff (he : e = .notImplemented ∨ e = .contextUndefined) :
    t.err = e ↔ i.wellFormed s.nctx s.ncrc = true ∧ stateCheck s i = some e := by
  constructor
  · rintro rfl
    cases h with
    | badState fields state => exact ⟨fields, state⟩
    | badRecord _ _ _ record error =>
      obtain ⟨-, hrecord⟩ := recordError_of_ne_ok record error
      obtain rfl | rfl := crcRecordError_some hrecord <;> simp at he
    | badFields | badWindow => simp at he
    | done _ _ _ ok => simp [ok] at he
  · rintro ⟨hfields, hstate⟩
    rw [h.err_eq_firstError, firstError, hfields, hstate]
    rfl

/-- A command that fails changes nothing but STATUS and, by R151, its context (R372). -/
theorem eq_raise_of_error (herr : t.err ≠ .ok) : t = (if t.err = .bounds then s.afterBounds i else s).raise t.err := by
  cases h with
  | badFields => rfl
  | badState _ state => obtain rfl | rfl := stateCheck_some state <;> rfl
  | badWindow => rfl
  | badRecord _ _ _ record error =>
    obtain rfl | rfl := crcRecordError_some (recordError_of_ne_ok record error).2 <;> rfl
  | done _ _ _ ok => exact absurd ok herr

end State.Completes

end Errors

/-- Settles O16: the field checks are those of R374, and past them INVALID_INPUT comes from the record alone. -/
theorem fieldChecks : Obligations.FieldChecks := by
  intro i s
  have hfields : i.wellFormed s.nctx s.ncrc = false ↔ fieldViolation s.nctx s.ncrc i := by
    rw [← Bool.not_eq_true, wellFormed_iff_not_fieldViolation, Classical.not_not]
  refine ⟨hfields, fun hviolation => ?_, fun t hexec herr hviolation => ?_⟩
  · obtain ⟨t, hexec, hcompletes⟩ := exec_completes i s
    rw [hexec, hcompletes.of_badFields (hfields.2 hviolation)]
  · have hwf := (wellFormed_iff_not_fieldViolation _ _ _).2 hviolation
    obtain ⟨⟨x, y, imm, rfl⟩, hin, hrecord⟩ := (exec_next_completes hexec).record_of_invalidInput herr hwf
    obtain ⟨h3, h82, hnot⟩ := crcRecordError_eq_invalidInput hrecord
    rw [State.recByte_crcRecord (by decide)] at h3 h82
    exact ⟨rfl, hin, h3, h82, fun hcontent => hnot (crcFieldsValid_crcRecord_iff.2 hcontent)⟩

/-- Settles O17: the state checks are the only source of the two errors. -/
theorem stateErrors : Obligations.StateErrors := by
  intro i s t hexec
  have hcompletes := exec_next_completes hexec
  constructor
  · rw [hcompletes.err_eq_state_iff (.inl rfl), wellFormed_iff_not_fieldViolation, stateCheck_eq_some_iff,
      State.ctxError_eq_notImplemented_iff, State.crcError_eq_some_iff]
    simp
  · rw [hcompletes.err_eq_state_iff (.inr rfl), wellFormed_iff_not_fieldViolation, stateCheck_eq_some_iff,
      State.ctxError_eq_contextUndefined_iff, State.crcError_eq_some_iff]
    simp

/-- Settles O18, by the check that decides how the command completes. -/
theorem errorPriority : Obligations.ErrorPriority := fun i s =>
  have ⟨t, hexec, hcompletes⟩ := exec_completes i s
  ⟨t, hexec, hcompletes.err_eq_firstError⟩

/-- Settles O20: only a BOUNDS error changes more than STATUS, and that only in DIGEST and DIGESTN. -/
theorem preciseErrors : Obligations.PreciseErrors := by
  intro i s t hexec herr
  refine ((exec_next_completes hexec).eq_raise_of_error herr).trans ?_
  by_cases hbounds : t.err = .bounds
  · cases hdigest : isDigest i <;> simp [hbounds, State.afterBounds, hdigest, State.raise, State.withError]
  · simp [hbounds, State.raise, State.withError]

section Allowed

variable {s t : State} {i : Instr} {e : ErrCode}

theorem ok_mem_allowedErrors (i : Instr) : .ok ∈ allowedErrors i := by cases i <;> exact .head _

theorem invalidInput_mem_allowedErrors (i : Instr) : .invalidInput ∈ allowedErrors i := by cases i <;> exact .tail _ (.head _)

/-- The column "state" of R381. -/
theorem stateCheck_mem_allowedErrors (h : stateCheck s i = some e) : e ∈ allowedErrors i := by
  cases i with
  | nop | init | free | crccfg => cases h
  | reset | update1 | update | digest | digestn | copy | getblk | getdlen | hmacinit =>
    obtain rfl | rfl := stateCheck_some h <;> simp [allowedErrors]
  | crcinit | crcupd | crcfin =>
    obtain ⟨-, rfl⟩ := State.crcError_some h
    simp [allowedErrors]

/-- The column "BOUNDS" of R381 names the commands with a window (R376). -/
theorem bounds_mem_allowedErrors {w : Nat × Nat} (h : dmemWindow s i = some w) : .bounds ∈ allowedErrors i := by
  cases i with
  | nop | init | reset | update1 | copy | getblk | getdlen | free | crcinit => cases h
  | update | digest | digestn | hmacinit | crccfg | crcupd | crcfin => simp [allowedErrors]

theorem State.Completes.err_mem_allowedErrors (h : s.Completes i t) : t.err ∈ allowedErrors i := by
  cases h with
  | badFields => exact invalidInput_mem_allowedErrors i
  | badState _ state => exact stateCheck_mem_allowedErrors state
  | badWindow _ window => exact bounds_mem_allowedErrors window
  | badRecord _ _ _ record error =>
    obtain ⟨⟨x, y, imm, rfl⟩, hrecord⟩ := State.recordError_of_ne_ok record error
    obtain rfl | rfl := crcRecordError_some hrecord <;> simp [allowedErrors]
  | done _ _ _ ok => exact ok ▸ ok_mem_allowedErrors i

end Allowed

section Attained

/-- The command with X and Y zero and another immediate. -/
def withImm (imm : BitVec 16) : Instr → Instr
  | .nop .. => .nop 0 0 imm
  | .init .. => .init 0 0 imm
  | .reset .. => .reset 0 0 imm
  | .update1 .. => .update1 0 0 imm
  | .update .. => .update 0 0 imm
  | .digest .. => .digest 0 0 imm
  | .digestn .. => .digestn 0 0 imm
  | .copy .. => .copy 0 0 imm
  | .getblk .. => .getblk 0 0 imm
  | .getdlen .. => .getdlen 0 0 imm
  | .free .. => .free 0 0 imm
  | .hmacinit .. => .hmacinit 0 0 imm
  | .crccfg .. => .crccfg 0 0 imm
  | .crcinit .. => .crcinit 0 0 imm
  | .crcupd .. => .crcupd 0 0 imm
  | .crcfin .. => .crcfin 0 0 imm

@[simp] theorem withImm_opcode (imm : BitVec 16) (i : Instr) : (withImm imm i).opcode = i.opcode := by cases i <;> rfl

/-- A parameter record of this width whose other bytes are zero (R330). -/
def zeroRecord (width : Byte) : List Byte := width :: zeros 63

/-- A context as INIT leaves it for BMW-256 (R145). -/
def bmw256Ctx : Ctx := initCtx 0 .bmw256 0x0002 0

/-- A reset machine whose contexts are UNDEF. -/
def undefMachine : State := { State.reset with ctxs := List.replicate 4 { bmw256Ctx with st := .undef } }

/-- A reset machine whose contexts are READY and CRC units configured, with every window at `a` and a record of this width at 0. -/
def usableMachine (width : Byte) (a : Word64) : State :=
  { State.reset with
    ctxs := List.replicate 4 bmw256Ctx, crcs := List.replicate 2 (crcUnitOfRecord (zeroRecord 3)), a0 := a, a2 := a,
    dmem := Memory.setBytes [] 0 (zeroRecord width) }

/-- Every error that R381 gives a command is the first error of that command in some state. -/
theorem exists_firstError_of_allowed (i : Instr) {e : ErrCode} (he : e ∈ allowedErrors i) :
    ∃ (j : Instr) (s : State), j.opcode = i.opcode ∧ s.firstError j = e := by
  cases e with
  | ok =>
    cases i with
    | init x y imm => exact ⟨.init 0 0 0x0001, State.reset, rfl, by decide⟩
    | nop | reset | update1 | update | digest | digestn | copy | getblk | getdlen | free | hmacinit | crccfg | crcinit | crcupd
    | crcfin => exact ⟨withImm 0 _, usableMachine 3 0, withImm_opcode _ _, rfl⟩
  | invalidInput => exact ⟨withImm 0xFFFF i, State.reset, by simp, by cases i <;> rfl⟩
  | bounds =>
    refine ⟨withImm 0 i, usableMachine 3 4097, by simp, ?_⟩
    cases i with
    | nop | init | reset | update1 | copy | getblk | getdlen | free | crcinit => simp [allowedErrors] at he
    | update | digest | digestn | hmacinit | crccfg | crcupd | crcfin => rfl
  | notImplemented =>
    refine ⟨withImm 0 i, State.reset, by simp, ?_⟩
    cases i with
    | nop | init | free | crccfg => simp [allowedErrors] at he
    | reset | update1 | update | digest | digestn | copy | getblk | getdlen | hmacinit | crcinit | crcupd | crcfin => rfl
  | contextUndefined =>
    refine ⟨withImm 0 i, undefMachine, by simp, ?_⟩
    cases i with
    | nop | init | free | crccfg | crcinit | crcupd | crcfin => simp [allowedErrors] at he
    | reset | update1 | update | digest | digestn | copy | getblk | getdlen | hmacinit => rfl
  | crcWidth =>
    refine ⟨withImm 0 i, usableMachine 2 0, by simp, ?_⟩
    cases i with
    | crccfg => rfl
    | _ => simp [allowedErrors] at he
  | illegalCommand => cases i <;> simp [allowedErrors] at he

end Attained

/-- Settles O21: each check raises an error of the table of R381, and each entry is the first error somewhere. -/
theorem allowedErrorsExact : Obligations.AllowedErrorsExact := by
  refine ⟨fun i s t hexec => (exec_next_completes hexec).err_mem_allowedErrors, fun i e he => ?_⟩
  obtain ⟨j, s, hop, hfirst⟩ := exists_firstError_of_allowed i he
  obtain ⟨t, hexec, herr⟩ := errorPriority j s
  exact ⟨j, s, t, hop, hexec, herr.trans hfirst⟩

end Sys2Proof.Machine
end
